-- ==== Sys2Proof/Word.lean ====
section
/-! DEFINITION. The word types of HUFFCORE: a register is `LEN_W` = 32 bits wide (spec/00_scope.md
R6, decision D27), and a raw unit is a number below `2 ^ UNIT_W`, where `UNIT_W` is a parameter (R6, D1). -/

namespace Sys2Proof

/-- A register value or a command word: `LEN_W` = 32 bits (R6, R10, R60). -/
abbrev Word := BitVec 32

/-- One raw unit (R6), a number below `2 ^ UNIT_W`: no rule adds, shifts or masks a unit (D1: "no rule depends
on the value" of `UNIT_W`), so only the host port and the record layouts read the width (log 7). -/
abbrev RawUnit := Nat

/-- One byte of the byte view of the stream (spec/20_memory.md R48). -/
abbrev Byte := BitVec 8

end Sys2Proof
end

