-- ==== Sys2Proof/Machine/Data.lean ====
section
/-! DEFINITION. The data HUFFCORE keeps and the transactions its host issues: symbols and table
records as structures with the spec's field names (spec/10_state.md R20 to R28, allowed by
spec/30_encoding.md R64), the memory windows as lists, the fault codes (R146), and the lines of a
host script (R71). -/

namespace Sys2Proof.Machine

/-- A symbol value (R20): the units in input order, `U[0]` first.  `SLEN` is the length of the list,
so equality of lists is the equality of R20. -/
abbrev Symbol := List RawUnit

/-- A frequency-table entry `{SYM, CNT}` (R22, R65).  Counts are naturals (R9). -/
structure FtEntry where
  sym : Symbol
  cnt : Nat
  deriving DecidableEq, Repr, Inhabited

/-- A tree node, the tagged variant of R23 and R67. -/
inductive TreeNode where
  /-- `{TAG: Leaf, SYM, FREQ}` -/
  | leaf (sym : Symbol) (freq : Nat)
  /-- `{TAG: Internal, LEFT, RIGHT, FREQ}`; LEFT and RIGHT index the same arena. -/
  | internal (left right : Nat) (freq : Nat)
  deriving DecidableEq, Repr, Inhabited

/-- A code-table entry `{SYM, CW}` (R28, R68); `CWLEN` is the length of `cw`, and bit index 0 of the
codeword, the choice made at the root, is the head of the list (R69). -/
structure CtEntry where
  sym : Symbol
  cw  : List Bool
  deriving DecidableEq, Repr, Inhabited

/-- What a location of FT, TREE or CT holds: a record, or a bit pattern of the element's width that is no
record, which only the host can write (R45, R64; spec/93 V8).  A pattern that is a record is held as one, so
equal contents are equal data (log 8). -/
inductive Stored (α : Type) where
  | record (r : α)
  | bits (v : Nat)
  deriving DecidableEq, Repr, Inhabited

/-- The same with another record in its place. -/
def Stored.map {α β : Type} (f : α → β) : Stored α → Stored β
  | .record r => .record (f r)
  | .bits v => .bits v

/-- A memory window (R10): the locations that hold a value, by element index.  An index that is not
listed has no value (spec/93 U1).  The canonical form lists the indices strictly rising. -/
abbrev Window (α : Type) := List (Nat × α)

/-- A table memory `M[s][e]` (R8, R40): one window for each segment that holds a value. -/
abbrev Table (α : Type) := Window (Window α)

/-- The nine memory windows of R10, by name. -/
inductive Win where
  | imem | ftN | ft | treeN | tree | ctN | ct | bitmem | omem
  deriving DecidableEq, Repr

/-- The six fault codes of R146; 0 is "no fault" and 7 to 15 are never produced. -/
inductive ErrCode where
  | lookup | trunc | config | capacity | badcmd | badstream
  deriving DecidableEq, Repr

/-- `raise E(seg, pos)` (R8, R150). -/
structure Raise where
  code : ErrCode
  seg  : Nat
  pos  : Nat
  deriving DecidableEq, Repr

/-- The location a `RDMEM` names (R45): a window and an element index, for FT, TREE and CT the pair
of segment and element. -/
inductive WinAddr where
  | imem (i : Nat)
  | ftN (s : Nat)
  | ft (s e : Nat)
  | treeN (s : Nat)
  | tree (s n : Nat)
  | ctN (s : Nat)
  | ct (s e : Nat)
  | bitmem (b : Nat)
  | omem (i : Nat)
  deriving DecidableEq, Repr

/-- A `WRMEM`: the location and the value (R45, R71).  `ftBits`, `treeBits` and `ctBits` write a record
given as the bits of its element (R65 to R69); the others give the value or the record by fields. -/
inductive WinWrite where
  | imem (i : Nat) (v : RawUnit)
  | ftN (s : Nat) (v : Word)
  | ft (s e : Nat) (v : FtEntry)
  | ftBits (s e : Nat) (v : Nat)
  | treeN (s : Nat) (v : Word)
  | tree (s n : Nat) (v : TreeNode)
  | treeBits (s n : Nat) (v : Nat)
  | ctN (s : Nat) (v : Word)
  | ct (s e : Nat) (v : CtEntry)
  | ctBits (s e : Nat) (v : Nat)
  | bitmem (b : Nat) (v : Bool)
  | omem (i : Nat) (v : RawUnit)
  deriving DecidableEq, Repr

/-- One line of a host script (R71): the transactions of R44 and R45 and the reset event. -/
inductive HostTxn where
  | rdreg (n : Nat)
  | wrreg (n : Nat) (v : Word)
  | rdmem (a : WinAddr)
  | wrmem (w : WinWrite)
  | reset
  deriving DecidableEq, Repr

/-- The value a `RDREG` or `RDMEM` returned (R44, R45): one element of one window or a register. -/
inductive HostRead where
  | reg (v : Word)
  | unit (v : RawUnit)
  | count (n : Nat)
  | ft (e : Stored FtEntry)
  | node (n : Stored TreeNode)
  | ct (e : Stored CtEntry)
  | bit (b : Bool)
  deriving DecidableEq, Repr

end Sys2Proof.Machine
end

