-- ==== Sys2Proof/Config.lean ====
section
/-! DEFINITION. What an implementation fixes (spec/00_scope.md R6) and the free values of spec/93
U1 to U3.  A free value is a constant with no body, applied to a counter in State: nothing can be
proved of it. -/

namespace Sys2Proof

/-- The implementation parameters of R6: `UNIT_W` (decision D1) and the OPEN capacities (D6).  `LEN_W` and
`FREQ_W` are 32 (D27); `NODECAP` and `CWMAX` are derived from `symCap` (Machine/Operands.lean). -/
structure Params where
  /-- `UNIT_W`: bits of one raw unit. -/
  unitW  : Nat
  /-- `INCAP`: units of IMEM. -/
  inCap  : Nat
  /-- `OUTCAP`: units of OMEM. -/
  outCap : Nat
  /-- `BITCAP`: bits of BITMEM. -/
  bitCap : Nat
  /-- `SEGCAP`: segments of the table memories. -/
  segCap : Nat
  /-- `SYMCAP`: distinct symbols in one segment. -/
  symCap : Nat
  /-- `SYMW`: units of the longest symbol a symbol field holds. -/
  symW   : Nat
  deriving DecidableEq, Repr

/-- The parameters of the machine at `State.reset`: `UNIT_W` is 8 for this hardware (R6, D1), and the
capacities, which the spec leaves OPEN, are a DESIGN CHOICE (log 1; unsafe).  State carries them all, so a
statement over all states holds for every choice. -/
def Config.params : Params :=
  { unitW := 8, inCap := 65536, outCap := 65536, bitCap := 1048576, segCap := 256, symCap := 256, symW := 4 }

/-- The unspecified value of a register after a fault (U3, R151; log 3). -/
opaque Config.freeWord : Nat → Word
/-- The number whose low `UNIT_W` bits are the unspecified unit a host read of IMEM or OMEM returns (U1, U2;
log 4). -/
opaque Config.freeUnit : Nat → RawUnit
/-- The unspecified count a host read of FT_N, TREE_N or CT_N returns (U1, U2; log 4). -/
opaque Config.freeCount : Nat → Word
/-- The unspecified bit a host read of BITMEM returns (U1, U2; log 4). -/
opaque Config.freeBit : Nat → Bool
/-- The number whose low bits are the unspecified element a host read of FT returns (U1, U2; log 4). -/
opaque Config.freeFtEntry : Nat → Nat
/-- The number whose low bits are the unspecified element a host read of TREE returns (U1, U2; log 4). -/
opaque Config.freeTreeNode : Nat → Nat
/-- The number whose low bits are the unspecified element a host read of CT returns (U1, U2; log 4). -/
opaque Config.freeCtEntry : Nat → Nat

end Sys2Proof
end

