-- ==== Sys2Proof/Syntax.lean ====
section
/-! DEFINITION. The commands of HUFFCORE, one constructor per row of spec/opcode_table.json
(spec/30_encoding.md R62).  A command carries no operand: every operand is implicit (R61). -/

namespace Sys2Proof

/-- The seven commands of R62. -/
inductive Instr where
  /-- NOP (R74). -/
  | nop
  /-- COUNT (R80). -/
  | count
  /-- BUILD (R91). -/
  | build
  /-- GEN (R106). -/
  | gen
  /-- BUILD_CODES (R114). -/
  | buildCodes
  /-- ENCODE (R121). -/
  | encode
  /-- DECODE (R131). -/
  | decode
  deriving DecidableEq, Repr

end Sys2Proof
end

