-- ==== Sys2Proof/WellFormed.lean ====
section
/-! DEFINITION. Well-formedness of commands and of the implementation parameters.  The predicates on
tables and trees (WF_FT, WF_TREE, WF_FREQ, WF_CT) are in Machine/Operands.lean. -/

namespace Sys2Proof

/-- A command has no field that could be out of range (spec/30_encoding.md R61): all are well-formed. -/
def Instr.wf : Instr → Bool
  | .nop => true
  | .count => true
  | .build => true
  | .gen => true
  | .buildCodes => true
  | .encode => true
  | .decode => true

/-- The constraints of spec/00_scope.md R6, with two that its R9 ("every value stored fits its field")
needs and R6 does not list: `NODECAP` and `SYMW` fit a 32-bit field (DEDUCED, log 2). -/
def Params.wf (c : Params) : Bool :=
  decide (1 ≤ c.unitW) && decide (c.inCap < 2 ^ 32) && decide (c.bitCap < 2 ^ 32) && decide (c.outCap < 2 ^ 32) &&
    decide (1 ≤ c.symCap) && decide (1 ≤ c.symW) &&
    decide (2 * c.symCap ≤ 2 ^ 32) && decide (c.symW < 2 ^ 32)

end Sys2Proof
end

