-- ==== Sys2Proof/Machine/State.lean ====
section
/-! DEFINITION. The state of HUFFCORE: the registers and memory windows of spec/10_state.md R10, and the
model's own fields (parameters, the host's script and what it has read, the free-value counter). -/

namespace Sys2Proof.Machine

/-- Outcomes in which the machine stops.  There is none: every fault of the spec is a state
(STATUS.FAULT = 1, R150), which a step reaches as its next state, and no access of the spec traps. -/
inductive Fault where
  deriving DecidableEq, Repr

/-- What the spec gives no meaning to and says a model refuses. -/
inductive Refusal where
  /-- A command that has no meaning in this model.  Only an arm of `exec` raises it; none does. -/
  | notModelled (mnemonic : String)
  /-- A command reads a location that holds no value (U1, U2; R171).  Raised by COUNT, BUILD, GEN,
  BUILD_CODES, ENCODE and DECODE; safe. -/
  | unwritten (w : Win)
  /-- A command's table or tree is not well-formed (U4; R155): WF_FT for BUILD, WF_TREE for GEN and
  DECODE, WF_CT for ENCODE; or one of its elements is no record (V8).  Raised by those commands with the segment; safe. -/
  | illFormed (w : Win) (seg : Nat)
  /-- A host transaction names an index outside its window or a register above 15 (U6; R46).  Raised
  by the host port; safe. -/
  | outsideWindow
  /-- A host transaction other than RDREG STATUS and RESET while BUSY = 1 (U5; R176).  Raised by the
  host port, in states no run reaches; safe. -/
  | busyAccess
  deriving DecidableEq, Repr

/-- The architectural state (R10), then the model's own fields. -/
structure State where
  /-- STATUS, register 1 (R18). -/
  status  : Word
  /-- SEGLEN, register 2 (R12). -/
  seglen  : Word
  /-- CHARLEN, register 3 (R13). -/
  charlen : Word
  /-- INLEN, register 4 (R14). -/
  inlen   : Word
  /-- NSEG, register 5 (R15). -/
  nseg    : Word
  /-- BITLEN, register 6 (R16). -/
  bitlen  : Word
  /-- OUTLEN, register 7 (R17). -/
  outlen  : Word
  /-- ERRSEG, register 8 (R19). -/
  errseg  : Word
  /-- ERRPOS, register 9 (R19). -/
  errpos  : Word
  /-- IMEM (R21). -/
  imem    : Window RawUnit
  /-- FT_N (R22). -/
  ftN     : Window Nat
  /-- FT (R22). -/
  ft      : Table (Stored FtEntry)
  /-- TREE_N (R23). -/
  treeN   : Window Nat
  /-- TREE (R23). -/
  tree    : Table (Stored TreeNode)
  /-- CT_N (R28). -/
  ctN     : Window Nat
  /-- CT (R28). -/
  ct      : Table (Stored CtEntry)
  /-- BITMEM (R29). -/
  bitmem  : Window Bool
  /-- OMEM (R30). -/
  omem    : Window RawUnit
  /-- The model's own: the implementation parameters of R6, which nothing changes (log 1). -/
  params  : Params
  /-- The model's own: the host script still to be executed (R71; log 5). -/
  script  : List HostTxn
  /-- The model's own: what the host has read, newest first (R44, R45; log 5). -/
  reads   : List HostRead
  /-- The model's own: how many free values have been drawn (log 3). -/
  draws   : Nat
  deriving DecidableEq, Repr

/-- The state after reset (R170): every register 0, no location of any window has a value, and the
host has issued nothing. -/
def State.reset : State :=
  { status := 0, seglen := 0, charlen := 0, inlen := 0, nseg := 0, bitlen := 0, outlen := 0
    errseg := 0, errpos := 0
    imem := [], ftN := [], ft := [], treeN := [], tree := [], ctN := [], ct := []
    bitmem := [], omem := []
    params := Config.params, script := [], reads := [], draws := 0 }

end Sys2Proof.Machine
end

