-- ==== Sys2Proof/Machine/Flags.lean ====
section
/-! DEFINITION. The STATUS register: its fields and the words a command leaves in it
(spec/10_state.md R18; spec/60_exceptions.md R146, R150). -/

namespace Sys2Proof.Machine

/-- The ERR value of a fault (the table of R146). -/
def ErrCode.value : ErrCode → BitVec 4
  | .lookup => 1
  | .trunc => 2
  | .config => 3
  | .capacity => 4
  | .badcmd => 5
  | .badstream => 6

/-- STATUS.BUSY, bit 0. -/
def statusBusy (w : Word) : Bool := w.getLsbD 0

/-- STATUS.DONE, bit 1. -/
def statusDone (w : Word) : Bool := w.getLsbD 1

/-- STATUS.FAULT, bit 2. -/
def statusFault (w : Word) : Bool := w.getLsbD 2

/-- STATUS.ERR, bits 7:4. -/
def statusErr (w : Word) : BitVec 4 := w.extractLsb' 4 4

/-- STATUS from its fields: bits 31:8 and 3 read 0 (R18). -/
def statusWord (busy done fault : Bool) (err : BitVec 4) : Word :=
  (0 : BitVec 24) ++ err ++ (0 : BitVec 1) ++ BitVec.ofBool fault ++ BitVec.ofBool done ++ BitVec.ofBool busy

/-- `{BUSY 0, DONE 1, FAULT 0, ERR 0}`: a command ended without a fault. -/
def statusOfDone : Word := statusWord false true false 0

/-- `{BUSY 0, DONE 0, FAULT 1, ERR code}`: a command ended with a fault (R150). -/
def statusOfFault (e : ErrCode) : Word := statusWord false false true e.value

end Sys2Proof.Machine
end

