-- ==== Sys2Proof/Machine/Ops.lean ====
section
/-! DEFINITION. The shared operations: memory windows, the registers as the host numbers them, ending a
command, taking a fault (spec/60_exceptions.md R150, R151) and the reset event that alone leaves it
(R152; spec/70_reset_and_hazards.md R170). -/

namespace Sys2Proof.Machine

/-! ## Memory windows -/

/-- `MemRead(M, i)`: the element of index `i`, or none where the location has no value (U1). -/
def Window.read {α : Type} : Window α → Nat → Option α
  | [], _ => none
  | (k, v) :: w, i => if k = i then some v else Window.read w i

/-- `MemWrite(M, i, v)`, keeping the indices strictly rising. -/
def Window.write {α : Type} : Window α → Nat → α → Window α
  | [], i, v => [(i, v)]
  | (k, u) :: w, i, v =>
    if i < k then (i, v) :: (k, u) :: w
    else if i = k then (i, v) :: w
    else (k, u) :: Window.write w i v

/-- The window whose elements from index `i` on are the list, and that holds nothing else. -/
def Window.ofListFrom {α : Type} : Nat → List α → Window α
  | _, [] => []
  | i, v :: vs => (i, v) :: Window.ofListFrom (i + 1) vs

/-- The window that holds exactly the list, from index 0 on (R55): what a command leaves in a window it
writes, every other location having no value (R33). -/
def Window.ofList {α : Type} (vs : List α) : Window α := Window.ofListFrom 0 vs

/-- `M[i : i + n]`, or none where one of the locations has no value. -/
def Window.readFrom {α : Type} (w : Window α) : Nat → Nat → Option (List α)
  | _, 0 => some []
  | i, n + 1 =>
    match Window.read w i with
    | none => none
    | some v => (Window.readFrom w (i + 1) n).map (v :: ·)

/-- The indices strictly rise, and none is below `lo`. -/
def Window.wfFrom {α : Type} : Nat → Window α → Bool
  | _, [] => true
  | lo, (k, _) :: w => decide (lo ≤ k) && Window.wfFrom (k + 1) w

/-- The canonical form of a window: the indices strictly rise. -/
def Window.wf {α : Type} (w : Window α) : Bool := Window.wfFrom 0 w

/-- Every listed index is below the capacity. -/
def Window.below {α : Type} (cap : Nat) (w : Window α) : Bool := w.all fun kv => decide (kv.1 < cap)

/-- `FT[s]`, `TREE[s]` or `CT[s]`; a segment that is not listed holds no value. -/
def Table.seg {α : Type} (t : Table α) (s : Nat) : Window α := (Window.read t s).getD []

/-- `MemRead(M[s], e)`. -/
def Table.read {α : Type} (t : Table α) (s e : Nat) : Option α := Window.read (Table.seg t s) e

/-- `MemWrite(M[s], e, v)`. -/
def Table.write {α : Type} (t : Table α) (s e : Nat) (v : α) : Table α :=
  Window.write t s (Window.write (Table.seg t s) e v)

/-- The table memory that holds exactly the given tables, from segment 0 on (R33). -/
def Table.ofLists {α : Type} (ts : List (List α)) : Table α := Window.ofList (ts.map Window.ofList)

/-- The table memory that holds exactly the given tables of records. -/
def Table.ofRecords {α : Type} (ts : List (List α)) : Table (Stored α) :=
  Table.ofLists (ts.map (List.map Stored.record))

/-- The canonical form of a table memory: the segments strictly rise, and each listed segment is a
canonical window that holds something. -/
def Table.wf {α : Type} (t : Table α) : Bool :=
  Window.wf t && t.all fun kw => !kw.2.isEmpty && Window.wf kw.2

/-- Every listed segment and element is below its capacity. -/
def Table.below {α : Type} (segs els : Nat) (t : Table α) : Bool :=
  t.all fun kw => decide (kw.1 < segs) && Window.below els kw.2

/-- Every memory window is in canonical form. -/
def Memory.wf (s : State) : Bool :=
  Window.wf s.imem && Window.wf s.ftN && Table.wf s.ft && Window.wf s.treeN && Table.wf s.tree &&
    Window.wf s.ctN && Table.wf s.ct && Window.wf s.bitmem && Window.wf s.omem

/-! ## Registers, as the host numbers them (R10, R44) -/

/-- `RDREG n`: CMD and registers 10 to 15 read 0; a number above 15 has no meaning (R46). -/
def readReg (s : State) (n : Nat) : Option Word :=
  match n with
  | 0 => some 0
  | 1 => some s.status
  | 2 => some s.seglen
  | 3 => some s.charlen
  | 4 => some s.inlen
  | 5 => some s.nseg
  | 6 => some s.bitlen
  | 7 => some s.outlen
  | 8 => some s.errseg
  | 9 => some s.errpos
  | n => if n ≤ 15 then some 0 else none

/-- `WRREG n, v` for a register other than CMD: SEGLEN, CHARLEN, INLEN, NSEG and BITLEN are written, a
write of any other register is ignored, and a number above 15 has no meaning (R46). -/
def writeReg (s : State) (n : Nat) (v : Word) : Option State :=
  match n with
  | 2 => some { s with seglen := v }
  | 3 => some { s with charlen := v }
  | 4 => some { s with inlen := v }
  | 5 => some { s with nseg := v }
  | 6 => some { s with bitlen := v }
  | n => if n ≤ 15 then some s else none

/-! ## The end of a command -/

/-- A command ends without a fault: STATUS becomes `{BUSY 0, DONE 1, FAULT 0, ERR 0}`. -/
def State.complete (s : State) : State := { s with status := statusOfDone }

/-- Fault entry (R150): STATUS, ERRSEG and ERRPOS are written and nothing else is saved; there is no
handler and no vector. -/
def State.takeFault (s : State) (r : Raise) : State :=
  { s with
    status := statusOfFault r.code
    errseg := BitVec.ofNat 32 r.seg
    errpos := BitVec.ofNat 32 r.pos }

/-- The reset event (R170), which alone clears STATUS.FAULT (R152): the state after reset, with the
model's own fields (the parameters, the script still to run, what was read, the draws) kept. -/
def State.resetEvent (s : State) : State :=
  { State.reset with params := s.params, script := s.script, reads := s.reads, draws := s.draws }

/-- `ERR_CONFIG` and `ERR_BADCMD` are raised before any write and leave nothing unspecified (R151). -/
def ErrCode.leavesAll : ErrCode → Bool
  | .config => true
  | .badcmd => true
  | .lookup => false
  | .trunc => false
  | .capacity => false
  | .badstream => false

/-- NSEG, FT_N and FT unspecified: what a fault in COUNT leaves (R151). -/
def State.loseCounts (s : State) : State :=
  { s with nseg := Config.freeWord s.draws, draws := s.draws + 1, ftN := [], ft := [] }

/-- TREE_N and TREE unspecified: what a fault in BUILD leaves (R151). -/
def State.loseTrees (s : State) : State := { s with treeN := [], tree := [] }

/-- CT_N and CT unspecified: what a fault in GEN leaves (R151). -/
def State.loseCodes (s : State) : State := { s with ctN := [], ct := [] }

/-- What a fault in BUILD_CODES leaves (R151). -/
def State.loseAllTables (s : State) : State := s.loseCounts.loseTrees.loseCodes

/-- BITLEN and BITMEM unspecified: what a fault in ENCODE leaves (R151). -/
def State.loseStream (s : State) : State :=
  { s with bitlen := Config.freeWord s.draws, draws := s.draws + 1, bitmem := [] }

/-- OUTLEN and OMEM unspecified: what a fault in DECODE leaves (R151). -/
def State.loseOutput (s : State) : State :=
  { s with outlen := Config.freeWord s.draws, draws := s.draws + 1, omem := [] }

/-- Why a command stops before its end: a `raise` of its pseudocode, or a case without a meaning. -/
inductive Stop where
  | raise (r : Raise)
  | refuse (r : Refusal)
  deriving DecidableEq, Repr

/-- `if c: raise E(0, 0)`. -/
def raiseIf (c : Bool) (e : ErrCode) : Except Stop Unit :=
  if c then .error (.raise ⟨e, 0, 0⟩) else .ok ()

/-- The value, or a refusal where there is none. -/
def orRefuse {α : Type} (r : Refusal) : Option α → Except Stop α
  | none => .error (.refuse r)
  | some a => .ok a

/-- Run `f` over a list in order, stopping at the first stop. -/
def traverse {α β : Type} (f : α → Except Stop β) : List α → Except Stop (List β)
  | [] => .ok []
  | a :: as => do
    let b ← f a
    let bs ← traverse f as
    return b :: bs

/-- The end of a command that began in `s` and whose pseudocode came to `r`.  A `raise` leaves what the
command writes unspecified (`lose`, R151) and enters the fault (R150). -/
def conclude (lose : State → State) (s : State) (r : Except Stop State) :
    Host.Outcome State Fault Refusal :=
  match r with
  | .ok t => .next t.complete
  | .error (.raise e) => .next ((if e.code.leavesAll then s else lose s).takeFault e)
  | .error (.refuse e) => .refused e

end Sys2Proof.Machine
end

