-- ==== Sys2Proof/Machine/Segmenter.lean ====
section
/-! DEFINITION. The Segmenter, the one unit from which the Frequency Counter and the Encoder take their
symbols (spec/40_segmenter_counter.md R75 to R77). -/

namespace Sys2Proof.Machine

/-- Ceiling division, for `b ≥ 1` (R7). -/
def cdiv (a b : Nat) : Nat := (a + b - 1) / b

/-- The number of segments, `k = cdiv(L, p)` (R76). -/
def segCount (L p : Nat) : Nat := cdiv L p

/-- `m_i = min(p, L - i * p)`, the length of segment `i` (R76). -/
def segLen (L p i : Nat) : Nat := min p (L - i * p)

/-- `n_i = cdiv(m_i, q)`, the number of symbols of segment `i` (R77). -/
def symCount (L p q i : Nat) : Nat := cdiv (segLen L p i) q

/-- `a = s_i + j * q`, the unit index at which symbol `j` of segment `i` starts (R77). -/
def symStart (p q i j : Nat) : Nat := i * p + j * q

/-- `SLEN = min(q, m_i - j * q)`, the length of symbol `j` of segment `i` (R77). -/
def symLen (L p q i j : Nat) : Nat := min q (segLen L p i - j * q)

/-- `sym(i, j)` (R77). -/
def symAt (input : List RawUnit) (p q i j : Nat) : Symbol :=
  (input.drop (symStart p q i j)).take (symLen input.length p q i j)

/-- The symbols of segment `i` in input order (R77). -/
def segSymbols (input : List RawUnit) (p q i : Nat) : List Symbol :=
  (List.range (symCount input.length p q i)).map (symAt input p q i)

/-- The segments in input order, each as its symbols (R76, R77). -/
def segments (input : List RawUnit) (p q : Nat) : List (List Symbol) :=
  (List.range (segCount input.length p)).map (segSymbols input p q)

end Sys2Proof.Machine
end

