-- ==== Sys2Proof/Machine/Operands.lean ====
section
/-! DEFINITION. The implicit operands of the commands (spec/20_memory.md R41, spec/30_encoding.md R61):
what the registers and windows denote (spec/10_state.md R34), the well-formedness predicates of
R24 to R27 and the refusal of what has no value (spec/93 U1, U2, U4). -/

namespace Sys2Proof.Machine

/-- `NODECAP = 2 * SYMCAP - 1` (R6). -/
def nodeCap (c : Params) : Nat := 2 * c.symCap - 1

/-- `CWMAX = max(1, SYMCAP - 1)` (R6). -/
def cwMax (c : Params) : Nat := max 1 (c.symCap - 1)

/-! ## Well-formedness (R24 to R27) -/

/-- Pairwise different. -/
def distinct {α : Type} [DecidableEq α] : List α → Bool
  | [] => true
  | a :: as => !decide (a ∈ as) && distinct as

/-- `SLEN` in `1 .. SYMW`. -/
def symbolOk (c : Params) (y : Symbol) : Bool := decide (1 ≤ y.length) && decide (y.length ≤ c.symW)

/-- The sum of all `CNT`. -/
def totalCount (t : List FtEntry) : Nat := (t.map FtEntry.cnt).sum

/-- WF_FT (R24). -/
def wfFt (c : Params) (t : List FtEntry) : Bool :=
  decide (1 ≤ t.length) && decide (t.length ≤ c.symCap) && distinct (t.map FtEntry.sym) &&
    t.all (fun e => symbolOk c e.sym && decide (1 ≤ e.cnt)) && decide (totalCount t < 2 ^ 32)

/-- `FREQ` of a node. -/
def TreeNode.freq : TreeNode → Nat
  | .leaf _ f => f
  | .internal _ _ f => f

/-- Node `n` is an Internal node with `m` as its LEFT or RIGHT. -/
def TreeNode.hasChild (m : Nat) : TreeNode → Bool
  | .leaf _ _ => false
  | .internal l r _ => decide (l = m) || decide (r = m)

/-- The number of Internal nodes of the arena that have `m` as a child. -/
def parentCount (ns : List TreeNode) (m : Nat) : Nat := ns.countP (TreeNode.hasChild m)

/-- The symbols of the Leaf nodes, in index order. -/
def leafSymbols (ns : List TreeNode) : List Symbol :=
  ns.filterMap fun
    | .leaf y _ => some y
    | .internal _ _ _ => none

/-- Condition 2 of R25 at node `n`: both children below `n`, and different. -/
def childrenBelow (n : Nat) : TreeNode → Bool
  | .leaf _ _ => true
  | .internal l r _ => decide (l < n) && decide (r < n) && decide (l ≠ r)

/-- Condition 2 of R25 for the nodes from index `n` on. -/
def childrenBelowFrom : Nat → List TreeNode → Bool
  | _, [] => true
  | n, x :: xs => childrenBelow n x && childrenBelowFrom (n + 1) xs

/-- WF_TREE (R25), its conditions 1 to 4 in order. -/
def wfTree (c : Params) (ns : List TreeNode) : Bool :=
  (decide (ns.length % 2 = 1) && decide (ns.length ≤ nodeCap c)) &&
    childrenBelowFrom 0 ns &&
    ((List.range (ns.length - 1)).all (fun m => decide (parentCount ns m = 1)) &&
      decide (parentCount ns (ns.length - 1) = 0)) &&
    (distinct (leafSymbols ns) && (leafSymbols ns).all (symbolOk c))

/-- `FREQ` of the node of index `x`; 0 for an index outside the arena, where R26 says nothing (DESIGN CHOICE,
log 15). -/
def freqAt (ns : List TreeNode) (x : Nat) : Nat := ((ns[x]?).map TreeNode.freq).getD 0

/-- WF_FREQ (R26): every Leaf counts at least 1 and every Internal node the sum of its children.  No command
reads it; a child outside the arena, which R25 rules out, counts 0 (DESIGN CHOICE, log 15). -/
def wfFreq (ns : List TreeNode) : Bool :=
  ns.all fun
    | .leaf _ f => decide (1 ≤ f)
    | .internal l r f => decide (f = freqAt ns l + freqAt ns r)

/-- WF_CT (R27). -/
def wfCt (c : Params) (t : List CtEntry) : Bool :=
  decide (1 ≤ t.length) && decide (t.length ≤ c.symCap) && distinct (t.map CtEntry.sym) &&
    t.all fun e => symbolOk c e.sym && decide (1 ≤ e.cw.length) && decide (e.cw.length ≤ cwMax c)

/-! ## What the state denotes (R34) -/

/-- The input, `IMEM[0:INLEN]`; none where one of its units has no value. -/
def State.input (s : State) : Option (List RawUnit) := Window.readFrom s.imem 0 s.inlen.toNat

/-- The encoded stream, `BITMEM[0:BITLEN]`. -/
def State.stream (s : State) : Option (List Bool) := Window.readFrom s.bitmem 0 s.bitlen.toNat

/-- The decoder output, `OMEM[0:OUTLEN]`. -/
def State.output (s : State) : Option (List RawUnit) := Window.readFrom s.omem 0 s.outlen.toNat

/-- `M[i][0 : M_N[i]]`. -/
def entries {α : Type} (counts : Window Nat) (t : Table α) (i : Nat) : Option (List α) :=
  (Window.read counts i).bind (Window.readFrom (Table.seg t i) 0)

/-- The records of a list of elements; none where one of them is no record. -/
def recordsOf {α : Type} : List (Stored α) → Option (List α)
  | [] => some []
  | .record r :: es => (recordsOf es).map (r :: ·)
  | .bits _ :: _ => none

/-- The records `M[i][0 : M_N[i]]`; none where one of the locations has no value or holds no record. -/
def tableOf {α : Type} (counts : Window Nat) (t : Table (Stored α)) (i : Nat) : Option (List α) :=
  (entries counts t i).bind recordsOf

/-- The frequency table of segment `i`, `FT[i][0 : FT_N[i]]`. -/
def State.freqTable (s : State) (i : Nat) : Option (List FtEntry) := tableOf s.ftN s.ft i

/-- The arena of segment `i`, `TREE[i][0 : TREE_N[i]]`. -/
def State.arena (s : State) (i : Nat) : Option (List TreeNode) := tableOf s.treeN s.tree i

/-- The code table of segment `i`, `CT[i][0 : CT_N[i]]`. -/
def State.codeTable (s : State) (i : Nat) : Option (List CtEntry) := tableOf s.ctN s.ct i

/-! ## Reading the operands -/

/-- The input a command reads, refused where a unit has no value (U1, R171; log 6). -/
def loadInput (s : State) : Except Stop (List RawUnit) := orRefuse (.unwritten .imem) s.input

/-- The stream DECODE reads. -/
def loadStream (s : State) : Except Stop (List Bool) := orRefuse (.unwritten .bitmem) s.stream

/-- A table or tree a command reads: refused where it has no value (U1), an element is no record (V8) or it is
not well-formed (U4). -/
def loadTable {α : Type} (w : Win) (get : Nat → Option (List (Stored α))) (ok : List α → Bool) (i : Nat) :
    Except Stop (List α) := do
  let es ← orRefuse (.unwritten w) (get i)
  let t ← orRefuse (.illFormed w i) (recordsOf es)
  if ok t then .ok t else .error (.refuse (.illFormed w i))

/-- The frequency tables of segments `0 .. k - 1`, as BUILD requires them (R90). -/
def loadFreqTables (s : State) (k : Nat) : Except Stop (List (List FtEntry)) :=
  traverse (loadTable .ft (entries s.ftN s.ft) (wfFt s.params)) (List.range k)

/-- The trees of segments `0 .. k - 1`, as GEN and DECODE require them (R105, R130). -/
def loadTrees (s : State) (k : Nat) : Except Stop (List (List TreeNode)) :=
  traverse (loadTable .tree (entries s.treeN s.tree) (wfTree s.params)) (List.range k)

/-- The code tables of segments `0 .. k - 1`, as ENCODE requires them (R120). -/
def loadCodeTables (s : State) (k : Nat) : Except Stop (List (List CtEntry)) :=
  traverse (loadTable .ct (entries s.ctN s.ct) (wfCt s.params)) (List.range k)

end Sys2Proof.Machine
end

