-- ==== Sys2Proof/Machine/Counter.lean ====
section
/-! DEFINITION. The Frequency Counter and its command COUNT (spec/40_segmenter_counter.md R80 to R84). -/

namespace Sys2Proof.Machine

/-- The checks of R81, in its order. -/
def countChecks (s : State) : Except Stop Unit := do
  let L := s.inlen.toNat
  let p := s.seglen.toNat
  let q := s.charlen.toNat
  raiseIf (p = 0 || q = 0) .config
  raiseIf (s.params.inCap < L) .capacity
  raiseIf (s.params.segCap < segCount L p) .capacity
  raiseIf (0 < L && s.params.symW < min q (min p L)) .capacity

/-- Add one to the entry of symbol `y`; none where no entry has it (R82). -/
def countUp (y : Symbol) : List FtEntry → Option (List FtEntry)
  | [] => none
  | e :: es => if e.sym = y then some ({ e with cnt := e.cnt + 1 } :: es) else (countUp y es).map (e :: ·)

/-- `count_segment` from the table built so far: the symbols in input order, a new symbol at the end of
the table, `ERR_CAPACITY` where the table already has `SYMCAP` entries (R82). -/
def countSegment (symCap : Nat) : List FtEntry → List Symbol → Except Stop (List FtEntry)
  | t, [] => .ok t
  | t, y :: ys =>
    match countUp y t with
    | some t' => countSegment symCap t' ys
    | none =>
      if t.length = symCap then .error (.raise ⟨.capacity, 0, 0⟩)
      else countSegment symCap (t ++ [⟨y, 1⟩]) ys

/-- What COUNT writes: NSEG, FT_N and FT (R80); every other location of FT_N and FT has no value (R33). -/
def State.storeCounts (s : State) (tables : List (List FtEntry)) : State :=
  { s with
    nseg := BitVec.ofNat 32 tables.length
    ftN := Window.ofList (tables.map List.length)
    ft := Table.ofRecords tables }

/-- COUNT without its final STATUS write (R80, R114). -/
def countPhase (s : State) : Except Stop State := do
  countChecks s
  let input ← loadInput s
  let tables ← traverse (countSegment s.params.symCap []) (segments input s.seglen.toNat s.charlen.toNat)
  return s.storeCounts tables

/-- COUNT (R80). -/
def execCount (s : State) : Host.Outcome State Fault Refusal :=
  conclude State.loseCounts s (countPhase s)

end Sys2Proof.Machine
end

