-- ==== Sys2Proof/Machine/TreeBuilder.lean ====
section
/-! DEFINITION. The Tree Builder and its command BUILD (spec/41_tree_builder.md R90 to R96). -/

namespace Sys2Proof.Machine

/-- The queue order of R92: node `x` is before node `y`. -/
def before (ns : List TreeNode) (x y : Nat) : Bool :=
  decide (freqAt ns x < freqAt ns y) || (decide (freqAt ns x = freqAt ns y) && decide (x < y))

/-- The first in queue order of `x` and the nodes of `pq`. -/
def firstOf (ns : List TreeNode) : Nat → List Nat → Nat
  | x, [] => x
  | x, y :: pq => firstOf ns (if before ns y x then y else x) pq

/-- `extract_min(PQ)`: the lowest node and the queue without it; none where the queue is empty (R92). -/
def extractMin (ns : List TreeNode) : List Nat → Option (Nat × List Nat)
  | [] => none
  | x :: pq => some (firstOf ns x pq, (x :: pq).erase (firstOf ns x pq))

/-- Part 1 of `build_tree`: entry `e` becomes Leaf `e` (R93). -/
def seedLeaves (t : List FtEntry) : List TreeNode := t.map fun e => .leaf e.sym e.cnt

/-- Part 2 of `build_tree`: while the queue holds two nodes, merge the two lowest; the second removed is
LEFT, the first RIGHT (R94).  The number bounds the passes; each pass shortens the queue by one. -/
def mergeLoop : Nat → List TreeNode → List Nat → List TreeNode
  | 0, ns, _ => ns
  | fuel + 1, ns, pq =>
    match extractMin ns pq with
    | none => ns
    | some (a, pq₁) =>
      match extractMin ns pq₁ with
      | none => ns
      | some (b, pq₂) =>
        mergeLoop fuel (ns ++ [.internal b a (freqAt ns a + freqAt ns b)]) (pq₂ ++ [ns.length])

/-- `build_tree` (R93, R94). -/
def buildTree (t : List FtEntry) : List TreeNode :=
  mergeLoop t.length (seedLeaves t) (List.range t.length)

/-- What BUILD writes: TREE_N and TREE (R91); every other location of them has no value (R33). -/
def State.storeTrees (s : State) (trees : List (List TreeNode)) : State :=
  { s with
    treeN := Window.ofList (trees.map List.length)
    tree := Table.ofRecords trees }

/-- BUILD without its final STATUS write (R91, R114). -/
def buildPhase (s : State) : Except Stop State := do
  raiseIf (s.params.segCap < s.nseg.toNat) .capacity
  let tables ← loadFreqTables s s.nseg.toNat
  return s.storeTrees (tables.map buildTree)

/-- BUILD (R91). -/
def execBuild (s : State) : Host.Outcome State Fault Refusal :=
  conclude State.loseTrees s (buildPhase s)

end Sys2Proof.Machine
end

