-- ==== Sys2Proof/Machine/CodeGenerator.lean ====
section
/-! DEFINITION. The Code Generator with its commands GEN and BUILD_CODES (spec/42_code_generator.md R105
to R114). -/

namespace Sys2Proof.Machine

/-- `visit(s, x, path)`: the entries of the leaves below node `x`, left subtree first, each with the path
to it, 0 for left and 1 for right (R106, R107, R109).  The number bounds the depth; a well-formed tree
of N nodes is less than N deep. -/
def visit (ns : List TreeNode) : Nat → Nat → List Bool → List CtEntry
  | 0, _, _ => []
  | fuel + 1, x, path =>
    match ns[x]? with
    | some (.leaf y _) => [⟨y, path⟩]
    | some (.internal l r _) => visit ns fuel l (path ++ [false]) ++ visit ns fuel r (path ++ [true])
    | none => []

/-- `gen_table`: the traversal from the root, the last node; a tree that is a single Leaf gets the
one-bit codeword "0" (R106, R108). -/
def genTable (ns : List TreeNode) : List CtEntry :=
  match ns.getLast? with
  | some (.leaf y _) => [⟨y, [false]⟩]
  | _ => visit ns ns.length (ns.length - 1) []

/-- What GEN writes: CT_N and CT (R106); every other location of them has no value (R33). -/
def State.storeCodes (s : State) (tables : List (List CtEntry)) : State :=
  { s with
    ctN := Window.ofList (tables.map List.length)
    ct := Table.ofRecords tables }

/-- GEN without its final STATUS write (R106, R114). -/
def genPhase (s : State) : Except Stop State := do
  raiseIf (s.params.segCap < s.nseg.toNat) .capacity
  let trees ← loadTrees s s.nseg.toNat
  return s.storeCodes (trees.map genTable)

/-- GEN (R106). -/
def execGen (s : State) : Host.Outcome State Fault Refusal :=
  conclude State.loseCodes s (genPhase s)

/-- COUNT, then BUILD, then GEN, each without its final STATUS write (R114). -/
def buildCodesPhase (s : State) : Except Stop State := do
  let counted ← countPhase s
  let built ← buildPhase counted
  genPhase built

/-- BUILD_CODES (R114). -/
def execBuildCodes (s : State) : Host.Outcome State Fault Refusal :=
  conclude State.loseAllTables s (buildCodesPhase s)

end Sys2Proof.Machine
end

