-- ==== Sys2Proof/Machine/Control.lean ====
section
/-! DEFINITION. NOP, the command without a unit (spec/30_encoding.md R74). -/

namespace Sys2Proof.Machine

/-- NOP (R74): nothing; ends with DONE = 1. -/
def execNop (s : State) : Host.Outcome State Fault Refusal := conclude id s (.ok s)

end Sys2Proof.Machine
end

