-- ==== Sys2Proof/Machine/Decoder.lean ====
section
/-! DEFINITION. The Decoder and its command DECODE (spec/44_decoder.md R130 to R139).  The bit cursor is
the list of the bits not yet consumed: `b = B` is the empty list. -/

namespace Sys2Proof.Machine

/-- The checks of R132, in its order. -/
def decodeChecks (s : State) : Except Stop Unit := do
  raiseIf (s.seglen.toNat = 0 || s.charlen.toNat = 0) .config
  raiseIf (s.params.segCap < s.nseg.toNat) .capacity
  raiseIf (s.params.bitCap < s.bitlen.toNat) .capacity

/-- The walk of R135 from node `x`: the Leaf's symbol and the bits left, or none where the bits end
before a Leaf (R137). -/
def walk (ns : List TreeNode) : Nat → List Bool → Option (Symbol × List Bool)
  | x, [] =>
    match ns[x]? with
    | some (.leaf y _) => some (y, [])
    | some (.internal _ _ _) => none
    | none => none
  | x, b :: bs =>
    match ns[x]? with
    | some (.leaf y _) => some (y, b :: bs)
    | some (.internal l r _) => walk ns (if b then r else l) bs
    | none => none

/-- `decode_symbol(i)` (R135, R136): the symbol and the bits left. -/
def decodeSymbol (ns : List TreeNode) (i cnt : Nat) (bits : List Bool) :
    Except Stop (Symbol × List Bool) :=
  match ns.getLast? with
  | some (.leaf y _) =>
    match bits with
    | [] => .error (.raise ⟨.trunc, i, cnt⟩)
    | true :: _ => .error (.raise ⟨.badstream, i, cnt⟩)
    | false :: bs => .ok (y, bs)
  | _ =>
    match walk ns (ns.length - 1) bits with
    | none => .error (.raise ⟨.trunc, i, cnt⟩)
    | some r => .ok r

/-- The loop of R131 over the symbols of segment `i`; the first number is `cap - cnt`.  The bits left and
the output so far come out. -/
def decodeSegment (outCap : Nat) (ns : List TreeNode) (i : Nat) (last : Bool) :
    Nat → Nat → List Bool → List RawUnit → Except Stop (List Bool × List RawUnit)
  | 0, _, bits, out => .ok (bits, out)
  | more + 1, cnt, bits, out =>
    if last && bits.isEmpty && decide (1 ≤ cnt) then .ok (bits, out)
    else do
      let (y, bits') ← decodeSymbol ns i cnt bits
      raiseIf (outCap < out.length + y.length) .capacity
      decodeSegment outCap ns i last more (cnt + 1) bits' (out ++ y)

/-- The segments from index `i` on, each with its own tree (R131, R134). -/
def decodeSegments (outCap cap : Nat) :
    Nat → List (List TreeNode) → List Bool → List RawUnit → Except Stop (List Bool × List RawUnit)
  | _, [], bits, out => .ok (bits, out)
  | i, ns :: rest, bits, out => do
    let (bits', out') ← decodeSegment outCap ns i rest.isEmpty cap 0 bits out
    decodeSegments outCap cap (i + 1) rest bits' out'

/-- `if b != B: raise ERR_BADSTREAM(k, 0)` (R138). -/
def checkTrailing (k : Nat) (bits : List Bool) : Except Stop Unit :=
  if bits.isEmpty then .ok () else .error (.raise ⟨.badstream, k, 0⟩)

/-- What DECODE writes: OUTLEN and OMEM (R131); units at and above OUTLEN have no value (R33). -/
def State.storeOutput (s : State) (out : List RawUnit) : State :=
  { s with outlen := BitVec.ofNat 32 out.length, omem := Window.ofList out }

/-- DECODE without its final STATUS write (R131). -/
def decodePhase (s : State) : Except Stop State := do
  decodeChecks s
  let bits ← loadStream s
  let trees ← loadTrees s s.nseg.toNat
  let (rest, out) ←
    decodeSegments s.params.outCap (cdiv s.seglen.toNat s.charlen.toNat) 0 trees bits []
  checkTrailing trees.length rest
  return s.storeOutput out

/-- DECODE (R131). -/
def execDecode (s : State) : Host.Outcome State Fault Refusal :=
  conclude State.loseOutput s (decodePhase s)

end Sys2Proof.Machine
end

