-- ==== Sys2Proof/Machine/Encoder.lean ====
section
/-! DEFINITION. The Encoder and its command ENCODE (spec/43_encoder.md R120 to R125). -/

namespace Sys2Proof.Machine

/-- The checks of R122, in its order. -/
def encodeChecks (s : State) : Except Stop Unit := do
  let L := s.inlen.toNat
  let p := s.seglen.toNat
  let q := s.charlen.toNat
  raiseIf (p = 0 || q = 0) .config
  raiseIf (s.params.inCap < L) .capacity
  raiseIf (s.params.segCap < s.nseg.toNat) .capacity
  raiseIf (0 < L && s.params.symW < min q (min p L)) .capacity

/-- The codeword of symbol `y` in a code table; none where no entry has it (R123). -/
def lookup (y : Symbol) : List CtEntry → Option (List Bool)
  | [] => none
  | e :: es => if e.sym = y then some e.cw else lookup y es

/-- The symbols of segment `i` from index `j` on, their codewords appended to the bits produced so far.
`table` is the segment's code table, or none where the segment has none (R121, R123, R125).  The
look-up comes before the capacity test (R153). -/
def encodeSymbols (bitCap : Nat) (table : Option (List CtEntry)) (i : Nat) :
    Nat → List Symbol → List Bool → Except Stop (List Bool)
  | _, [], bits => .ok bits
  | j, y :: ys, bits =>
    match table.bind (lookup y) with
    | none => .error (.raise ⟨.lookup, i, j⟩)
    | some cw =>
      if bitCap < bits.length + cw.length then .error (.raise ⟨.capacity, 0, 0⟩)
      else encodeSymbols bitCap table i (j + 1) ys (bits ++ cw)

/-- The segments from index `i` on, in input order (R121); segment `i` has the code table of index `i`. -/
def encodeSegments (bitCap : Nat) (tables : List (List CtEntry)) :
    Nat → List (List Symbol) → List Bool → Except Stop (List Bool)
  | _, [], bits => .ok bits
  | i, ys :: rest, bits => do
    let bits' ← encodeSymbols bitCap tables[i]? i 0 ys bits
    encodeSegments bitCap tables (i + 1) rest bits'

/-- What ENCODE writes: BITLEN and BITMEM (R121); bits at and above BITLEN have no value (R33). -/
def State.storeStream (s : State) (bits : List Bool) : State :=
  { s with bitlen := BitVec.ofNat 32 bits.length, bitmem := Window.ofList bits }

/-- ENCODE without its final STATUS write (R121): it reads the tables of the segments below
`min(NSEG, k)` (R120). -/
def encodePhase (s : State) : Except Stop State := do
  encodeChecks s
  let input ← loadInput s
  let segs := segments input s.seglen.toNat s.charlen.toNat
  let tables ← loadCodeTables s (min s.nseg.toNat segs.length)
  let bits ← encodeSegments s.params.bitCap tables 0 segs []
  return s.storeStream bits

/-- ENCODE (R121). -/
def execEncode (s : State) : Host.Outcome State Fault Refusal :=
  conclude State.loseStream s (encodePhase s)

end Sys2Proof.Machine
end

