-- ==== Sys2Proof/Decode.lean ====
section
/-! DEFINITION. The command word: decoding, total on every 32-bit word, and encoding
(spec/30_encoding.md R60, R62, R63). -/

namespace Sys2Proof

/-- Why a word encodes no command (R63). -/
inductive DecodeReject where
  /-- A bit of the ZERO field, bits 31:4, is set. -/
  | zeroFieldSet
  /-- OP is 7 to 15. -/
  | reservedOp
  deriving DecidableEq, Repr

/-- The OP field, bits 3:0 (R60). -/
def opField (w : Word) : BitVec 4 := w.extractLsb' 0 4

/-- The ZERO field, bits 31:4 (R60). -/
def zeroField (w : Word) : BitVec 28 := w.extractLsb' 4 28

/-- The command of an OP value (the opcode map of R62). -/
def commandOfOp (op : BitVec 4) : Except DecodeReject Instr :=
  match op.toNat with
  | 0 => .ok .nop
  | 1 => .ok .count
  | 2 => .ok .build
  | 3 => .ok .gen
  | 4 => .ok .buildCodes
  | 5 => .ok .encode
  | 6 => .ok .decode
  | _ => .error .reservedOp

/-- The command a word encodes, or why it encodes none (R62, R63). -/
def decode (w : Word) : Except DecodeReject Instr :=
  if zeroField w = 0 then commandOfOp (opField w) else .error .zeroFieldSet

/-- The OP value of a command (the opcode map of R62). -/
def opOf : Instr → BitVec 4
  | .nop => 0
  | .count => 1
  | .build => 2
  | .gen => 3
  | .buildCodes => 4
  | .encode => 5
  | .decode => 6

/-- The command word: ZERO above OP (R60). -/
def encode (i : Instr) : Word := (0 : BitVec 28) ++ opOf i

/-- What the decoder reads from the word of an opcode-table row: a row has 32 bits, and a number that
does not fit 32 bits is no command word (R60). -/
def decodeTableWord (nbits w : Nat) : Option Instr :=
  if w % 2 ^ nbits < 2 ^ 32 then (decode (BitVec.ofNat 32 (w % 2 ^ nbits))).toOption else none

end Sys2Proof
end

