-- ==== Sys2Proof/Machine/Records.lean ====
section
/-! DEFINITION. The host's view of records and of the stream bit for bit: the record layouts of
spec/30_encoding.md R65 to R69, what a location holds after a host write of a bit pattern
(spec/20_memory.md R45), and the byte view of R48.  No command reads a bit position inside a record (R64). -/

namespace Sys2Proof.Machine

/-! ## Which records a layout holds -/

/-- The unit is a number of `UNIT_W` bits (R6). -/
def unitFits (c : Params) (u : RawUnit) : Bool := decide (u < 2 ^ c.unitW)

/-- A symbol of units whose lanes fit UNITS and whose length fits the SLEN field (R66). -/
def symbolFits (c : Params) (y : Symbol) : Bool :=
  decide (y.length ≤ c.symW) && decide (y.length < 2 ^ 32) && y.all (unitFits c)

/-- The entry fits the layout of R65. -/
def FtEntry.fits (c : Params) (e : FtEntry) : Bool := decide (e.cnt < 2 ^ 32) && symbolFits c e.sym

/-- The node fits the layout of R67. -/
def TreeNode.fits (c : Params) : TreeNode → Bool
  | .leaf y f => decide (f < 2 ^ 32) && symbolFits c y
  | .internal l r f => decide (f < 2 ^ 32) && decide (l < 2 ^ 32) && decide (r < 2 ^ 32)

/-- The entry fits the layout of R68. -/
def CtEntry.fits (c : Params) (e : CtEntry) : Bool :=
  decide (e.cw.length ≤ cwMax c) && decide (e.cw.length < 2 ^ 32) && symbolFits c e.sym

/-! ## The layouts

A `pack` function gives the bits of a record, each field by its low bits where a value is wider than the field
(log 8). -/

/-- The low `UNIT_W` bits of a number: what a location of IMEM or OMEM can hold (log 8). -/
def unitOf (c : Params) (v : Nat) : RawUnit := v % 2 ^ c.unitW

/-- `SYMBITS = SYMW * UNIT_W` (R64). -/
def symBits (c : Params) : Nat := c.symW * c.unitW

/-- The width of an FT element (R65). -/
def ftWidth (c : Params) : Nat := 64 + symBits c

/-- The width of a TREE element (R67). -/
def nodeWidth (c : Params) : Nat := 65 + max (symBits c) 32

/-- The width of a CT element (R68). -/
def ctWidth (c : Params) : Nat := 64 + symBits c + cwMax c

/-- UNITS: unit `U[j]` in lane `j`, the lanes above the symbol 0 (R66). -/
def unitsNat (c : Params) : Symbol → Nat
  | [] => 0
  | u :: us => unitOf c u + 2 ^ c.unitW * unitsNat c us

/-- The first `n` lanes of UNITS (R66). -/
def unitsOfNat (c : Params) : Nat → Nat → Symbol
  | 0, _ => []
  | n + 1, v => unitOf c v :: unitsOfNat c n (v / 2 ^ c.unitW)

/-- CWBITS: bit index `j` of the codeword at position `j`, the positions above it 0 (R69). -/
def codewordNat : List Bool → Nat
  | [] => 0
  | b :: bs => b.toNat + 2 * codewordNat bs

/-- The first `n` positions of CWBITS (R69). -/
def codewordOfNat : Nat → Nat → List Bool
  | 0, _ => []
  | n + 1, v => decide (v % 2 = 1) :: codewordOfNat n (v / 2)

/-- The symbol of the fields SLEN and UNITS; none where it does not fit or an unused lane is not 0. -/
def symbolOfFields (c : Params) (slen units : Nat) : Option Symbol :=
  if slen ≤ c.symW ∧ units < 2 ^ (slen * c.unitW) then some (unitsOfNat c slen units) else none

/-- A frequency-table entry as bits: CNT 31:0, SLEN 63:32, UNITS from 64 (R65). -/
def packFt (c : Params) (e : FtEntry) : Nat :=
  e.cnt % 2 ^ 32 + 2 ^ 32 * (e.sym.length % 2 ^ 32 + 2 ^ 32 * (unitsNat c e.sym % 2 ^ symBits c))

/-- The frequency-table entry of a bit pattern; none where a bit that must be 0 is set (V8). -/
def unpackFt (c : Params) (v : Nat) : Option FtEntry :=
  (symbolOfFields c (v / 2 ^ 32 % 2 ^ 32) (v / 2 ^ 64)).map fun y => ⟨y, v % 2 ^ 32⟩

/-- A tree node as bits: TAG 0, FREQ 32:1, SLEN or LEFT 64:33, UNITS or RIGHT from 65 (R67). -/
def packNode (c : Params) : TreeNode → Nat
  | .leaf y f => 2 * (f % 2 ^ 32 + 2 ^ 32 * (y.length % 2 ^ 32 + 2 ^ 32 * (unitsNat c y % 2 ^ symBits c)))
  | .internal l r f => 1 + 2 * (f % 2 ^ 32 + 2 ^ 32 * (l % 2 ^ 32 + 2 ^ 32 * (r % 2 ^ 32)))

/-- The tree node of a bit pattern; none where a bit that must be 0 is set (V8). -/
def unpackNode (c : Params) (v : Nat) : Option TreeNode :=
  let freq := v / 2 % 2 ^ 32
  let low := v / 2 ^ 33 % 2 ^ 32
  let high := v / 2 ^ 65
  if v % 2 = 0 then (symbolOfFields c low high).map fun y => .leaf y freq
  else if high < 2 ^ 32 then some (.internal low high freq)
  else none

/-- A code-table entry as bits: CWLEN 31:0, SLEN 63:32, UNITS from 64 in `SYMBITS` bits, CWBITS above it (R68). -/
def packCt (c : Params) (e : CtEntry) : Nat :=
  e.cw.length % 2 ^ 32 + 2 ^ 32 * (e.sym.length % 2 ^ 32 + 2 ^ 32 *
    (unitsNat c e.sym % 2 ^ symBits c + 2 ^ symBits c * (codewordNat e.cw % 2 ^ cwMax c)))

/-- The code-table entry of a bit pattern; none where a bit that must be 0 is set (V8). -/
def unpackCt (c : Params) (v : Nat) : Option CtEntry :=
  let cwlen := v % 2 ^ 32
  let cwbits := v / 2 ^ 64 / 2 ^ symBits c
  if cwlen ≤ cwMax c ∧ cwbits < 2 ^ cwlen then
    (symbolOfFields c (v / 2 ^ 32 % 2 ^ 32) (v / 2 ^ 64 % 2 ^ symBits c)).map fun y =>
      ⟨y, codewordOfNat cwlen cwbits⟩
  else none

/-! ## What a location holds -/

/-- What a location of the given width holds after a write of the number's low bits: the record they are, or
the bits where they are none (R45, V8). -/
def storedOf {α : Type} (width : Nat) (unpack : Nat → Option α) (v : Nat) : Stored α :=
  match unpack (v % 2 ^ width) with
  | some r => .record r
  | none => .bits (v % 2 ^ width)

/-- An FT element of a bit pattern. -/
def ftOfBits (c : Params) : Nat → Stored FtEntry := storedOf (ftWidth c) (unpackFt c)

/-- A TREE element of a bit pattern. -/
def nodeOfBits (c : Params) : Nat → Stored TreeNode := storedOf (nodeWidth c) (unpackNode c)

/-- A CT element of a bit pattern. -/
def ctOfBits (c : Params) : Nat → Stored CtEntry := storedOf (ctWidth c) (unpackCt c)

/-- The bits of an element, as the host sees them (R64). -/
def Stored.toBits {α : Type} (pack : α → Nat) : Stored α → Nat
  | .record r => pack r
  | .bits v => v

/-- The element is one of its window's: a record that fits, or a pattern of the element's width that is no
record. -/
def Stored.fits {α : Type} (fits : α → Bool) (width : Nat) (unpack : Nat → Option α) : Stored α → Bool
  | .record r => fits r
  | .bits v => decide (v < 2 ^ width) && (unpack v).isNone

/-! ## The byte view of the stream (R48) -/

/-- Bit `8 B + j` of a stream as a number; a position behind the end is padding, 0. -/
def streamBit (bits : List Bool) (i : Nat) : Nat := ((bits[i]?).getD false).toNat

/-- Byte `B`: bit index `8 B + j` at bit position `7 - j`. -/
def byteAt (bits : List Bool) (B : Nat) : Byte :=
  BitVec.ofNat 8 (((List.range 8).map fun j => streamBit bits (8 * B + j) * 2 ^ (7 - j)).sum)

/-- The byte view: `cdiv(BITLEN, 8)` bytes. -/
def bytesOfBits (bits : List Bool) : List Byte := (List.range (cdiv bits.length 8)).map (byteAt bits)

/-- The stream of `n` bits that a byte view carries. -/
def bitsOfBytes (bytes : List Byte) (n : Nat) : List Bool :=
  (List.range n).map fun i => ((bytes[i / 8]?).getD 0).getLsbD (7 - i % 8)

end Sys2Proof.Machine
end

