-- ==== Sys2Proof/Machine/HostPort.lean ====
section
/-! DEFINITION. The host port: what one host transaction does (spec/20_memory.md R44 to R46,
spec/10_state.md R11, spec/60_exceptions.md R152 and R156, spec/70_reset_and_hazards.md R170 and R176). -/

namespace Sys2Proof.Machine

/-- What the next host transaction comes to. -/
inductive HostTurn where
  /-- The transaction is complete and no command runs. -/
  | quiet (s : State)
  /-- The command write was accepted: the command runs from this state. -/
  | command (i : Instr) (s : State)
  /-- The spec gives the transaction no meaning. -/
  | refuse (r : Refusal)

/-- A window element, or a free value that is drawn for it: what a `RDMEM` returns (R45, U1).  Two reads
of a location without a value need not agree. -/
def readOrDraw {α : Type} (s : State) (wrap : α → HostRead) (free : Nat → α) : Option α → State
  | some v => { s with reads := wrap v :: s.reads }
  | none => { s with reads := wrap (free s.draws) :: s.reads, draws := s.draws + 1 }

/-- Whether a location lies in its window (R10, R46). -/
def WinAddr.inWindow (c : Params) : WinAddr → Bool
  | .imem i => decide (i < c.inCap)
  | .ftN s => decide (s < c.segCap)
  | .ft s e => decide (s < c.segCap) && decide (e < c.symCap)
  | .treeN s => decide (s < c.segCap)
  | .tree s n => decide (s < c.segCap) && decide (n < nodeCap c)
  | .ctN s => decide (s < c.segCap)
  | .ct s e => decide (s < c.segCap) && decide (e < c.symCap)
  | .bitmem b => decide (b < c.bitCap)
  | .omem i => decide (i < c.outCap)

/-- The location a `WRMEM` writes. -/
def WinWrite.addr : WinWrite → WinAddr
  | .imem i _ => .imem i
  | .ftN s _ => .ftN s
  | .ft s e _ => .ft s e
  | .ftBits s e _ => .ft s e
  | .treeN s _ => .treeN s
  | .tree s n _ => .tree s n
  | .treeBits s n _ => .tree s n
  | .ctN s _ => .ctN s
  | .ct s e _ => .ct s e
  | .ctBits s e _ => .ct s e
  | .bitmem b _ => .bitmem b
  | .omem i _ => .omem i

/-- `RDMEM` of a location in its window (R45). -/
def readMem (s : State) : WinAddr → State
  | .imem i => readOrDraw s .unit (fun n => unitOf s.params (Config.freeUnit n)) (Window.read s.imem i)
  | .ftN i => readOrDraw s .count (fun n => (Config.freeCount n).toNat) (Window.read s.ftN i)
  | .ft i e => readOrDraw s .ft (fun n => ftOfBits s.params (Config.freeFtEntry n)) (Table.read s.ft i e)
  | .treeN i => readOrDraw s .count (fun n => (Config.freeCount n).toNat) (Window.read s.treeN i)
  | .tree i n => readOrDraw s .node (fun n => nodeOfBits s.params (Config.freeTreeNode n)) (Table.read s.tree i n)
  | .ctN i => readOrDraw s .count (fun n => (Config.freeCount n).toNat) (Window.read s.ctN i)
  | .ct i e => readOrDraw s .ct (fun n => ctOfBits s.params (Config.freeCtEntry n)) (Table.read s.ct i e)
  | .bitmem b => readOrDraw s .bit Config.freeBit (Window.read s.bitmem b)
  | .omem i => readOrDraw s .unit (fun n => unitOf s.params (Config.freeUnit n)) (Window.read s.omem i)

/-- `WRMEM` of a location in its window (R45): every window but OMEM is written.  A record given by fields
is the pattern of its layout; a pattern that is no record is stored too, and refused only where a command reads
it (V8, U4; log 8). -/
def writeMem (s : State) : WinWrite → State
  | .imem i v => { s with imem := Window.write s.imem i (unitOf s.params v) }
  | .ftN i v => { s with ftN := Window.write s.ftN i v.toNat }
  | .ft i e v => { s with ft := Table.write s.ft i e (ftOfBits s.params (packFt s.params v)) }
  | .ftBits i e v => { s with ft := Table.write s.ft i e (ftOfBits s.params v) }
  | .treeN i v => { s with treeN := Window.write s.treeN i v.toNat }
  | .tree i n v => { s with tree := Table.write s.tree i n (nodeOfBits s.params (packNode s.params v)) }
  | .treeBits i n v => { s with tree := Table.write s.tree i n (nodeOfBits s.params v) }
  | .ctN i v => { s with ctN := Window.write s.ctN i v.toNat }
  | .ct i e v => { s with ct := Table.write s.ct i e (ctOfBits s.params (packCt s.params v)) }
  | .ctBits i e v => { s with ct := Table.write s.ct i e (ctOfBits s.params v) }
  | .bitmem b v => { s with bitmem := Window.write s.bitmem b v }
  | .omem _ _ => s

/-- A write to CMD with BUSY = 0: ignored while FAULT = 1 (R152), `ERR_BADCMD` for a word that encodes no
command (R63, R156), else the command is accepted (R11). -/
def writeCmd (s : State) (w : Word) : HostTurn :=
  if statusFault s.status then .quiet s
  else
    match decode w with
    | .ok i => .command i s
    | .error _ => .quiet (s.takeFault ⟨.badcmd, 0, 0⟩)

/-- A transaction that is done in no time, or is refused where there is no result. -/
def quietOr (r : Refusal) : Option State → HostTurn
  | some s => .quiet s
  | none => .refuse r

/-- One host transaction while BUSY = 0. -/
def transact (s : State) : HostTxn → HostTurn
  | .rdreg n => quietOr .outsideWindow ((readReg s n).map fun v => { s with reads := .reg v :: s.reads })
  | .wrreg 0 v => writeCmd s v
  | .wrreg (n + 1) v => quietOr .outsideWindow (writeReg s (n + 1) v)
  | .rdmem a => if a.inWindow s.params then .quiet (readMem s a) else .refuse .outsideWindow
  | .wrmem w => if w.addr.inWindow s.params then .quiet (writeMem s w) else .refuse .outsideWindow
  | .reset => .quiet s.resetEvent

/-- What the host may do while BUSY = 1: read STATUS and reset (R176). -/
def allowedWhileBusy : HostTxn → Bool
  | .rdreg n => decide (n = 1)
  | .wrreg _ _ => false
  | .rdmem _ => false
  | .wrmem _ => false
  | .reset => true

/-- The host's next transaction, taken off the script; with none left the core stays idle (R164). -/
def hostTurn (s : State) : HostTurn :=
  match s.script with
  | [] => .quiet s
  | t :: rest =>
    if statusBusy s.status && !allowedWhileBusy t then .refuse .busyAccess
    else transact { s with script := rest } t

end Sys2Proof.Machine
end

