-- ==== Sys2Proof/Machine/Step.lean ====
section
/-! DEFINITION. One step: the next transaction of the host's script, and the command it starts run to its
end (spec/00_scope.md R5: a command is one atomic step). -/

namespace Sys2Proof.Machine

/-- One step of HUFFCORE. -/
def step (s : State) : Host.Outcome State Fault Refusal :=
  match hostTurn s with
  | .quiet s' => .next s'
  | .command i s' => exec i s'
  | .refuse r => .refused r

/-- The state in which the host's next transaction writes the given word to CMD: HUFFCORE stores no
program (R31), a command comes from the host (log 5). -/
def State.withFetchWord (s : State) (nbits w : Nat) : State :=
  { s with script := .wrreg 0 (BitVec.ofNat 32 (w % 2 ^ nbits)) :: s.script }

end Sys2Proof.Machine
end

