-- ==== Sys2Proof/Machine/Script.lean ====
section
/-! DEFINITION. The pseudo-lines of a host script and the source's three interfaces as scripts
(spec/30_encoding.md R72, R73). -/

namespace Sys2Proof.Machine

/-- `CMD mnemonic`. -/
def scriptCmd (i : Instr) : List HostTxn := [.wrreg 0 (encode i)]

/-- `WAIT`: one `RDREG STATUS`, since a command is atomic to the host. -/
def scriptWait : List HostTxn := [.rdreg 1]

/-- `WRMEM`s of consecutive locations from index `i` on. -/
def scriptWrites {α : Type} (write : Nat → α → WinWrite) : Nat → List α → List HostTxn
  | _, [] => []
  | i, v :: vs => .wrmem (write i v) :: scriptWrites write (i + 1) vs

/-- `LOAD IMEM, "text"`. -/
def scriptLoad (text : List RawUnit) : List HostTxn :=
  scriptWrites .imem 0 text ++ [.wrreg 4 (BitVec.ofNat 32 text.length)]

/-- `LOADBITS "bits"`. -/
def scriptLoadBits (bits : List Bool) : List HostTxn :=
  scriptWrites .bitmem 0 bits ++ [.wrreg 6 (BitVec.ofNat 32 bits.length)]

/-- `CONFIG p, q`. -/
def scriptConfig (p q : Word) : List HostTxn := [.wrreg 2 p, .wrreg 3 q]

/-- The tables of segments `0 .. n - 1` written by the host: the elements and the count of each, then NSEG. -/
def scriptTables {α : Type} (element : Nat → Nat → α → WinWrite) (count : Nat → Word → WinWrite)
    (ts : List (List α)) : List HostTxn :=
  ((List.range ts.length).zip ts).flatMap (fun it =>
      scriptWrites (element it.1) 0 it.2 ++ [.wrmem (count it.1 (BitVec.ofNat 32 it.2.length))]) ++
    [.wrreg 5 (BitVec.ofNat 32 ts.length)]

/-- The script where the host provides the operand, and nothing where the state holds it already. -/
def scriptIf {α : Type} (load : α → List HostTxn) : Option α → List HostTxn
  | some v => load v
  | none => []

/-- `build_codes(input, segment_length, character_length)` (R73). -/
def scriptBuildCodes (input : List RawUnit) (p q : Word) : List HostTxn :=
  scriptConfig p q ++ scriptLoad input ++ scriptCmd .buildCodes ++ scriptWait

/-- `encode(input, segment_length, character_length, code_tables)` (R73): `CONFIG` and `LOAD IMEM` with the
given input, p and q, or none of them on the state `build_codes` left; the given code tables written by the
host, or those in place. -/
def scriptEncode (input : Option (List RawUnit × Word × Word)) (tables : Option (List (List CtEntry))) : List HostTxn :=
  scriptIf (fun ipq => scriptConfig ipq.2.1 ipq.2.2 ++ scriptLoad ipq.1) input ++
    scriptIf (scriptTables .ct .ctN) tables ++ scriptCmd .encode ++ scriptWait

/-- `decode(bit_sequence, trees, segment_length, character_length)` (R73): `CONFIG`; the given bits loaded with
`LOADBITS`, or those ENCODE left; the given trees written by the host, or those BUILD or BUILD_CODES left. -/
def scriptDecode (bits : Option (List Bool)) (trees : Option (List (List TreeNode))) (p q : Word) : List HostTxn :=
  scriptConfig p q ++ scriptIf scriptLoadBits bits ++ scriptIf (scriptTables .tree .treeN) trees ++
    scriptCmd .decode ++ scriptWait

end Sys2Proof.Machine
end

