-- ==== Sys2Proof/Safety.lean ====
section
/-! DEFINITION. The terms claims are stated in: what each command writes and reads (spec/20_memory.md R41),
what a location holds, legal STATUS words, the invariants of the state, when a command can complete, and
the notions of the source's data model that the meanings do not use themselves (spec/10_state.md R34). -/

namespace Sys2Proof.Machine

/-! ## Locations -/

/-- The window of a location. -/
def WinAddr.win : WinAddr → Win
  | .imem _ => .imem
  | .ftN _ => .ftN
  | .ft _ _ => .ft
  | .treeN _ => .treeN
  | .tree _ _ => .tree
  | .ctN _ => .ctN
  | .ct _ _ => .ct
  | .bitmem _ => .bitmem
  | .omem _ => .omem

/-- What a location holds; none where it has no value (U1). -/
def State.element (s : State) : WinAddr → Option HostRead
  | .imem i => (Window.read s.imem i).map .unit
  | .ftN i => (Window.read s.ftN i).map .count
  | .ft i e => (Table.read s.ft i e).map .ft
  | .treeN i => (Window.read s.treeN i).map .count
  | .tree i n => (Table.read s.tree i n).map .node
  | .ctN i => (Window.read s.ctN i).map .count
  | .ct i e => (Table.read s.ct i e).map .ct
  | .bitmem b => (Window.read s.bitmem b).map .bit
  | .omem i => (Window.read s.omem i).map .unit

/-- The value a `WRMEM` puts at its location: a record that fits its layout as it is, else what the location
holds of the pattern. -/
def WinWrite.value (c : Params) : WinWrite → HostRead
  | .imem _ v => .unit (unitOf c v)
  | .ftN _ v => .count v.toNat
  | .ft _ _ v => .ft (if v.fits c then .record v else ftOfBits c (packFt c v))
  | .ftBits _ _ v => .ft (ftOfBits c v)
  | .treeN _ v => .count v.toNat
  | .tree _ _ v => .node (if v.fits c then .record v else nodeOfBits c (packNode c v))
  | .treeBits _ _ v => .node (nodeOfBits c v)
  | .ctN _ v => .count v.toNat
  | .ct _ _ v => .ct (if v.fits c then .record v else ctOfBits c (packCt c v))
  | .ctBits _ _ v => .ct (ctOfBits c v)
  | .bitmem _ v => .bit v
  | .omem _ v => .unit (unitOf c v)

/-! ## What a command writes and reads (R41) -/

/-- The W entries of R41 for the registers, by number (R10); STATUS, ERRSEG and ERRPOS are written by
every command that writes them at its end. -/
def writesReg : Instr → List Nat
  | .nop => [1]
  | .count => [1, 5, 8, 9]
  | .build => [1, 8, 9]
  | .gen => [1, 8, 9]
  | .buildCodes => [1, 5, 8, 9]
  | .encode => [1, 6, 8, 9]
  | .decode => [1, 7, 8, 9]

/-- The W entries of R41 for the windows. -/
def writesWin : Instr → List Win
  | .nop => []
  | .count => [.ftN, .ft]
  | .build => [.treeN, .tree]
  | .gen => [.ctN, .ct]
  | .buildCodes => [.ftN, .ft, .treeN, .tree, .ctN, .ct]
  | .encode => [.bitmem]
  | .decode => [.omem]

/-- The R entries of R41 for the registers. -/
def readsReg : Instr → List Nat
  | .nop => []
  | .count => [2, 3, 4]
  | .build => [5]
  | .gen => [5]
  | .buildCodes => [2, 3, 4]
  | .encode => [2, 3, 4, 5]
  | .decode => [2, 3, 5, 6]

/-- The R entries of R41 for the windows. -/
def readsWin : Instr → List Win
  | .nop => []
  | .count => [.imem]
  | .build => [.ftN, .ft]
  | .gen => [.treeN, .tree]
  | .buildCodes => [.imem]
  | .encode => [.imem, .ctN, .ct]
  | .decode => [.treeN, .tree, .bitmem]

/-- The two states hold the same in a window, location by location. -/
def SameWindow (w : Win) (s t : State) : Prop := ∀ a : WinAddr, a.win = w → t.element a = s.element a

/-- `t` holds what `s` held in every register and at every location of every window that command `i` does
not write, and the model's own fields but the draws are as before. -/
def KeepsUnwritten (i : Instr) (s t : State) : Prop :=
  (∀ n, n ∉ writesReg i → readReg t n = readReg s n) ∧
    (∀ w, w ∉ writesWin i → SameWindow w s t) ∧
    t.params = s.params ∧ t.script = s.script ∧ t.reads = s.reads

/-- Command `i` ends without a fault: it answers `t` with STATUS `{DONE}`, leaves ERRSEG and ERRPOS (R19) and
keeps all it does not write. -/
def CompletesWith (i : Instr) (s t : State) : Prop :=
  exec i s = .next t ∧ t.status = statusOfDone ∧ t.errseg = s.errseg ∧ t.errpos = s.errpos ∧
    KeepsUnwritten i s t

/-- Command `i` ends with fault `e` at `(seg, pos)` (R150), keeping all it does not write. -/
def FaultsWith (i : Instr) (s : State) (e : ErrCode) (seg pos : Nat) : Prop :=
  ∃ t, exec i s = .next t ∧ t.status = statusOfFault e ∧ t.errseg.toNat = seg ∧ t.errpos.toNat = pos ∧
    KeepsUnwritten i s t

/-- The host's next transaction is `x`, the core is idle, and `rest` follows. -/
def Issues (s : State) (x : HostTxn) (rest : List HostTxn) : Prop :=
  s.script = x :: rest ∧ statusBusy s.status = false

/-! ## Legal states -/

/-- The STATUS words of R18 while no command runs: after reset, DONE, or FAULT with a code of R146. -/
def StatusLegal (w : Word) : Prop := w = 0 ∨ w = statusOfDone ∨ ∃ e, w = statusOfFault e

/-- Every listed location lies in its window (R10). -/
def Memory.inWindows (s : State) : Prop := ∀ a, s.element a ≠ none → a.inWindow s.params = true

/-- The value of a location fits its field: units have `UNIT_W` bits, counts are 32 bits wide, records fit
their layouts, and a pattern that is no record has the element's width (R9). -/
def HostRead.fits (c : Params) : HostRead → Bool
  | .reg _ => true
  | .unit v => unitFits c v
  | .count n => decide (n < 2 ^ 32)
  | .ft e => e.fits (FtEntry.fits c) (ftWidth c) (unpackFt c)
  | .node n => n.fits (TreeNode.fits c) (nodeWidth c) (unpackNode c)
  | .ct e => e.fits (CtEntry.fits c) (ctWidth c) (unpackCt c)
  | .bit _ => true

/-- The windows whose elements have the value's kind (R10); a register value is an element of none. -/
def HostRead.windows : HostRead → List Win
  | .reg _ => []
  | .unit _ => [.imem, .omem]
  | .count _ => [.ftN, .treeN, .ctN]
  | .ft _ => [.ft]
  | .node _ => [.tree]
  | .ct _ => [.ct]
  | .bit _ => [.bitmem]

/-- The value is one that location `a` can hold: of the kind of its window's elements, and of their width. -/
def HostRead.IsElementOf (c : Params) (a : WinAddr) (v : HostRead) : Prop := a.win ∈ v.windows ∧ v.fits c = true

/-- Every stored value fits its field (R9). -/
def Memory.fits (s : State) : Prop := ∀ a v, s.element a = some v → v.fits s.params = true

/-- A step has a meaning: it does not end in a refusal (there is no other stop). -/
def SafeStep (s : State) : Prop := ∃ t, step s = .next t

/-! ## Notions of the data model -/

/-- The different elements of a list in the order of their first occurrence. -/
def firstOccurrences {α : Type} [DecidableEq α] (ys : List α) : List α :=
  ys.foldl (fun seen y => if y ∈ seen then seen else seen ++ [y]) []

/-- The frequency table of a segment with the given symbols: each with its number of occurrences, in
order of first occurrence (R22, R84). -/
def frequencyTable (ys : List Symbol) : List FtEntry :=
  (firstOccurrences ys).map fun y => ⟨y, ys.count y⟩

/-- The node reached from node `x` by child choices, 0 for left and 1 for right (R107); none where a
choice is made at a Leaf. -/
def follow (ns : List TreeNode) : Nat → List Bool → Option Nat
  | x, [] => some x
  | x, b :: bs =>
    match ns[x]? with
    | some (.internal l r _) => follow ns (if b then r else l) bs
    | some (.leaf _ _) => none
    | none => none

/-- A node with another FREQ. -/
def TreeNode.setFreq (f : Nat) : TreeNode → TreeNode
  | .leaf y _ => .leaf y f
  | .internal l r _ => .internal l r f

/-- The nodes of an arena with `n` leaves that wait in the queue before merge `m`: made so far and the
child of no Internal node made so far (R93, R94). -/
def Waiting (ns : List TreeNode) (n m x : Nat) : Prop :=
  x < n + m ∧ ∀ j node, j < n + m → ns[j]? = some node → node.hasChild x = false

/-- The table has an entry for the symbol. -/
abbrev HasEntry (t : List CtEntry) (y : Symbol) : Prop := ∃ e ∈ t, e.sym = y

/-- The codeword a table gives a symbol, empty where it gives none. -/
def codewordOf (t : List CtEntry) (y : Symbol) : List Bool :=
  ((t.find? fun e => e.sym = y).map CtEntry.cw).getD []

/-- The concatenation of the codewords of segments with the given tables, from segment `i` on (R126). -/
def streamOf (tables : Nat → List CtEntry) : Nat → List (List Symbol) → List Bool
  | _, [] => []
  | i, ys :: rest => ys.flatMap (codewordOf (tables i)) ++ streamOf tables (i + 1) rest

/-- The bits of entries, segment by segment. -/
def bitsOf (segs : List (List CtEntry)) : List Bool := segs.flatten.flatMap CtEntry.cw

/-- The units of entries, segment by segment. -/
def unitsOf (segs : List (List CtEntry)) : List RawUnit := segs.flatten.flatMap CtEntry.sym

/-! ## When a command can complete -/

/-- The checks of R81 pass and the input has a value and fits `SYMCAP`: COUNT and BUILD_CODES complete. -/
abbrev CountReady (s : State) (input : List RawUnit) : Prop :=
  1 ≤ s.seglen.toNat ∧ 1 ≤ s.charlen.toNat ∧ s.inlen.toNat ≤ s.params.inCap ∧
    cdiv s.inlen.toNat s.seglen.toNat ≤ s.params.segCap ∧
    (s.inlen.toNat = 0 ∨ min s.charlen.toNat (min s.seglen.toNat s.inlen.toNat) ≤ s.params.symW) ∧
    s.input = some input ∧
    ∀ ys ∈ segments input s.seglen.toNat s.charlen.toNat, (firstOccurrences ys).length ≤ s.params.symCap

/-- The requirements of BUILD (R90): the tables of all segments below NSEG, well-formed. -/
abbrev BuildReady (s : State) (tables : Nat → List FtEntry) : Prop :=
  s.nseg.toNat ≤ s.params.segCap ∧
    ∀ i < s.nseg.toNat, s.freqTable i = some (tables i) ∧ wfFt s.params (tables i) = true

/-- The requirements of GEN and of DECODE on the trees (R105, R130). -/
abbrev TreesReady (s : State) (trees : Nat → List TreeNode) : Prop :=
  s.nseg.toNat ≤ s.params.segCap ∧
    ∀ i < s.nseg.toNat, s.arena i = some (trees i) ∧ wfTree s.params (trees i) = true

/-- The checks of R122 pass and the operands of ENCODE have values and meet R120. -/
abbrev EncodeReady (s : State) (input : List RawUnit) (tables : Nat → List CtEntry) : Prop :=
  1 ≤ s.seglen.toNat ∧ 1 ≤ s.charlen.toNat ∧ s.inlen.toNat ≤ s.params.inCap ∧
    s.nseg.toNat ≤ s.params.segCap ∧
    (s.inlen.toNat = 0 ∨ min s.charlen.toNat (min s.seglen.toNat s.inlen.toNat) ≤ s.params.symW) ∧
    s.input = some input ∧
    ∀ i < min s.nseg.toNat (cdiv s.inlen.toNat s.seglen.toNat),
      s.codeTable i = some (tables i) ∧ wfCt s.params (tables i) = true

/-- The checks of R132 pass and the operands of DECODE have values and meet R130. -/
abbrev DecodeReady (s : State) (bits : List Bool) (trees : Nat → List TreeNode) : Prop :=
  1 ≤ s.seglen.toNat ∧ 1 ≤ s.charlen.toNat ∧ TreesReady s trees ∧
    s.bitlen.toNat ≤ s.params.bitCap ∧ s.stream = some bits

/-- GEN from `s` completed in `t` and made the code table `T` of segment `i` from the arena `ns`. -/
abbrev Generated (s t : State) (i : Nat) (ns : List TreeNode) (T : List CtEntry) : Prop :=
  exec .gen s = .next t ∧ t.status = statusOfDone ∧ i < s.nseg.toNat ∧ s.arena i = some ns ∧ t.codeTable i = some T

/-- The symbols of a full segment, `cap = cdiv(SEGLEN, CHARLEN)` (R133). -/
def fullCount (s : State) : Nat := cdiv s.seglen.toNat s.charlen.toNat

/-- The entries of the first segments of a stream, each from the code of its own tree. -/
abbrev FromTrees (trees : Nat → List TreeNode) (segs : List (List CtEntry)) : Prop :=
  ∀ i < segs.length, ∀ e ∈ segs.getD i [], e ∈ genTable (trees i)

end Sys2Proof.Machine
end

