-- ==== Sys2Proof/Certificates/Slice0/Obligations.lean ====
section
/-! DEFINITION. The statements about the model, one for each obligation; each docstring names the rule or
the section of spec/ it comes from. -/

open Sys2Proof Sys2Proof.Machine

/-! ## The command word -/

/-- R62, R63: encoding a command and decoding the word gives the command back; the seven words of the opcode
map select the seven commands, each word only its own; and a word with OP in 7 .. 15 or with a bit above
bit 3 set encodes no command. -/
def Obligations.CommandWordsOfTheOpcodeMap : Prop :=
  (∀ i : Instr, decode (encode i) = .ok i) ∧
  ∀ w : Word,
    (decode w = .ok .nop ↔ w = 0x00000000) ∧ (decode w = .ok .count ↔ w = 0x00000001) ∧
    (decode w = .ok .build ↔ w = 0x00000002) ∧ (decode w = .ok .gen ↔ w = 0x00000003) ∧
    (decode w = .ok .buildCodes ↔ w = 0x00000004) ∧ (decode w = .ok .encode ↔ w = 0x00000005) ∧
    (decode w = .ok .decode ↔ w = 0x00000006) ∧
    ((7 ≤ w.toNat % 16 ∨ 16 ≤ w.toNat) → ∃ r, decode w = .error r)

/-- R62, R63: words written out from the encoding table. -/
def Obligations.WordsWrittenOutDecode : Prop :=
  decodeTableWord 32 0b00000000000000000000000000000001 = some .count ∧
    decodeTableWord 32 0b00000000000000000000000000000100 = some .buildCodes ∧
    decodeTableWord 32 0b00000000000000000000000000000110 = some .decode ∧
    decodeTableWord 32 0b00000000000000000000000000000111 = none ∧
    decodeTableWord 32 0b00000000000000000000000000010001 = none ∧
    decodeTableWord 32 0b10000000000000000000000000000000 = none

/-! ## Record layouts and the byte view -/

/-- R65, R66: a frequency-table entry that fits its layout has CNT in bits 31:0, SLEN in bits 63:32, unit
`U[j]` in the `UNIT_W` bits from `64 + UNIT_W * j` and no bit above its last unit, and is what a location holds after its bits are
written; a pattern that is read as an entry is that entry's layout; and every pattern of the element's width is
read back bit for bit (R45). -/
def Obligations.FrequencyEntryLayout : Prop :=
  ∀ (c : Params),
    (∀ e : FtEntry, e.fits c = true →
      packFt c e % 2 ^ 32 = e.cnt ∧ packFt c e / 2 ^ 32 % 2 ^ 32 = e.sym.length ∧
      (∀ j u, e.sym[j]? = some u → packFt c e / 2 ^ (64 + j * c.unitW) % 2 ^ c.unitW = u) ∧
      packFt c e < 2 ^ (64 + e.sym.length * c.unitW) ∧
      ftOfBits c (packFt c e) = .record e) ∧
    (∀ v e, unpackFt c v = some e → e.fits c = true ∧ packFt c e = v) ∧
    ∀ v, v < 2 ^ (64 + symBits c) → (ftOfBits c v).toBits (packFt c) = v

/-- R66, R67: a tree node that fits its layout has TAG in bit 0, FREQ in bits 32:1, SLEN or LEFT in bits
64:33 and UNITS or RIGHT from bit 65, and is what a location holds after its bits are written; a pattern that is
read as a node is that node's layout; and every pattern of the element's width is read back bit for bit (R45). -/
def Obligations.TreeNodeLayout : Prop :=
  ∀ (c : Params),
    (∀ y f, (TreeNode.leaf y f).fits c = true →
      packNode c (.leaf y f) % 2 = 0 ∧ packNode c (.leaf y f) / 2 % 2 ^ 32 = f ∧
      packNode c (.leaf y f) / 2 ^ 33 % 2 ^ 32 = y.length ∧
      (∀ j u, y[j]? = some u → packNode c (.leaf y f) / 2 ^ (65 + j * c.unitW) % 2 ^ c.unitW = u) ∧
      packNode c (.leaf y f) < 2 ^ (65 + y.length * c.unitW)) ∧
    (∀ l r f, (TreeNode.internal l r f).fits c = true →
      packNode c (.internal l r f) % 2 = 1 ∧ packNode c (.internal l r f) / 2 % 2 ^ 32 = f ∧
      packNode c (.internal l r f) / 2 ^ 33 % 2 ^ 32 = l ∧ packNode c (.internal l r f) / 2 ^ 65 = r) ∧
    (∀ n : TreeNode, n.fits c = true → nodeOfBits c (packNode c n) = .record n) ∧
    (∀ v n, unpackNode c v = some n → n.fits c = true ∧ packNode c n = v) ∧
    ∀ v, v < 2 ^ (65 + max (symBits c) 32) → (nodeOfBits c v).toBits (packNode c) = v

/-- R66, R68, R69: a code-table entry that fits its layout has CWLEN in bits 31:0, SLEN in bits 63:32,
UNITS from bit 64 and codeword bit `j` at bit `64 + SYMBITS + j`, with no bit above its last codeword bit,
and is what a location holds after its bits are written; a pattern that is read as an entry is that entry's
layout; and every pattern of the element's width is read back bit for bit (R45). -/
def Obligations.CodeEntryLayout : Prop :=
  ∀ (c : Params),
    (∀ e : CtEntry, e.fits c = true →
      packCt c e % 2 ^ 32 = e.cw.length ∧ packCt c e / 2 ^ 32 % 2 ^ 32 = e.sym.length ∧
      (∀ j u, e.sym[j]? = some u → packCt c e / 2 ^ (64 + j * c.unitW) % 2 ^ c.unitW = u) ∧
      (∀ j, e.sym.length ≤ j → j < c.symW → packCt c e / 2 ^ (64 + j * c.unitW) % 2 ^ c.unitW = 0) ∧
      (∀ j b, e.cw[j]? = some b → packCt c e / 2 ^ (64 + symBits c + j) % 2 = b.toNat) ∧
      packCt c e < 2 ^ (64 + symBits c + e.cw.length) ∧
      ctOfBits c (packCt c e) = .record e) ∧
    (∀ v e, unpackCt c v = some e → e.fits c = true ∧ packCt c e = v) ∧
    ∀ v, v < 2 ^ (64 + symBits c + cwMax c) → (ctOfBits c v).toBits (packCt c) = v

/-- R48: the byte view of a stream has `cdiv(BITLEN, 8)` bytes, bit index `i` at bit position `7 - i mod 8`
of byte `i div 8`, zeros in the unused positions of the last byte, and with BITLEN gives the stream back. -/
def Obligations.ByteViewOfTheStream : Prop :=
  ∀ bits : List Bool,
    (bytesOfBits bits).length = cdiv bits.length 8 ∧
    (∀ i b, bits[i]? = some b → ∃ B, (bytesOfBits bits)[i / 8]? = some B ∧ B.getLsbD (7 - i % 8) = b) ∧
    (∀ i B, bits.length ≤ i → (bytesOfBits bits)[i / 8]? = some B → B.getLsbD (7 - i % 8) = false) ∧
    bitsOfBytes (bytesOfBits bits) bits.length = bits

/-! ## STATUS -/

/-- R18, R146: the STATUS words by their bits: DONE is bit 1, FAULT bit 2, ERR bits 7:4, BUSY and every
other bit 0; the codes are those of R146. -/
def Obligations.StatusWordsAsLaidOut : Prop :=
  statusOfDone = 0x00000002 ∧ statusOfFault .lookup = 0x00000014 ∧ statusOfFault .trunc = 0x00000024 ∧
    statusOfFault .config = 0x00000034 ∧ statusOfFault .capacity = 0x00000044 ∧
    statusOfFault .badcmd = 0x00000054 ∧ statusOfFault .badstream = 0x00000064

/-- R18, R19, R146: a command ends with DONE, leaving ERRSEG and ERRPOS, or with a fault of those R146 lists
for it, at (0, 0) for `ERR_CONFIG` and `ERR_CAPACITY`. -/
def Obligations.CommandsEndDoneOrInTheirFaults : Prop :=
  ∀ (i : Instr) (s t : State), exec i s = .next t →
    (t.status = statusOfDone ∧ t.errseg = s.errseg ∧ t.errpos = s.errpos) ∨
    ∃ e, t.status = statusOfFault e ∧
      (match i with
        | .nop => False
        | .count | .buildCodes => e = .config ∨ e = .capacity
        | .build | .gen => e = .capacity
        | .encode => e = .config ∨ e = .capacity ∨ e = .lookup
        | .decode => e = .config ∨ e = .capacity ∨ e = .trunc ∨ e = .badstream) ∧
      (e = .config ∨ e = .capacity → t.errseg = 0 ∧ t.errpos = 0)

/-! ## What every command keeps, reads and loses -/

/-- R41, R33: a command changes no register and no location of a window that it is not listed as writing. -/
def Obligations.CommandsKeepWhatTheyDoNotWrite : Prop :=
  ∀ (i : Instr) (s t : State), exec i s = .next t → KeepsUnwritten i s t

/-- R41: two states that agree on what a command is listed as reading give the same end: the same refusal,
or the same STATUS, the same fault position, the same contents of the windows it writes and, if it
completes, the same values of the registers it writes. -/
def Obligations.CommandsReadOnlyTheirOperands : Prop :=
  ∀ (i : Instr) (s s' : State), s'.params = s.params →
    (∀ n ∈ readsReg i, readReg s' n = readReg s n) → (∀ w ∈ readsWin i, SameWindow w s s') →
    (∀ r, exec i s = .refused r → exec i s' = .refused r) ∧
    ∀ t, exec i s = .next t → ∃ t', exec i s' = .next t' ∧ t'.status = t.status ∧
      (statusFault t.status = true → t'.errseg = t.errseg ∧ t'.errpos = t.errpos) ∧
      (t.status ≠ statusOfFault .config → ∀ w ∈ writesWin i, SameWindow w t t') ∧
      (t.status = statusOfDone → ∀ n ∈ writesReg i, n ≠ 8 → n ≠ 9 → readReg t' n = readReg t n)

/-- R151: after a fault of a command other than `ERR_CONFIG` no location of a window the command writes has a
value ("no value" is the model's form of "unspecified", log 4). -/
def Obligations.FaultLeavesOutputsWithoutValue : Prop :=
  ∀ (i : Instr) (s t : State), exec i s = .next t → statusFault t.status = true →
    t.status ≠ statusOfFault .config → ∀ a : WinAddr, a.win ∈ writesWin i → t.element a = none

/-- A command that completed, issued again, leaves the state the first issue left (R180, which the spec derives
from R41). -/
def Obligations.CommandsAreIdempotent : Prop :=
  ∀ (i : Instr) (s t : State), exec i s = .next t → t.status = statusOfDone → exec i t = .next t

/-- R105, R130: GEN and DECODE give the same result whatever the FREQ fields of the trees hold. -/
def Obligations.GenAndDecodeIgnoreFrequencies : Prop :=
  ∀ (s : State) (g : Nat → Nat → Nat) (tree' : Table (Stored TreeNode)),
    tree' = s.tree.map (fun kw => (kw.1, List.map (fun nv => (nv.1, nv.2.map (TreeNode.setFreq (g kw.1 nv.1)))) kw.2)) →
    (∀ t, exec .gen s = .next t → exec .gen { s with tree := tree' } = .next { t with tree := tree' }) ∧
    (∀ t, exec .decode s = .next t → exec .decode { s with tree := tree' } = .next { t with tree := tree' })

/-! ## NOP -/

/-- R74: NOP, the word 0, sets STATUS to `{BUSY 0, DONE 1, FAULT 0, ERR 0}` and changes nothing else. -/
def Obligations.NopOnlySetsDone : Prop :=
  encode .nop = 0x00000000 ∧ ∀ s : State, exec .nop s = .next { s with status := 0x00000002 }

/-! ## The Segmenter -/

/-- R76: `k` is the least number of segments of `p` units that holds the input, segment `i` is the units from
`i * p` on, every segment but the last has exactly `p` units and the last 1 .. p. -/
def Obligations.SegmentsCutTheInput : Prop :=
  ∀ (input : List RawUnit) (p q : Nat), 1 ≤ p → 1 ≤ q →
    input.length ≤ (segments input p q).length * p ∧
    (∀ k, input.length ≤ k * p → (segments input p q).length ≤ k) ∧
    ∀ i ys, (segments input p q)[i]? = some ys →
      ys.flatten = (input.drop (i * p)).take p ∧
      (i + 1 < (segments input p q).length → ys.flatten.length = p) ∧
      1 ≤ ys.flatten.length ∧ ys.flatten.length ≤ p

/-- R77: a segment of `m` units has `cdiv(m, q)` symbols; symbol `j` of a segment is the segment's units from `j * q` on, every symbol but the last has exactly
`q` units and the last 1 .. q. -/
def Obligations.SymbolsCutTheSegment : Prop :=
  ∀ (input : List RawUnit) (p q : Nat), 1 ≤ p → 1 ≤ q →
    ∀ ys ∈ segments input p q, ∀ j y, ys[j]? = some y →
      ys.length = cdiv ys.flatten.length q ∧ y = (ys.flatten.drop (j * q)).take q ∧
      (j + 1 < ys.length → y.length = q) ∧ 1 ≤ y.length ∧ y.length ≤ q

/-- The symbols in order are the input, every segment has a symbol and every symbol a unit (R78, which the spec
derives from R76 and R77). -/
def Obligations.SegmentationCoversTheInputOnce : Prop :=
  ∀ (input : List RawUnit) (p q : Nat), 1 ≤ p → 1 ≤ q →
    (segments input p q).flatten.flatten = input ∧
    ∀ ys ∈ segments input p q, ys ≠ [] ∧ ∀ y ∈ ys, y ≠ []

/-! ## COUNT -/

/-- R80, R82, R84: COUNT completes on a readable input that fits the capacities; NSEG becomes
`cdiv(L, p)` and each segment's table lists its different symbols in order of first occurrence, each with
its number of occurrences; no other location of FT_N and FT has a value (R33; the model's "no value", log 4). -/
def Obligations.CountCompletes : Prop :=
  ∀ (s : State) (input : List RawUnit), CountReady s input →
    ∃ t, CompletesWith .count s t ∧
      t.nseg.toNat = cdiv s.inlen.toNat s.seglen.toNat ∧
      (∀ i ys, (segments input s.seglen.toNat s.charlen.toNat)[i]? = some ys →
        t.freqTable i = some (frequencyTable ys) ∧
        ∀ e, (frequencyTable ys).length ≤ e → t.element (.ft i e) = none) ∧
      ∀ i, t.nseg.toNat ≤ i → t.element (.ftN i) = none ∧ ∀ e, t.element (.ft i e) = none

/-- What COUNT establishes (R84, which the spec derives from R82), for each segment: WF_FT, exactly the occurring symbols, each with its number
of occurrences, their sum `n_s`, and the entries in order of first occurrence. -/
def Obligations.CountEstablishesItsTables : Prop :=
  ∀ (s t : State) (input : List RawUnit), s.input = some input → exec .count s = .next t →
    t.status = statusOfDone → ∀ i < t.nseg.toNat, ∃ ys T,
      (segments input s.seglen.toNat s.charlen.toNat)[i]? = some ys ∧ t.freqTable i = some T ∧
      wfFt t.params T = true ∧ (∀ y, y ∈ T.map FtEntry.sym ↔ y ∈ ys) ∧
      (∀ e ∈ T, e.cnt = ys.count e.sym) ∧ totalCount T = ys.length ∧
      T.Pairwise (fun d e => ys.idxOf d.sym < ys.idxOf e.sym)

/-- R157: a zero SEGLEN or CHARLEN ends COUNT, BUILD_CODES, ENCODE and DECODE with `ERR_CONFIG`, changing
only STATUS, ERRSEG and ERRPOS; BUILD and GEN never raise it and do not read SEGLEN or CHARLEN. -/
def Obligations.ZeroLengthsAreConfigFaults : Prop :=
  (∀ s : State, s.seglen = 0 ∨ s.charlen = 0 →
    ∀ i ∈ [Instr.count, .buildCodes, .encode, .decode],
      exec i s = .next { s with status := 0x00000034, errseg := 0, errpos := 0 }) ∧
  ∀ (s t : State), ∀ i ∈ [Instr.build, .gen], exec i s = .next t → t.status ≠ 0x00000034 ∧
    ∀ p q : Word, exec i { s with seglen := p, charlen := q } = .next { t with seglen := p, charlen := q }

/-- R158, the conditions that hold before any work: INLEN, the number of segments, the symbol length, NSEG
and BITLEN above their capacities are `ERR_CAPACITY` of the commands that check them. -/
def Obligations.CapacityChecksBeforeWork : Prop :=
  ∀ s : State,
    (s.params.segCap < s.nseg.toNat → ∀ i ∈ [Instr.build, .gen], FaultsWith i s .capacity 0 0) ∧
    (1 ≤ s.seglen.toNat → 1 ≤ s.charlen.toNat →
      (s.params.inCap < s.inlen.toNat →
        ∀ i ∈ [Instr.count, .buildCodes, .encode], FaultsWith i s .capacity 0 0) ∧
      (s.params.segCap < cdiv s.inlen.toNat s.seglen.toNat →
        ∀ i ∈ [Instr.count, .buildCodes], FaultsWith i s .capacity 0 0) ∧
      (0 < s.inlen.toNat → s.params.symW < min s.charlen.toNat (min s.seglen.toNat s.inlen.toNat) →
        ∀ i ∈ [Instr.count, .buildCodes, .encode], FaultsWith i s .capacity 0 0) ∧
      (s.params.segCap < s.nseg.toNat → ∀ i ∈ [Instr.encode, .decode], FaultsWith i s .capacity 0 0) ∧
      (s.params.bitCap < s.bitlen.toNat → FaultsWith .decode s .capacity 0 0))

/-- R82, R121, R131, R153, R158, the conditions met while working: a segment with more than `SYMCAP` different
symbols ends COUNT and BUILD_CODES; a symbol whose codeword passes `BITCAP`, every symbol up to it having an
entry, ends ENCODE, whatever follows it in the input; and symbols whose units pass `OUTCAP` end DECODE, whatever
bits follow them; each with `ERR_CAPACITY`. -/
def Obligations.CapacityFaultsWhileWorking : Prop :=
  (∀ (s : State) (input : List RawUnit), 1 ≤ s.seglen.toNat → 1 ≤ s.charlen.toNat → s.input = some input →
    (∃ ys ∈ segments input s.seglen.toNat s.charlen.toNat,
      s.params.symCap < (firstOccurrences ys).length) →
    ∀ i ∈ [Instr.count, .buildCodes], FaultsWith i s .capacity 0 0) ∧
  (∀ (s : State) (input : List RawUnit) (tables : Nat → List CtEntry) (segs : List (List Symbol)) (i j : Nat)
    (ys : List Symbol),
    EncodeReady s input tables → segs = segments input s.seglen.toNat s.charlen.toNat →
    segs[i]? = some ys → j < ys.length → i < s.nseg.toNat →
    (∀ i' < i, ∀ z ∈ segs.getD i' [], HasEntry (tables i') z) →
    (∀ z ∈ ys.take (j + 1), HasEntry (tables i) z) →
    s.params.bitCap < (streamOf tables 0 (segs.take i ++ [ys.take (j + 1)])).length →
    FaultsWith .encode s .capacity 0 0) ∧
  ∀ (s : State) (bits : List Bool) (trees : Nat → List TreeNode) (full : List (List CtEntry))
    (es : List CtEntry) (rest : List Bool),
    DecodeReady s bits trees → full.length < s.nseg.toNat → FromTrees trees (full ++ [es]) →
    (∀ i < full.length, (full.getD i []).length = fullCount s) → es.length ≤ fullCount s →
    bits = bitsOf (full ++ [es]) ++ rest → s.params.outCap < (unitsOf (full ++ [es])).length →
    FaultsWith .decode s .capacity 0 0

/-! ## BUILD -/

/-- R90, R91: BUILD completes on well-formed tables; each segment's arena is `build_tree` of its table, and
no other location of TREE_N and TREE has a value (R33; log 4). -/
def Obligations.BuildCompletes : Prop :=
  ∀ (s : State) (tables : Nat → List FtEntry), BuildReady s tables →
    ∃ t, CompletesWith .build s t ∧
      (∀ i < s.nseg.toNat, t.arena i = some (buildTree (tables i)) ∧
        ∀ n, (buildTree (tables i)).length ≤ n → t.element (.tree i n) = none) ∧
      ∀ i, s.nseg.toNat ≤ i → t.element (.treeN i) = none ∧ ∀ n, t.element (.tree i n) = none

/-- R93, R95, R96: a table of `n` entries gives a tree of `2n - 1` nodes, node `e` below `n` the Leaf of entry
`e`, the others Internal with both children at lower indices; one entry gives the single Leaf. -/
def Obligations.TreesHaveTheirLeavesFirst : Prop :=
  ∀ T : List FtEntry, T ≠ [] →
    (buildTree T).length = 2 * T.length - 1 ∧
    (∀ (e : Nat) (entry : FtEntry), T[e]? = some entry → (buildTree T)[e]? = some (TreeNode.leaf entry.sym entry.cnt)) ∧
    ∀ x, T.length ≤ x → x < 2 * T.length - 1 →
      ∃ l r f, (buildTree T)[x]? = some (.internal l r f) ∧ l < x ∧ r < x ∧ l ≠ r

/-- R92, R94: merge `m` makes node `n + m` from the two lowest of the nodes that wait, by FREQ and then by
index: the lowest is RIGHT, the next lowest LEFT, FREQ is their sum, and the LEFT is not less frequent. -/
def Obligations.MergesTakeTheTwoLowest : Prop :=
  ∀ (T : List FtEntry) (m : Nat), m + 1 < T.length →
    ∃ a b, (buildTree T)[T.length + m]? =
        some (.internal b a (freqAt (buildTree T) a + freqAt (buildTree T) b)) ∧
      a ≠ b ∧ Waiting (buildTree T) T.length m a ∧ Waiting (buildTree T) T.length m b ∧
      freqAt (buildTree T) a ≤ freqAt (buildTree T) b ∧
      (∀ x, Waiting (buildTree T) T.length m x → x ≠ a →
        freqAt (buildTree T) a < freqAt (buildTree T) x ∨
          (freqAt (buildTree T) a = freqAt (buildTree T) x ∧ a < x)) ∧
      ∀ x, Waiting (buildTree T) T.length m x → x ≠ a → x ≠ b →
        freqAt (buildTree T) b < freqAt (buildTree T) x ∨
          (freqAt (buildTree T) b = freqAt (buildTree T) x ∧ b < x)

/-- What BUILD establishes (R97, which the spec derives from R93 and R94), for each segment: WF_TREE and WF_FREQ, node `e` the Leaf of entry `e` and no
other Leaf, and the root's FREQ the sum of all CNT. -/
def Obligations.BuildEstablishesItsTrees : Prop :=
  ∀ s t : State, exec .build s = .next t → t.status = statusOfDone →
    ∀ i < s.nseg.toNat, ∃ T ns, s.freqTable i = some T ∧ t.arena i = some ns ∧
      wfTree t.params ns = true ∧ wfFreq ns = true ∧
      (∀ (e : Nat) (entry : FtEntry), T[e]? = some entry → ns[e]? = some (TreeNode.leaf entry.sym entry.cnt)) ∧
      leafSymbols ns = T.map FtEntry.sym ∧
      freqAt ns (ns.length - 1) = totalCount T

/-- R98, PR4: for the counts of a well-formed table no prefix-free code with codewords of at least one bit
has a smaller sum of count times codeword length than the code of the tree BUILD makes. -/
def Obligations.BuiltCodesAreOptimal : Prop :=
  ∀ (c : Params) (T : List FtEntry) (code : List (List Bool)), wfFt c T = true →
    code.length = T.length → (∀ w ∈ code, w ≠ []) →
    (∀ (i j : Nat) (v w : List Bool), i ≠ j → code[i]? = some v → code[j]? = some w → ¬ v <+: w) →
    (T.map fun e => e.cnt * (codewordOf (genTable (buildTree T)) e.sym).length).sum ≤
      (List.zipWith (fun e w => e.cnt * w.length) T code).sum

/-- R113: in the code of a tree BUILD makes, a symbol with a strictly greater count has a codeword that is
not longer. -/
def Obligations.MoreFrequentIsNotLonger : Prop :=
  ∀ (c : Params) (T : List FtEntry), wfFt c T = true → ∀ d ∈ T, ∀ e ∈ T, e.cnt < d.cnt →
    (codewordOf (genTable (buildTree T)) d.sym).length ≤ (codewordOf (genTable (buildTree T)) e.sym).length

/-! ## GEN -/

/-- R105, R106: GEN completes on well-formed trees; each segment's code table is `gen_table` of its arena,
and no other location of CT_N and CT has a value (R33; log 4). -/
def Obligations.GenCompletes : Prop :=
  ∀ (s : State) (trees : Nat → List TreeNode), TreesReady s trees →
    ∃ t, CompletesWith .gen s t ∧
      (∀ i < s.nseg.toNat, t.codeTable i = some (genTable (trees i)) ∧
        ∀ e, (genTable (trees i)).length ≤ e → t.element (.ct i e) = none) ∧
      ∀ i, s.nseg.toNat ≤ i → t.element (.ctN i) = none ∧ ∀ e, t.element (.ct i e) = none

/-- R107, R108: after GEN, the entries of a segment whose root is Internal are exactly the leaves' symbols with
the child choices on the path from the root, first choice first, 0 for left and 1 for right; the table of a
single-leaf tree is the one entry with the one-bit codeword "0". -/
def Obligations.CodewordsArePathsFromTheRoot : Prop :=
  ∀ (s t : State) (i : Nat) (ns : List TreeNode) (T : List CtEntry), Generated s t i ns T →
    (∀ l r f, ns.getLast? = some (TreeNode.internal l r f) →
      ∀ y cw, (⟨y, cw⟩ : CtEntry) ∈ T ↔
        ∃ x f, follow ns (ns.length - 1) cw = some x ∧ ns[x]? = some (TreeNode.leaf y f)) ∧
    ∀ y f, ns.getLast? = some (TreeNode.leaf y f) → T = [⟨y, [false]⟩]

/-- R109: after GEN, the entries stand in the order of their codewords read as binary fractions: of two entries,
the earlier has 0 and the later 1 at the first place where they differ. -/
def Obligations.CodeTableStandsInTraversalOrder : Prop :=
  ∀ (s t : State) (i : Nat) (ns : List TreeNode) (T : List CtEntry), Generated s t i ns T →
    T.Pairwise fun (d e : CtEntry) => ∃ u v w, d.cw = u ++ false :: v ∧ e.cw = u ++ true :: w

/-- What GEN establishes (R110, which the spec derives from R106 and R25), for each segment: WF_CT, one entry for each leaf of the tree, `(N + 1) / 2` of
them, and exactly the leaves' symbols, each once. -/
def Obligations.GenEstablishesItsTables : Prop :=
  ∀ s t : State, exec .gen s = .next t → t.status = statusOfDone →
    ∀ i < s.nseg.toNat, ∃ ns T, s.arena i = some ns ∧ t.codeTable i = some T ∧
      wfCt t.params T = true ∧ T.length = (ns.length + 1) / 2 ∧
      (T.map CtEntry.sym).Perm (leafSymbols ns)

/-- Codeword lengths (R111, which the spec derives from R107, R108 and R98): 1 for a single-leaf tree, else 1 .. (N - 1) / 2, at most `CWMAX`. -/
def Obligations.CodewordLengthsAreBounded : Prop :=
  ∀ (c : Params) (ns : List TreeNode), wfTree c ns = true → ∀ e ∈ genTable ns,
    1 ≤ e.cw.length ∧ e.cw.length ≤ cwMax c ∧
    (ns.length = 1 → e.cw.length = 1) ∧ (1 < ns.length → e.cw.length ≤ (ns.length - 1) / 2)

/-- R112: within a code table GEN left, no codeword is a prefix of another entry's codeword, and no two are
equal. -/
def Obligations.CodeTablesArePrefixFree : Prop :=
  ∀ (s t : State) (i : Nat) (ns : List TreeNode) (T : List CtEntry), Generated s t i ns T →
    ∀ (j k : Nat) (d e : CtEntry), j ≠ k → T[j]? = some d → T[k]? = some e → ¬ d.cw <+: e.cw

/-! ## BUILD_CODES -/

/-- R114: where the input is readable and fits the capacities, BUILD_CODES completes, and its end state is
that of COUNT, BUILD and GEN issued one after another, all three completing. -/
def Obligations.BuildCodesIsCountBuildGen : Prop :=
  ∀ (s : State) (input : List RawUnit), CountReady s input →
    ∃ t u v, exec .count s = .next t ∧ t.status = statusOfDone ∧ exec .build t = .next u ∧
      u.status = statusOfDone ∧ exec .gen u = .next v ∧ CompletesWith .buildCodes s v

/-- R114, R153: a fault of COUNT ends BUILD_CODES with that fault, at the same position. -/
def Obligations.BuildCodesFaultsAsCount : Prop :=
  ∀ s t : State, exec .count s = .next t → statusFault t.status = true →
    ∃ u, exec .buildCodes s = .next u ∧ u.status = t.status ∧ u.errseg = t.errseg ∧ u.errpos = t.errpos

/-! ## ENCODE -/

/-- R121, R126: ENCODE completes where every segment has a table, every symbol an entry in its own segment's
table, and the stream fits BITCAP: BITMEM[0:BITLEN] is the concatenation of the codewords in input order,
and no bit at or above BITLEN has a value (R33; log 4). -/
def Obligations.EncodeCompletes : Prop :=
  ∀ (s : State) (input : List RawUnit) (tables : Nat → List CtEntry) (segs : List (List Symbol)),
    s.params.wf = true → EncodeReady s input tables →
    segs = segments input s.seglen.toNat s.charlen.toNat → segs.length ≤ s.nseg.toNat →
    (∀ i < segs.length, ∀ y ∈ segs.getD i [], HasEntry (tables i) y) →
    (streamOf tables 0 segs).length ≤ s.params.bitCap →
    ∃ t, CompletesWith .encode s t ∧ t.bitlen.toNat = (streamOf tables 0 segs).length ∧
      t.stream = some (streamOf tables 0 segs) ∧
      ∀ b, t.bitlen.toNat ≤ b → t.element (.bitmem b) = none

/-- R123, R124: the first symbol occurrence without an entry in its segment's table, or in a segment at or
above NSEG, ends ENCODE with `ERR_LOOKUP` at its segment and symbol index. -/
def Obligations.EncodeLookupFault : Prop :=
  ∀ (s : State) (input : List RawUnit) (tables : Nat → List CtEntry) (segs : List (List Symbol))
    (i j : Nat) (ys : List Symbol) (y : Symbol),
    EncodeReady s input tables → segs = segments input s.seglen.toNat s.charlen.toNat →
    segs[i]? = some ys → ys[j]? = some y →
    ((s.nseg.toNat ≤ i ∧ j = 0) ∨ (i < s.nseg.toNat ∧ ¬ HasEntry (tables i) y)) →
    (∀ i' < i, i' < s.nseg.toNat ∧ ∀ z ∈ segs.getD i' [], HasEntry (tables i') z) →
    (∀ z ∈ ys.take j, HasEntry (tables i) z) →
    (streamOf tables 0 (segs.take i ++ [ys.take j])).length ≤ s.params.bitCap →
    FaultsWith .encode s .lookup i j

/-! ## DECODE -/

/-- R131, R133, R135, R136, R139: on a stream that is the codewords of `cap` symbols for every segment but the
last and of 1 .. cap symbols for the last, each from its own segment's tree, DECODE completes and
OMEM[0:OUTLEN] is the units of those symbols in order; no unit at or above OUTLEN has a value (R33; log 4). -/
def Obligations.DecodeCompletes : Prop :=
  ∀ (s : State) (bits : List Bool) (trees : Nat → List TreeNode) (segs : List (List CtEntry)),
    s.params.wf = true → DecodeReady s bits trees → segs.length = s.nseg.toNat → FromTrees trees segs →
    (∀ i < segs.length, (i + 1 < segs.length → (segs.getD i []).length = fullCount s) ∧
      1 ≤ (segs.getD i []).length ∧ (segs.getD i []).length ≤ fullCount s) →
    bits = bitsOf segs → (unitsOf segs).length ≤ s.params.outCap →
    ∃ t, CompletesWith .decode s t ∧ t.outlen.toNat = (unitsOf segs).length ∧
      t.output = some (unitsOf segs) ∧ ∀ i, t.outlen.toNat ≤ i → t.element (.omem i) = none

/-- R137: where the bits end when DECODE needs one (inside a codeword, before a segment that is not the last
has its `cap` symbols, or before a segment has any), it ends with `ERR_TRUNC` at the segment and the
number of symbols already emitted for it. -/
def Obligations.DecodeTruncationFault : Prop :=
  ∀ (s : State) (bits : List Bool) (trees : Nat → List TreeNode) (full : List (List CtEntry))
    (es : List CtEntry) (e : CtEntry) (u : List Bool),
    DecodeReady s bits trees → full.length < s.nseg.toNat → FromTrees trees (full ++ [es]) →
    (∀ i < full.length, (full.getD i []).length = fullCount s) → es.length < fullCount s →
    e ∈ genTable (trees full.length) → u <+: e.cw → u ≠ e.cw →
    (full.length + 1 = s.nseg.toNat → u = [] → es = []) →
    bits = bitsOf (full ++ [es]) ++ u → (unitsOf (full ++ [es])).length ≤ s.params.outCap →
    FaultsWith .decode s .trunc full.length es.length

/-- R136: a `1` bit where a symbol of a single-leaf segment is due ends DECODE with `ERR_BADSTREAM` at the
segment and the number of symbols already emitted for it. -/
def Obligations.DecodeSingleLeafBitFault : Prop :=
  ∀ (s : State) (bits : List Bool) (trees : Nat → List TreeNode) (full : List (List CtEntry))
    (es : List CtEntry) (rest : List Bool),
    DecodeReady s bits trees → full.length < s.nseg.toNat → FromTrees trees (full ++ [es]) →
    (∀ i < full.length, (full.getD i []).length = fullCount s) → es.length < fullCount s →
    (trees full.length).length = 1 → bits = bitsOf (full ++ [es]) ++ true :: rest →
    (unitsOf (full ++ [es])).length ≤ s.params.outCap →
    FaultsWith .decode s .badstream full.length es.length

/-- R138: bits left over when every segment, the last too, has its `cap` symbols (or when NSEG = 0) end DECODE
with `ERR_BADSTREAM(NSEG, 0)`. -/
def Obligations.DecodeTrailingBitsFault : Prop :=
  ∀ (s : State) (bits : List Bool) (trees : Nat → List TreeNode) (segs : List (List CtEntry))
    (rest : List Bool),
    DecodeReady s bits trees → segs.length = s.nseg.toNat → FromTrees trees segs →
    (∀ i < segs.length, (segs.getD i []).length = fullCount s) → rest ≠ [] → bits = bitsOf segs ++ rest →
    (unitsOf segs).length ≤ s.params.outCap →
    FaultsWith .decode s .badstream s.nseg.toNat 0

/-- The round trip (R141, which the spec derives; PR1): the host's three command writes BUILD_CODES, ENCODE and
DECODE, on an input that fits the capacities and with no write between them, complete, and the decoded output
is the input.  The last hypothesis says that the stream fits BITCAP. -/
def Obligations.RoundTrip : Prop :=
  ∀ (s : State) (input : List RawUnit) (rest : List HostTxn), s.params.wf = true → CountReady s input →
    s.inlen.toNat ≤ s.params.outCap → statusBusy s.status = false → statusFault s.status = false →
    s.script = scriptCmd .buildCodes ++ scriptCmd .encode ++ scriptCmd .decode ++ rest →
    (∀ t u, step s = .next t → step t = .next u → u.status ≠ statusOfFault .capacity) →
    ∃ t u v, step s = .next t ∧ step t = .next u ∧ step u = .next v ∧
      v.status = statusOfDone ∧ v.outlen = s.inlen ∧ v.output = some input ∧ v.input = some input

/-! ## Operands without a meaning -/

/-- 93 U1, U4, R155, R171: a command is refused only where an operand it reads has no value or is not
well-formed; NOP never is, and BUILD_CODES only for its input. -/
def Obligations.CommandsRefuseOnlyWithoutMeaning : Prop :=
  ∀ (i : Instr) (s : State) (r : Refusal), exec i s = .refused r →
    match i with
    | .nop => False
    | .count | .buildCodes => s.input = none
    | .build => ∃ j < s.nseg.toNat, ∀ T, s.freqTable j = some T → wfFt s.params T = false
    | .gen => ∃ j < s.nseg.toNat, ∀ ns, s.arena j = some ns → wfTree s.params ns = false
    | .encode => s.input = none ∨
        ∃ j < min s.nseg.toNat (cdiv s.inlen.toNat s.seglen.toNat),
          ∀ T, s.codeTable j = some T → wfCt s.params T = false
    | .decode => s.stream = none ∨
        ∃ j < s.nseg.toNat, ∀ ns, s.arena j = some ns → wfTree s.params ns = false

/-- 93 U1, U4, R90, R105, R120, R130: a command whose checks pass is refused where an operand it reads has no
value or is not well-formed; that every location of the operands counts, read before a `raise` or not, is the
model's reading (log 6). -/
def Obligations.CommandsRefuseOperandsWithoutMeaning : Prop :=
  ∀ s : State,
    (s.nseg.toNat ≤ s.params.segCap →
      (∃ j < s.nseg.toNat, ∀ T, s.freqTable j = some T → wfFt s.params T = false) →
      ∃ r, exec .build s = .refused r) ∧
    (s.nseg.toNat ≤ s.params.segCap →
      (∃ j < s.nseg.toNat, ∀ ns, s.arena j = some ns → wfTree s.params ns = false) →
      ∃ r, exec .gen s = .refused r) ∧
    (countChecks s = .ok () → s.input = none →
      ∀ i ∈ [Instr.count, .buildCodes], ∃ r, exec i s = .refused r) ∧
    (encodeChecks s = .ok () →
      (s.input = none ∨ ∃ j < min s.nseg.toNat (cdiv s.inlen.toNat s.seglen.toNat),
        ∀ T, s.codeTable j = some T → wfCt s.params T = false) →
      ∃ r, exec .encode s = .refused r) ∧
    (decodeChecks s = .ok () →
      (s.stream = none ∨ ∃ j < s.nseg.toNat, ∀ ns, s.arena j = some ns → wfTree s.params ns = false) →
      ∃ r, exec .decode s = .refused r)

/-! ## The host port -/

/-- R11: a step whose transaction writes to CMD, idle and without a fault, a word that decodes to a command
runs that command on the state with the transaction taken off the script (the script is the model's own
form of the host, log 5). -/
def Obligations.StepRunsTheDecodedCommand : Prop :=
  ∀ (s : State) (w : Word) (rest : List HostTxn) (i : Instr), Issues s (.wrreg 0 w) rest →
    statusFault s.status = false → decode w = .ok i → step s = exec i { s with script := rest }

/-- R63, R156: a word with OP in 7 .. 15 or a bit above bit 3 set encodes no command; written to CMD, idle and
without a fault, it ends at once with `ERR_BADCMD` and changes nothing but STATUS, ERRSEG and ERRPOS, both
0. -/
def Obligations.ReservedWordIsBadCommand : Prop :=
  ∀ (s : State) (w : Word) (rest : List HostTxn), Issues s (.wrreg 0 w) rest →
    statusFault s.status = false → 7 ≤ w.toNat % 16 ∨ 16 ≤ w.toNat →
    (∀ i, decode w ≠ .ok i) ∧
      step s = .next { s with script := rest, status := 0x00000054, errseg := 0, errpos := 0 }

/-- R152: while FAULT = 1 a write to CMD is ignored: nothing changes. -/
def Obligations.FaultedCoreIgnoresCommands : Prop :=
  ∀ (s : State) (w : Word) (rest : List HostTxn), Issues s (.wrreg 0 w) rest →
    statusFault s.status = true → step s = .next { s with script := rest }

/-- R152: no step but the reset event changes STATUS, ERRSEG or ERRPOS of a faulted core. -/
def Obligations.OnlyResetClearsAFault : Prop :=
  ∀ s t : State, step s = .next t → statusFault s.status = true → s.script.head? ≠ some .reset →
    t.status = s.status ∧ t.errseg = s.errseg ∧ t.errpos = s.errpos

/-- R170: the reset event, in every state, leaves every register 0 and no location of any window a value. -/
def Obligations.ResetEventClearsAll : Prop :=
  ∀ (s : State) (rest : List HostTxn), s.script = .reset :: rest →
    ∃ t, step s = .next t ∧ (∀ n ≤ 15, readReg t n = some 0) ∧ (∀ a, t.element a = none) ∧
      t.params = s.params ∧ t.script = rest ∧ t.reads = s.reads

/-- R44: `RDREG n` reads the register of R10, CMD and registers 10 to 15 as 0, and has no other effect;
`WRREG n` writes SEGLEN, CHARLEN, INLEN, NSEG and BITLEN, is ignored for STATUS, OUTLEN, ERRSEG, ERRPOS and
the reserved registers, and has no other effect (CMD, register 0, has statements of its own). -/
def Obligations.RegisterTransactions : Prop :=
  (∀ (s : State) (n : Nat) (rest : List HostTxn), Issues s (.rdreg n) rest → n ≤ 15 →
    step s = .next { s with script := rest, reads := .reg ([0, s.status, s.seglen, s.charlen, s.inlen, s.nseg,
      s.bitlen, s.outlen, s.errseg, s.errpos].getD n 0) :: s.reads }) ∧
  ∀ (s : State) (n : Nat) (v : Word) (rest : List HostTxn), Issues s (.wrreg n v) rest → 1 ≤ n → n ≤ 15 →
    ∃ t, step s = .next t ∧ t.script = rest ∧ t.reads = s.reads ∧ t.params = s.params ∧ t.draws = s.draws ∧
      (∀ a, t.element a = s.element a) ∧
      ∀ m, readReg t m = if m = n ∧ n ∈ [2, 3, 4, 5, 6] then some v else readReg s m

/-- R45, R49: `RDMEM` of a location in its window returns the value there and has no other effect; of a
location without a value it returns some value of the kind and the width of that window's elements (93 U1).
`WRMEM` of a location in a window other than OMEM puts the value there, whatever value it is, and changes no
other location and no register; OMEM is not written.  A value wider than its element is the model's to cut (log 8). -/
def Obligations.MemoryTransactions : Prop :=
  (∀ (s : State) (a : WinAddr) (rest : List HostTxn), Issues s (.rdmem a) rest →
    a.inWindow s.params = true →
    (∀ v, s.element a = some v → step s = .next { s with script := rest, reads := v :: s.reads }) ∧
    (s.element a = none →
      ∃ v : HostRead, v.IsElementOf s.params a ∧
        step s = .next { s with script := rest, reads := v :: s.reads, draws := s.draws + 1 })) ∧
  ∀ (s : State) (w : WinWrite) (rest : List HostTxn), Issues s (.wrmem w) rest →
    w.addr.inWindow s.params = true →
    (w.addr.win = .omem → step s = .next { s with script := rest }) ∧
    (w.addr.win ≠ .omem →
      ∃ t, step s = .next t ∧ t.element w.addr = some (w.value s.params) ∧
        (∀ a, a ≠ w.addr → t.element a = s.element a) ∧
        (∀ n, readReg t n = readReg s n) ∧ t.script = rest ∧ t.reads = s.reads ∧ t.params = s.params ∧
        t.draws = s.draws)

/-- R46: a transaction with an index outside its window or a register number above 15 is refused, whatever
the state; with BUSY = 0 the refusal says why. -/
def Obligations.OutsideTheWindowIsRefused : Prop :=
  ∀ (s : State) (x : HostTxn) (rest : List HostTxn), s.script = x :: rest →
    (match x with
      | .rdreg n => 15 < n
      | .wrreg n _ => 15 < n
      | .rdmem a => a.inWindow s.params = false
      | .wrmem w => w.addr.inWindow s.params = false
      | .reset => False) →
    ∃ r, step s = .refused r ∧ (statusBusy s.status = false → r = .outsideWindow)

/-- R176: while BUSY = 1 every transaction but RDREG STATUS and RESET is refused, and RDREG STATUS reads
STATUS. -/
def Obligations.BusyCoreAdmitsOnlyStatusAndReset : Prop :=
  ∀ (s : State) (x : HostTxn) (rest : List HostTxn), s.script = x :: rest → statusBusy s.status = true →
    (x ≠ .rdreg 1 → x ≠ .reset → step s = .refused .busyAccess) ∧
    (x = .rdreg 1 → step s = .next { s with script := rest, reads := .reg s.status :: s.reads }) ∧
    (x = .reset → ∃ t, step s = .next t)

/-! ## Reset and the invariants -/

/-- R175, R170: from the reset state, for every choice of the parameters, NOP, BUILD and GEN end with DONE and
change nothing else; COUNT, BUILD_CODES, ENCODE and DECODE end with `ERR_CONFIG`. -/
def Obligations.CommandsStraightAfterReset : Prop :=
  ∀ (c : Params) (s : State), s = { State.reset with params := c } →
    (∀ i ∈ [Instr.nop, .build, .gen], exec i s = .next { s with status := 0x00000002 }) ∧
    ∀ i ∈ [Instr.count, .buildCodes, .encode, .decode], exec i s = .next { s with status := 0x00000034 }

/-- R170, R10: the reset state: every register reads 0, no location of a window has a value, and the state
meets the invariants below.  That the parameters meet R6 is about the model's own choice of them (log 1). -/
def Obligations.ResetStateMeetsTheInvariants : Prop :=
  (∀ n ≤ 15, readReg State.reset n = some 0) ∧ (∀ a, State.reset.element a = none) ∧
    Memory.wf State.reset = true ∧ StatusLegal State.reset.status ∧ Memory.inWindows State.reset ∧
    Memory.fits State.reset ∧ State.reset.params.wf = true

/-- Every step keeps the canonical form of the nine windows (indices strictly rising, no empty segment listed),
which is the model's own choice (log 10). -/
def Obligations.StepsKeepMemoryCanonical : Prop :=
  ∀ s t : State, Memory.wf s = true → step s = .next t → Memory.wf t = true

/-- R18: every step keeps STATUS a legal word: 0, DONE, or FAULT with a code of R146, BUSY and the reserved
bits 0. -/
def Obligations.StepsKeepStatusLegal : Prop :=
  ∀ s t : State, StatusLegal s.status → step s = .next t → StatusLegal t.status

/-- R10, R158: every step keeps every location that holds a value inside its window: the capacity checks
guard every write. -/
def Obligations.StepsKeepLocationsInWindows : Prop :=
  ∀ s t : State, Memory.inWindows s → step s = .next t → Memory.inWindows t

/-- R9: every step keeps every stored value inside its field: no unit, count, frequency, node index, symbol or
codeword outgrows its record. -/
def Obligations.StepsKeepValuesInFields : Prop :=
  ∀ s t : State, s.params.wf = true → Memory.fits s → step s = .next t → Memory.fits t
end

