-- ==== Sys2Proof/Laws/State.lean ====
section
/-! SUPPORT. One lemma for each field of State after each named update of it, true by definition. -/

namespace Sys2Proof.Machine

variable (s : State)

/-! ## State.complete -/

@[simp] theorem State.complete_status : s.complete.status = statusOfDone := rfl
@[simp] theorem State.complete_seglen : s.complete.seglen = s.seglen := rfl
@[simp] theorem State.complete_charlen : s.complete.charlen = s.charlen := rfl
@[simp] theorem State.complete_inlen : s.complete.inlen = s.inlen := rfl
@[simp] theorem State.complete_nseg : s.complete.nseg = s.nseg := rfl
@[simp] theorem State.complete_bitlen : s.complete.bitlen = s.bitlen := rfl
@[simp] theorem State.complete_outlen : s.complete.outlen = s.outlen := rfl
@[simp] theorem State.complete_errseg : s.complete.errseg = s.errseg := rfl
@[simp] theorem State.complete_errpos : s.complete.errpos = s.errpos := rfl
@[simp] theorem State.complete_imem : s.complete.imem = s.imem := rfl
@[simp] theorem State.complete_ftN : s.complete.ftN = s.ftN := rfl
@[simp] theorem State.complete_ft : s.complete.ft = s.ft := rfl
@[simp] theorem State.complete_treeN : s.complete.treeN = s.treeN := rfl
@[simp] theorem State.complete_tree : s.complete.tree = s.tree := rfl
@[simp] theorem State.complete_ctN : s.complete.ctN = s.ctN := rfl
@[simp] theorem State.complete_ct : s.complete.ct = s.ct := rfl
@[simp] theorem State.complete_bitmem : s.complete.bitmem = s.bitmem := rfl
@[simp] theorem State.complete_omem : s.complete.omem = s.omem := rfl
@[simp] theorem State.complete_params : s.complete.params = s.params := rfl
@[simp] theorem State.complete_script : s.complete.script = s.script := rfl
@[simp] theorem State.complete_reads : s.complete.reads = s.reads := rfl
@[simp] theorem State.complete_draws : s.complete.draws = s.draws := rfl

/-! ## State.takeFault -/

@[simp] theorem State.takeFault_status (r : Raise) : (s.takeFault r).status = statusOfFault r.code := rfl
@[simp] theorem State.takeFault_seglen (r : Raise) : (s.takeFault r).seglen = s.seglen := rfl
@[simp] theorem State.takeFault_charlen (r : Raise) : (s.takeFault r).charlen = s.charlen := rfl
@[simp] theorem State.takeFault_inlen (r : Raise) : (s.takeFault r).inlen = s.inlen := rfl
@[simp] theorem State.takeFault_nseg (r : Raise) : (s.takeFault r).nseg = s.nseg := rfl
@[simp] theorem State.takeFault_bitlen (r : Raise) : (s.takeFault r).bitlen = s.bitlen := rfl
@[simp] theorem State.takeFault_outlen (r : Raise) : (s.takeFault r).outlen = s.outlen := rfl
@[simp] theorem State.takeFault_errseg (r : Raise) : (s.takeFault r).errseg = BitVec.ofNat 32 r.seg := rfl
@[simp] theorem State.takeFault_errpos (r : Raise) : (s.takeFault r).errpos = BitVec.ofNat 32 r.pos := rfl
@[simp] theorem State.takeFault_imem (r : Raise) : (s.takeFault r).imem = s.imem := rfl
@[simp] theorem State.takeFault_ftN (r : Raise) : (s.takeFault r).ftN = s.ftN := rfl
@[simp] theorem State.takeFault_ft (r : Raise) : (s.takeFault r).ft = s.ft := rfl
@[simp] theorem State.takeFault_treeN (r : Raise) : (s.takeFault r).treeN = s.treeN := rfl
@[simp] theorem State.takeFault_tree (r : Raise) : (s.takeFault r).tree = s.tree := rfl
@[simp] theorem State.takeFault_ctN (r : Raise) : (s.takeFault r).ctN = s.ctN := rfl
@[simp] theorem State.takeFault_ct (r : Raise) : (s.takeFault r).ct = s.ct := rfl
@[simp] theorem State.takeFault_bitmem (r : Raise) : (s.takeFault r).bitmem = s.bitmem := rfl
@[simp] theorem State.takeFault_omem (r : Raise) : (s.takeFault r).omem = s.omem := rfl
@[simp] theorem State.takeFault_params (r : Raise) : (s.takeFault r).params = s.params := rfl
@[simp] theorem State.takeFault_script (r : Raise) : (s.takeFault r).script = s.script := rfl
@[simp] theorem State.takeFault_reads (r : Raise) : (s.takeFault r).reads = s.reads := rfl
@[simp] theorem State.takeFault_draws (r : Raise) : (s.takeFault r).draws = s.draws := rfl

/-! ## State.resetEvent -/

@[simp] theorem State.resetEvent_status : s.resetEvent.status = 0 := rfl
@[simp] theorem State.resetEvent_seglen : s.resetEvent.seglen = 0 := rfl
@[simp] theorem State.resetEvent_charlen : s.resetEvent.charlen = 0 := rfl
@[simp] theorem State.resetEvent_inlen : s.resetEvent.inlen = 0 := rfl
@[simp] theorem State.resetEvent_nseg : s.resetEvent.nseg = 0 := rfl
@[simp] theorem State.resetEvent_bitlen : s.resetEvent.bitlen = 0 := rfl
@[simp] theorem State.resetEvent_outlen : s.resetEvent.outlen = 0 := rfl
@[simp] theorem State.resetEvent_errseg : s.resetEvent.errseg = 0 := rfl
@[simp] theorem State.resetEvent_errpos : s.resetEvent.errpos = 0 := rfl
@[simp] theorem State.resetEvent_imem : s.resetEvent.imem = [] := rfl
@[simp] theorem State.resetEvent_ftN : s.resetEvent.ftN = [] := rfl
@[simp] theorem State.resetEvent_ft : s.resetEvent.ft = [] := rfl
@[simp] theorem State.resetEvent_treeN : s.resetEvent.treeN = [] := rfl
@[simp] theorem State.resetEvent_tree : s.resetEvent.tree = [] := rfl
@[simp] theorem State.resetEvent_ctN : s.resetEvent.ctN = [] := rfl
@[simp] theorem State.resetEvent_ct : s.resetEvent.ct = [] := rfl
@[simp] theorem State.resetEvent_bitmem : s.resetEvent.bitmem = [] := rfl
@[simp] theorem State.resetEvent_omem : s.resetEvent.omem = [] := rfl
@[simp] theorem State.resetEvent_params : s.resetEvent.params = s.params := rfl
@[simp] theorem State.resetEvent_script : s.resetEvent.script = s.script := rfl
@[simp] theorem State.resetEvent_reads : s.resetEvent.reads = s.reads := rfl
@[simp] theorem State.resetEvent_draws : s.resetEvent.draws = s.draws := rfl

/-! ## State.loseCounts -/

@[simp] theorem State.loseCounts_status : s.loseCounts.status = s.status := rfl
@[simp] theorem State.loseCounts_seglen : s.loseCounts.seglen = s.seglen := rfl
@[simp] theorem State.loseCounts_charlen : s.loseCounts.charlen = s.charlen := rfl
@[simp] theorem State.loseCounts_inlen : s.loseCounts.inlen = s.inlen := rfl
@[simp] theorem State.loseCounts_nseg : s.loseCounts.nseg = Config.freeWord s.draws := rfl
@[simp] theorem State.loseCounts_bitlen : s.loseCounts.bitlen = s.bitlen := rfl
@[simp] theorem State.loseCounts_outlen : s.loseCounts.outlen = s.outlen := rfl
@[simp] theorem State.loseCounts_errseg : s.loseCounts.errseg = s.errseg := rfl
@[simp] theorem State.loseCounts_errpos : s.loseCounts.errpos = s.errpos := rfl
@[simp] theorem State.loseCounts_imem : s.loseCounts.imem = s.imem := rfl
@[simp] theorem State.loseCounts_ftN : s.loseCounts.ftN = [] := rfl
@[simp] theorem State.loseCounts_ft : s.loseCounts.ft = [] := rfl
@[simp] theorem State.loseCounts_treeN : s.loseCounts.treeN = s.treeN := rfl
@[simp] theorem State.loseCounts_tree : s.loseCounts.tree = s.tree := rfl
@[simp] theorem State.loseCounts_ctN : s.loseCounts.ctN = s.ctN := rfl
@[simp] theorem State.loseCounts_ct : s.loseCounts.ct = s.ct := rfl
@[simp] theorem State.loseCounts_bitmem : s.loseCounts.bitmem = s.bitmem := rfl
@[simp] theorem State.loseCounts_omem : s.loseCounts.omem = s.omem := rfl
@[simp] theorem State.loseCounts_params : s.loseCounts.params = s.params := rfl
@[simp] theorem State.loseCounts_script : s.loseCounts.script = s.script := rfl
@[simp] theorem State.loseCounts_reads : s.loseCounts.reads = s.reads := rfl
@[simp] theorem State.loseCounts_draws : s.loseCounts.draws = s.draws + 1 := rfl

/-! ## State.loseTrees -/

@[simp] theorem State.loseTrees_status : s.loseTrees.status = s.status := rfl
@[simp] theorem State.loseTrees_seglen : s.loseTrees.seglen = s.seglen := rfl
@[simp] theorem State.loseTrees_charlen : s.loseTrees.charlen = s.charlen := rfl
@[simp] theorem State.loseTrees_inlen : s.loseTrees.inlen = s.inlen := rfl
@[simp] theorem State.loseTrees_nseg : s.loseTrees.nseg = s.nseg := rfl
@[simp] theorem State.loseTrees_bitlen : s.loseTrees.bitlen = s.bitlen := rfl
@[simp] theorem State.loseTrees_outlen : s.loseTrees.outlen = s.outlen := rfl
@[simp] theorem State.loseTrees_errseg : s.loseTrees.errseg = s.errseg := rfl
@[simp] theorem State.loseTrees_errpos : s.loseTrees.errpos = s.errpos := rfl
@[simp] theorem State.loseTrees_imem : s.loseTrees.imem = s.imem := rfl
@[simp] theorem State.loseTrees_ftN : s.loseTrees.ftN = s.ftN := rfl
@[simp] theorem State.loseTrees_ft : s.loseTrees.ft = s.ft := rfl
@[simp] theorem State.loseTrees_treeN : s.loseTrees.treeN = [] := rfl
@[simp] theorem State.loseTrees_tree : s.loseTrees.tree = [] := rfl
@[simp] theorem State.loseTrees_ctN : s.loseTrees.ctN = s.ctN := rfl
@[simp] theorem State.loseTrees_ct : s.loseTrees.ct = s.ct := rfl
@[simp] theorem State.loseTrees_bitmem : s.loseTrees.bitmem = s.bitmem := rfl
@[simp] theorem State.loseTrees_omem : s.loseTrees.omem = s.omem := rfl
@[simp] theorem State.loseTrees_params : s.loseTrees.params = s.params := rfl
@[simp] theorem State.loseTrees_script : s.loseTrees.script = s.script := rfl
@[simp] theorem State.loseTrees_reads : s.loseTrees.reads = s.reads := rfl
@[simp] theorem State.loseTrees_draws : s.loseTrees.draws = s.draws := rfl

/-! ## State.loseCodes -/

@[simp] theorem State.loseCodes_status : s.loseCodes.status = s.status := rfl
@[simp] theorem State.loseCodes_seglen : s.loseCodes.seglen = s.seglen := rfl
@[simp] theorem State.loseCodes_charlen : s.loseCodes.charlen = s.charlen := rfl
@[simp] theorem State.loseCodes_inlen : s.loseCodes.inlen = s.inlen := rfl
@[simp] theorem State.loseCodes_nseg : s.loseCodes.nseg = s.nseg := rfl
@[simp] theorem State.loseCodes_bitlen : s.loseCodes.bitlen = s.bitlen := rfl
@[simp] theorem State.loseCodes_outlen : s.loseCodes.outlen = s.outlen := rfl
@[simp] theorem State.loseCodes_errseg : s.loseCodes.errseg = s.errseg := rfl
@[simp] theorem State.loseCodes_errpos : s.loseCodes.errpos = s.errpos := rfl
@[simp] theorem State.loseCodes_imem : s.loseCodes.imem = s.imem := rfl
@[simp] theorem State.loseCodes_ftN : s.loseCodes.ftN = s.ftN := rfl
@[simp] theorem State.loseCodes_ft : s.loseCodes.ft = s.ft := rfl
@[simp] theorem State.loseCodes_treeN : s.loseCodes.treeN = s.treeN := rfl
@[simp] theorem State.loseCodes_tree : s.loseCodes.tree = s.tree := rfl
@[simp] theorem State.loseCodes_ctN : s.loseCodes.ctN = [] := rfl
@[simp] theorem State.loseCodes_ct : s.loseCodes.ct = [] := rfl
@[simp] theorem State.loseCodes_bitmem : s.loseCodes.bitmem = s.bitmem := rfl
@[simp] theorem State.loseCodes_omem : s.loseCodes.omem = s.omem := rfl
@[simp] theorem State.loseCodes_params : s.loseCodes.params = s.params := rfl
@[simp] theorem State.loseCodes_script : s.loseCodes.script = s.script := rfl
@[simp] theorem State.loseCodes_reads : s.loseCodes.reads = s.reads := rfl
@[simp] theorem State.loseCodes_draws : s.loseCodes.draws = s.draws := rfl

/-! ## State.loseAllTables -/

@[simp] theorem State.loseAllTables_status : s.loseAllTables.status = s.status := rfl
@[simp] theorem State.loseAllTables_seglen : s.loseAllTables.seglen = s.seglen := rfl
@[simp] theorem State.loseAllTables_charlen : s.loseAllTables.charlen = s.charlen := rfl
@[simp] theorem State.loseAllTables_inlen : s.loseAllTables.inlen = s.inlen := rfl
@[simp] theorem State.loseAllTables_nseg : s.loseAllTables.nseg = Config.freeWord s.draws := rfl
@[simp] theorem State.loseAllTables_bitlen : s.loseAllTables.bitlen = s.bitlen := rfl
@[simp] theorem State.loseAllTables_outlen : s.loseAllTables.outlen = s.outlen := rfl
@[simp] theorem State.loseAllTables_errseg : s.loseAllTables.errseg = s.errseg := rfl
@[simp] theorem State.loseAllTables_errpos : s.loseAllTables.errpos = s.errpos := rfl
@[simp] theorem State.loseAllTables_imem : s.loseAllTables.imem = s.imem := rfl
@[simp] theorem State.loseAllTables_ftN : s.loseAllTables.ftN = [] := rfl
@[simp] theorem State.loseAllTables_ft : s.loseAllTables.ft = [] := rfl
@[simp] theorem State.loseAllTables_treeN : s.loseAllTables.treeN = [] := rfl
@[simp] theorem State.loseAllTables_tree : s.loseAllTables.tree = [] := rfl
@[simp] theorem State.loseAllTables_ctN : s.loseAllTables.ctN = [] := rfl
@[simp] theorem State.loseAllTables_ct : s.loseAllTables.ct = [] := rfl
@[simp] theorem State.loseAllTables_bitmem : s.loseAllTables.bitmem = s.bitmem := rfl
@[simp] theorem State.loseAllTables_omem : s.loseAllTables.omem = s.omem := rfl
@[simp] theorem State.loseAllTables_params : s.loseAllTables.params = s.params := rfl
@[simp] theorem State.loseAllTables_script : s.loseAllTables.script = s.script := rfl
@[simp] theorem State.loseAllTables_reads : s.loseAllTables.reads = s.reads := rfl
@[simp] theorem State.loseAllTables_draws : s.loseAllTables.draws = s.draws + 1 := rfl

/-! ## State.loseStream -/

@[simp] theorem State.loseStream_status : s.loseStream.status = s.status := rfl
@[simp] theorem State.loseStream_seglen : s.loseStream.seglen = s.seglen := rfl
@[simp] theorem State.loseStream_charlen : s.loseStream.charlen = s.charlen := rfl
@[simp] theorem State.loseStream_inlen : s.loseStream.inlen = s.inlen := rfl
@[simp] theorem State.loseStream_nseg : s.loseStream.nseg = s.nseg := rfl
@[simp] theorem State.loseStream_bitlen : s.loseStream.bitlen = Config.freeWord s.draws := rfl
@[simp] theorem State.loseStream_outlen : s.loseStream.outlen = s.outlen := rfl
@[simp] theorem State.loseStream_errseg : s.loseStream.errseg = s.errseg := rfl
@[simp] theorem State.loseStream_errpos : s.loseStream.errpos = s.errpos := rfl
@[simp] theorem State.loseStream_imem : s.loseStream.imem = s.imem := rfl
@[simp] theorem State.loseStream_ftN : s.loseStream.ftN = s.ftN := rfl
@[simp] theorem State.loseStream_ft : s.loseStream.ft = s.ft := rfl
@[simp] theorem State.loseStream_treeN : s.loseStream.treeN = s.treeN := rfl
@[simp] theorem State.loseStream_tree : s.loseStream.tree = s.tree := rfl
@[simp] theorem State.loseStream_ctN : s.loseStream.ctN = s.ctN := rfl
@[simp] theorem State.loseStream_ct : s.loseStream.ct = s.ct := rfl
@[simp] theorem State.loseStream_bitmem : s.loseStream.bitmem = [] := rfl
@[simp] theorem State.loseStream_omem : s.loseStream.omem = s.omem := rfl
@[simp] theorem State.loseStream_params : s.loseStream.params = s.params := rfl
@[simp] theorem State.loseStream_script : s.loseStream.script = s.script := rfl
@[simp] theorem State.loseStream_reads : s.loseStream.reads = s.reads := rfl
@[simp] theorem State.loseStream_draws : s.loseStream.draws = s.draws + 1 := rfl

/-! ## State.loseOutput -/

@[simp] theorem State.loseOutput_status : s.loseOutput.status = s.status := rfl
@[simp] theorem State.loseOutput_seglen : s.loseOutput.seglen = s.seglen := rfl
@[simp] theorem State.loseOutput_charlen : s.loseOutput.charlen = s.charlen := rfl
@[simp] theorem State.loseOutput_inlen : s.loseOutput.inlen = s.inlen := rfl
@[simp] theorem State.loseOutput_nseg : s.loseOutput.nseg = s.nseg := rfl
@[simp] theorem State.loseOutput_bitlen : s.loseOutput.bitlen = s.bitlen := rfl
@[simp] theorem State.loseOutput_outlen : s.loseOutput.outlen = Config.freeWord s.draws := rfl
@[simp] theorem State.loseOutput_errseg : s.loseOutput.errseg = s.errseg := rfl
@[simp] theorem State.loseOutput_errpos : s.loseOutput.errpos = s.errpos := rfl
@[simp] theorem State.loseOutput_imem : s.loseOutput.imem = s.imem := rfl
@[simp] theorem State.loseOutput_ftN : s.loseOutput.ftN = s.ftN := rfl
@[simp] theorem State.loseOutput_ft : s.loseOutput.ft = s.ft := rfl
@[simp] theorem State.loseOutput_treeN : s.loseOutput.treeN = s.treeN := rfl
@[simp] theorem State.loseOutput_tree : s.loseOutput.tree = s.tree := rfl
@[simp] theorem State.loseOutput_ctN : s.loseOutput.ctN = s.ctN := rfl
@[simp] theorem State.loseOutput_ct : s.loseOutput.ct = s.ct := rfl
@[simp] theorem State.loseOutput_bitmem : s.loseOutput.bitmem = s.bitmem := rfl
@[simp] theorem State.loseOutput_omem : s.loseOutput.omem = [] := rfl
@[simp] theorem State.loseOutput_params : s.loseOutput.params = s.params := rfl
@[simp] theorem State.loseOutput_script : s.loseOutput.script = s.script := rfl
@[simp] theorem State.loseOutput_reads : s.loseOutput.reads = s.reads := rfl
@[simp] theorem State.loseOutput_draws : s.loseOutput.draws = s.draws + 1 := rfl

/-! ## State.storeCounts -/

@[simp] theorem State.storeCounts_status (ts : List (List FtEntry)) : (s.storeCounts ts).status = s.status := rfl
@[simp] theorem State.storeCounts_seglen (ts : List (List FtEntry)) : (s.storeCounts ts).seglen = s.seglen := rfl
@[simp] theorem State.storeCounts_charlen (ts : List (List FtEntry)) : (s.storeCounts ts).charlen = s.charlen := rfl
@[simp] theorem State.storeCounts_inlen (ts : List (List FtEntry)) : (s.storeCounts ts).inlen = s.inlen := rfl
@[simp] theorem State.storeCounts_nseg (ts : List (List FtEntry)) : (s.storeCounts ts).nseg = BitVec.ofNat 32 ts.length := rfl
@[simp] theorem State.storeCounts_bitlen (ts : List (List FtEntry)) : (s.storeCounts ts).bitlen = s.bitlen := rfl
@[simp] theorem State.storeCounts_outlen (ts : List (List FtEntry)) : (s.storeCounts ts).outlen = s.outlen := rfl
@[simp] theorem State.storeCounts_errseg (ts : List (List FtEntry)) : (s.storeCounts ts).errseg = s.errseg := rfl
@[simp] theorem State.storeCounts_errpos (ts : List (List FtEntry)) : (s.storeCounts ts).errpos = s.errpos := rfl
@[simp] theorem State.storeCounts_imem (ts : List (List FtEntry)) : (s.storeCounts ts).imem = s.imem := rfl
@[simp] theorem State.storeCounts_ftN (ts : List (List FtEntry)) : (s.storeCounts ts).ftN = Window.ofList (ts.map List.length) := rfl
@[simp] theorem State.storeCounts_ft (ts : List (List FtEntry)) : (s.storeCounts ts).ft = Table.ofRecords ts := rfl
@[simp] theorem State.storeCounts_treeN (ts : List (List FtEntry)) : (s.storeCounts ts).treeN = s.treeN := rfl
@[simp] theorem State.storeCounts_tree (ts : List (List FtEntry)) : (s.storeCounts ts).tree = s.tree := rfl
@[simp] theorem State.storeCounts_ctN (ts : List (List FtEntry)) : (s.storeCounts ts).ctN = s.ctN := rfl
@[simp] theorem State.storeCounts_ct (ts : List (List FtEntry)) : (s.storeCounts ts).ct = s.ct := rfl
@[simp] theorem State.storeCounts_bitmem (ts : List (List FtEntry)) : (s.storeCounts ts).bitmem = s.bitmem := rfl
@[simp] theorem State.storeCounts_omem (ts : List (List FtEntry)) : (s.storeCounts ts).omem = s.omem := rfl
@[simp] theorem State.storeCounts_params (ts : List (List FtEntry)) : (s.storeCounts ts).params = s.params := rfl
@[simp] theorem State.storeCounts_script (ts : List (List FtEntry)) : (s.storeCounts ts).script = s.script := rfl
@[simp] theorem State.storeCounts_reads (ts : List (List FtEntry)) : (s.storeCounts ts).reads = s.reads := rfl
@[simp] theorem State.storeCounts_draws (ts : List (List FtEntry)) : (s.storeCounts ts).draws = s.draws := rfl

/-! ## State.storeTrees -/

@[simp] theorem State.storeTrees_status (ts : List (List TreeNode)) : (s.storeTrees ts).status = s.status := rfl
@[simp] theorem State.storeTrees_seglen (ts : List (List TreeNode)) : (s.storeTrees ts).seglen = s.seglen := rfl
@[simp] theorem State.storeTrees_charlen (ts : List (List TreeNode)) : (s.storeTrees ts).charlen = s.charlen := rfl
@[simp] theorem State.storeTrees_inlen (ts : List (List TreeNode)) : (s.storeTrees ts).inlen = s.inlen := rfl
@[simp] theorem State.storeTrees_nseg (ts : List (List TreeNode)) : (s.storeTrees ts).nseg = s.nseg := rfl
@[simp] theorem State.storeTrees_bitlen (ts : List (List TreeNode)) : (s.storeTrees ts).bitlen = s.bitlen := rfl
@[simp] theorem State.storeTrees_outlen (ts : List (List TreeNode)) : (s.storeTrees ts).outlen = s.outlen := rfl
@[simp] theorem State.storeTrees_errseg (ts : List (List TreeNode)) : (s.storeTrees ts).errseg = s.errseg := rfl
@[simp] theorem State.storeTrees_errpos (ts : List (List TreeNode)) : (s.storeTrees ts).errpos = s.errpos := rfl
@[simp] theorem State.storeTrees_imem (ts : List (List TreeNode)) : (s.storeTrees ts).imem = s.imem := rfl
@[simp] theorem State.storeTrees_ftN (ts : List (List TreeNode)) : (s.storeTrees ts).ftN = s.ftN := rfl
@[simp] theorem State.storeTrees_ft (ts : List (List TreeNode)) : (s.storeTrees ts).ft = s.ft := rfl
@[simp] theorem State.storeTrees_treeN (ts : List (List TreeNode)) : (s.storeTrees ts).treeN = Window.ofList (ts.map List.length) := rfl
@[simp] theorem State.storeTrees_tree (ts : List (List TreeNode)) : (s.storeTrees ts).tree = Table.ofRecords ts := rfl
@[simp] theorem State.storeTrees_ctN (ts : List (List TreeNode)) : (s.storeTrees ts).ctN = s.ctN := rfl
@[simp] theorem State.storeTrees_ct (ts : List (List TreeNode)) : (s.storeTrees ts).ct = s.ct := rfl
@[simp] theorem State.storeTrees_bitmem (ts : List (List TreeNode)) : (s.storeTrees ts).bitmem = s.bitmem := rfl
@[simp] theorem State.storeTrees_omem (ts : List (List TreeNode)) : (s.storeTrees ts).omem = s.omem := rfl
@[simp] theorem State.storeTrees_params (ts : List (List TreeNode)) : (s.storeTrees ts).params = s.params := rfl
@[simp] theorem State.storeTrees_script (ts : List (List TreeNode)) : (s.storeTrees ts).script = s.script := rfl
@[simp] theorem State.storeTrees_reads (ts : List (List TreeNode)) : (s.storeTrees ts).reads = s.reads := rfl
@[simp] theorem State.storeTrees_draws (ts : List (List TreeNode)) : (s.storeTrees ts).draws = s.draws := rfl

/-! ## State.storeCodes -/

@[simp] theorem State.storeCodes_status (ts : List (List CtEntry)) : (s.storeCodes ts).status = s.status := rfl
@[simp] theorem State.storeCodes_seglen (ts : List (List CtEntry)) : (s.storeCodes ts).seglen = s.seglen := rfl
@[simp] theorem State.storeCodes_charlen (ts : List (List CtEntry)) : (s.storeCodes ts).charlen = s.charlen := rfl
@[simp] theorem State.storeCodes_inlen (ts : List (List CtEntry)) : (s.storeCodes ts).inlen = s.inlen := rfl
@[simp] theorem State.storeCodes_nseg (ts : List (List CtEntry)) : (s.storeCodes ts).nseg = s.nseg := rfl
@[simp] theorem State.storeCodes_bitlen (ts : List (List CtEntry)) : (s.storeCodes ts).bitlen = s.bitlen := rfl
@[simp] theorem State.storeCodes_outlen (ts : List (List CtEntry)) : (s.storeCodes ts).outlen = s.outlen := rfl
@[simp] theorem State.storeCodes_errseg (ts : List (List CtEntry)) : (s.storeCodes ts).errseg = s.errseg := rfl
@[simp] theorem State.storeCodes_errpos (ts : List (List CtEntry)) : (s.storeCodes ts).errpos = s.errpos := rfl
@[simp] theorem State.storeCodes_imem (ts : List (List CtEntry)) : (s.storeCodes ts).imem = s.imem := rfl
@[simp] theorem State.storeCodes_ftN (ts : List (List CtEntry)) : (s.storeCodes ts).ftN = s.ftN := rfl
@[simp] theorem State.storeCodes_ft (ts : List (List CtEntry)) : (s.storeCodes ts).ft = s.ft := rfl
@[simp] theorem State.storeCodes_treeN (ts : List (List CtEntry)) : (s.storeCodes ts).treeN = s.treeN := rfl
@[simp] theorem State.storeCodes_tree (ts : List (List CtEntry)) : (s.storeCodes ts).tree = s.tree := rfl
@[simp] theorem State.storeCodes_ctN (ts : List (List CtEntry)) : (s.storeCodes ts).ctN = Window.ofList (ts.map List.length) := rfl
@[simp] theorem State.storeCodes_ct (ts : List (List CtEntry)) : (s.storeCodes ts).ct = Table.ofRecords ts := rfl
@[simp] theorem State.storeCodes_bitmem (ts : List (List CtEntry)) : (s.storeCodes ts).bitmem = s.bitmem := rfl
@[simp] theorem State.storeCodes_omem (ts : List (List CtEntry)) : (s.storeCodes ts).omem = s.omem := rfl
@[simp] theorem State.storeCodes_params (ts : List (List CtEntry)) : (s.storeCodes ts).params = s.params := rfl
@[simp] theorem State.storeCodes_script (ts : List (List CtEntry)) : (s.storeCodes ts).script = s.script := rfl
@[simp] theorem State.storeCodes_reads (ts : List (List CtEntry)) : (s.storeCodes ts).reads = s.reads := rfl
@[simp] theorem State.storeCodes_draws (ts : List (List CtEntry)) : (s.storeCodes ts).draws = s.draws := rfl

/-! ## State.storeStream -/

@[simp] theorem State.storeStream_status (bits : List Bool) : (s.storeStream bits).status = s.status := rfl
@[simp] theorem State.storeStream_seglen (bits : List Bool) : (s.storeStream bits).seglen = s.seglen := rfl
@[simp] theorem State.storeStream_charlen (bits : List Bool) : (s.storeStream bits).charlen = s.charlen := rfl
@[simp] theorem State.storeStream_inlen (bits : List Bool) : (s.storeStream bits).inlen = s.inlen := rfl
@[simp] theorem State.storeStream_nseg (bits : List Bool) : (s.storeStream bits).nseg = s.nseg := rfl
@[simp] theorem State.storeStream_bitlen (bits : List Bool) : (s.storeStream bits).bitlen = BitVec.ofNat 32 bits.length := rfl
@[simp] theorem State.storeStream_outlen (bits : List Bool) : (s.storeStream bits).outlen = s.outlen := rfl
@[simp] theorem State.storeStream_errseg (bits : List Bool) : (s.storeStream bits).errseg = s.errseg := rfl
@[simp] theorem State.storeStream_errpos (bits : List Bool) : (s.storeStream bits).errpos = s.errpos := rfl
@[simp] theorem State.storeStream_imem (bits : List Bool) : (s.storeStream bits).imem = s.imem := rfl
@[simp] theorem State.storeStream_ftN (bits : List Bool) : (s.storeStream bits).ftN = s.ftN := rfl
@[simp] theorem State.storeStream_ft (bits : List Bool) : (s.storeStream bits).ft = s.ft := rfl
@[simp] theorem State.storeStream_treeN (bits : List Bool) : (s.storeStream bits).treeN = s.treeN := rfl
@[simp] theorem State.storeStream_tree (bits : List Bool) : (s.storeStream bits).tree = s.tree := rfl
@[simp] theorem State.storeStream_ctN (bits : List Bool) : (s.storeStream bits).ctN = s.ctN := rfl
@[simp] theorem State.storeStream_ct (bits : List Bool) : (s.storeStream bits).ct = s.ct := rfl
@[simp] theorem State.storeStream_bitmem (bits : List Bool) : (s.storeStream bits).bitmem = Window.ofList bits := rfl
@[simp] theorem State.storeStream_omem (bits : List Bool) : (s.storeStream bits).omem = s.omem := rfl
@[simp] theorem State.storeStream_params (bits : List Bool) : (s.storeStream bits).params = s.params := rfl
@[simp] theorem State.storeStream_script (bits : List Bool) : (s.storeStream bits).script = s.script := rfl
@[simp] theorem State.storeStream_reads (bits : List Bool) : (s.storeStream bits).reads = s.reads := rfl
@[simp] theorem State.storeStream_draws (bits : List Bool) : (s.storeStream bits).draws = s.draws := rfl

/-! ## State.storeOutput -/

@[simp] theorem State.storeOutput_status (out : List RawUnit) : (s.storeOutput out).status = s.status := rfl
@[simp] theorem State.storeOutput_seglen (out : List RawUnit) : (s.storeOutput out).seglen = s.seglen := rfl
@[simp] theorem State.storeOutput_charlen (out : List RawUnit) : (s.storeOutput out).charlen = s.charlen := rfl
@[simp] theorem State.storeOutput_inlen (out : List RawUnit) : (s.storeOutput out).inlen = s.inlen := rfl
@[simp] theorem State.storeOutput_nseg (out : List RawUnit) : (s.storeOutput out).nseg = s.nseg := rfl
@[simp] theorem State.storeOutput_bitlen (out : List RawUnit) : (s.storeOutput out).bitlen = s.bitlen := rfl
@[simp] theorem State.storeOutput_outlen (out : List RawUnit) : (s.storeOutput out).outlen = BitVec.ofNat 32 out.length := rfl
@[simp] theorem State.storeOutput_errseg (out : List RawUnit) : (s.storeOutput out).errseg = s.errseg := rfl
@[simp] theorem State.storeOutput_errpos (out : List RawUnit) : (s.storeOutput out).errpos = s.errpos := rfl
@[simp] theorem State.storeOutput_imem (out : List RawUnit) : (s.storeOutput out).imem = s.imem := rfl
@[simp] theorem State.storeOutput_ftN (out : List RawUnit) : (s.storeOutput out).ftN = s.ftN := rfl
@[simp] theorem State.storeOutput_ft (out : List RawUnit) : (s.storeOutput out).ft = s.ft := rfl
@[simp] theorem State.storeOutput_treeN (out : List RawUnit) : (s.storeOutput out).treeN = s.treeN := rfl
@[simp] theorem State.storeOutput_tree (out : List RawUnit) : (s.storeOutput out).tree = s.tree := rfl
@[simp] theorem State.storeOutput_ctN (out : List RawUnit) : (s.storeOutput out).ctN = s.ctN := rfl
@[simp] theorem State.storeOutput_ct (out : List RawUnit) : (s.storeOutput out).ct = s.ct := rfl
@[simp] theorem State.storeOutput_bitmem (out : List RawUnit) : (s.storeOutput out).bitmem = s.bitmem := rfl
@[simp] theorem State.storeOutput_omem (out : List RawUnit) : (s.storeOutput out).omem = Window.ofList out := rfl
@[simp] theorem State.storeOutput_params (out : List RawUnit) : (s.storeOutput out).params = s.params := rfl
@[simp] theorem State.storeOutput_script (out : List RawUnit) : (s.storeOutput out).script = s.script := rfl
@[simp] theorem State.storeOutput_reads (out : List RawUnit) : (s.storeOutput out).reads = s.reads := rfl
@[simp] theorem State.storeOutput_draws (out : List RawUnit) : (s.storeOutput out).draws = s.draws := rfl

end Sys2Proof.Machine
end

