-- ==== Sys2Proof/Laws/Window.lean ====
section
/-! SUPPORT. The laws of memory windows: reading after writing, and that every operation keeps the
canonical form. -/

namespace Sys2Proof.Machine

variable {α : Type}

@[simp] theorem Window.read_nil (i : Nat) : Window.read ([] : Window α) i = none := rfl

theorem Window.read_cons (k : Nat) (v : α) (w : Window α) (i : Nat) :
    Window.read ((k, v) :: w) i = if k = i then some v else Window.read w i := rfl

/-! ## Reading after writing -/

theorem Window.read_write_same (w : Window α) (i : Nat) (v : α) :
    Window.read (Window.write w i v) i = some v := by
  induction w with
  | nil => simp [Window.write, Window.read]
  | cons kv w ih =>
    obtain ⟨k, u⟩ := kv
    unfold Window.write
    split
    · simp [Window.read]
    · split
      · simp [Window.read]
      · rename_i h₁ h₂
        simp [Window.read, ih, Ne.symm h₂]

theorem Window.read_write_other (w : Window α) {i j : Nat} (v : α) (h : j ≠ i) :
    Window.read (Window.write w i v) j = Window.read w j := by
  induction w with
  | nil => simp [Window.write, Window.read, h.symm]
  | cons kv w ih =>
    obtain ⟨k, u⟩ := kv
    unfold Window.write
    split
    · simp [Window.read, h.symm]
    · split
      · rename_i _ h₂
        subst h₂
        simp [Window.read, h.symm]
      · simp [Window.read, ih]

theorem Window.read_write (w : Window α) (i j : Nat) (v : α) :
    Window.read (Window.write w i v) j = if j = i then some v else Window.read w j := by
  split
  · subst_vars; exact Window.read_write_same w _ v
  · exact Window.read_write_other w v ‹_›

/-! ## The canonical form -/

theorem Window.wfFrom_mono {lo lo' : Nat} {w : Window α} (h : Window.wfFrom lo w = true) (le : lo' ≤ lo) :
    Window.wfFrom lo' w = true := by
  cases w with
  | nil => rfl
  | cons kv w =>
    simp only [Window.wfFrom, Bool.and_eq_true, decide_eq_true_eq] at h ⊢
    exact ⟨by omega, h.2⟩

theorem Window.wfFrom_write {lo i : Nat} {w : Window α} (v : α) (h : Window.wfFrom lo w = true) (le : lo ≤ i) :
    Window.wfFrom lo (Window.write w i v) = true := by
  induction w generalizing lo with
  | nil => simp [Window.write, Window.wfFrom, le]
  | cons kv w ih =>
    obtain ⟨k, u⟩ := kv
    simp only [Window.wfFrom, Bool.and_eq_true, decide_eq_true_eq] at h
    unfold Window.write
    split
    · simp only [Window.wfFrom, Bool.and_eq_true, decide_eq_true_eq]
      exact ⟨le, by omega, h.2⟩
    · split
      · subst_vars
        simp only [Window.wfFrom, Bool.and_eq_true, decide_eq_true_eq]
        exact ⟨le, h.2⟩
      · simp only [Window.wfFrom, Bool.and_eq_true, decide_eq_true_eq]
        exact ⟨h.1, ih h.2 (by omega)⟩

theorem Window.wf_nil : Window.wf ([] : Window α) = true := rfl

theorem Window.wf_write {w : Window α} (i : Nat) (v : α) (h : Window.wf w = true) :
    Window.wf (Window.write w i v) = true := Window.wfFrom_write v h (Nat.zero_le i)

theorem Window.wfFrom_ofListFrom (i : Nat) (vs : List α) : Window.wfFrom i (Window.ofListFrom i vs) = true := by
  induction vs generalizing i with
  | nil => rfl
  | cons v vs ih => simp [Window.ofListFrom, Window.wfFrom, ih]

theorem Window.wf_ofList (vs : List α) : Window.wf (Window.ofList vs) = true := Window.wfFrom_ofListFrom 0 vs

theorem Window.read_eq_none_of_wfFrom {lo i : Nat} {w : Window α} (h : Window.wfFrom lo w = true) (lt : i < lo) :
    Window.read w i = none := by
  induction w generalizing lo with
  | nil => rfl
  | cons kv w ih =>
    simp only [Window.wfFrom, Bool.and_eq_true, decide_eq_true_eq] at h
    have : kv.1 ≠ i := by omega
    rw [show kv = (kv.1, kv.2) from rfl, Window.read_cons, if_neg this]
    exact ih h.2 (by omega)

theorem Window.mem_of_read {w : Window α} {i : Nat} {v : α} (h : Window.read w i = some v) : (i, v) ∈ w := by
  induction w with
  | nil => simp at h
  | cons kv w ih =>
    obtain ⟨k, u⟩ := kv
    rw [Window.read_cons] at h
    split at h
    · simp_all
    · exact List.mem_cons_of_mem _ (ih h)

theorem Window.read_of_mem {lo : Nat} {w : Window α} (h : Window.wfFrom lo w = true) {i : Nat} {v : α}
    (m : (i, v) ∈ w) : lo ≤ i ∧ Window.read w i = some v := by
  induction w generalizing lo with
  | nil => simp at m
  | cons kv w ih =>
    obtain ⟨k, u⟩ := kv
    simp only [Window.wfFrom, Bool.and_eq_true, decide_eq_true_eq] at h
    rw [Window.read_cons]
    rcases List.mem_cons.1 m with e | m
    · cases e; exact ⟨h.1, by simp⟩
    · obtain ⟨le, r⟩ := ih h.2 m
      exact ⟨by omega, by rw [if_neg (by omega)]; exact r⟩

theorem Window.eq_of_read_of_wfFrom {lo : Nat} {w w' : Window α} (h : Window.wfFrom lo w = true)
    (h' : Window.wfFrom lo w' = true) (eq : ∀ i, Window.read w i = Window.read w' i) : w = w' := by
  induction w generalizing lo w' with
  | nil =>
    cases w' with
    | nil => rfl
    | cons kv w' => have := eq kv.1; simp [Window.read] at this
  | cons kv w ih =>
    obtain ⟨k, u⟩ := kv
    cases w' with
    | nil => have := eq k; simp [Window.read] at this
    | cons kv' w' =>
      obtain ⟨k', u'⟩ := kv'
      have r := (Window.read_of_mem h (List.mem_cons_self ..)).2
      have r' := (Window.read_of_mem h' (List.mem_cons_self ..)).2
      have m' := Window.mem_of_read ((eq k).symm.trans r)
      have m := Window.mem_of_read ((eq k').trans r')
      simp only [Window.wfFrom, Bool.and_eq_true, decide_eq_true_eq] at h h'
      have hk : k = k' := by
        rcases List.mem_cons.1 m with e | m
        · cases e; rfl
        · have a := (Window.read_of_mem h.2 m).1
          rcases List.mem_cons.1 m' with e | m'
          · cases e; rfl
          · have b := (Window.read_of_mem h'.2 m').1
            omega
      subst hk
      have hu : u = u' := by
        have e := (eq k).symm.trans r
        rw [r'] at e
        exact (Option.some.inj e).symm
      subst hu
      congr 1
      refine ih h.2 h'.2 fun i => ?_
      have e := eq i
      rw [Window.read_cons, Window.read_cons] at e
      by_cases hi : k = i
      · subst hi
        rw [Window.read_eq_none_of_wfFrom h.2 (Nat.lt_succ_self k),
          Window.read_eq_none_of_wfFrom h'.2 (Nat.lt_succ_self k)]
      · simpa [hi] using e

/-- Equal memories are equal data. -/
theorem Window.eq_of_read {w w' : Window α} (h : Window.wf w = true) (h' : Window.wf w' = true)
    (eq : ∀ i, Window.read w i = Window.read w' i) : w = w' := Window.eq_of_read_of_wfFrom h h' eq

/-! ## Windows made from a list -/

theorem Window.read_ofListFrom (b : Nat) (vs : List α) (i : Nat) :
    Window.read (Window.ofListFrom b vs) i = if b ≤ i then vs[i - b]? else none := by
  induction vs generalizing b with
  | nil => simp [Window.ofListFrom]
  | cons v vs ih =>
    simp only [Window.ofListFrom, Window.read_cons, ih]
    by_cases h : b = i
    · subst h; simp
    · by_cases h' : b ≤ i
      · have e : i - b = (i - (b + 1)) + 1 := by omega
        simp [h, h', e, show b + 1 ≤ i by omega]
      · simp [h, h', show ¬ b + 1 ≤ i by omega]

@[simp] theorem Window.read_ofList (vs : List α) (i : Nat) : Window.read (Window.ofList vs) i = vs[i]? := by
  simp [Window.ofList, Window.read_ofListFrom]

/-- `M[i : i + n]` is a list exactly where every location of the range holds the list's element. -/
theorem Window.readFrom_eq_some {w : Window α} {i n : Nat} {vs : List α} :
    Window.readFrom w i n = some vs ↔ vs.length = n ∧ ∀ j < n, Window.read w (i + j) = vs[j]? := by
  induction n generalizing i vs with
  | zero => simp [Window.readFrom, eq_comm]
  | succ n ih =>
    unfold Window.readFrom
    cases hr : Window.read w i with
    | none =>
      simp only [reduceCtorEq, false_iff, not_and]
      intro hl hall
      have := hall 0 (Nat.succ_pos n)
      rw [Nat.add_zero, hr] at this
      cases vs with
      | nil => simp at hl
      | cons v vs => simp at this
    | some v =>
      simp only [Option.map_eq_some_iff, ih]
      constructor
      · rintro ⟨us, ⟨hl, hall⟩, rfl⟩
        refine ⟨by simp [hl], fun j hj => ?_⟩
        cases j with
        | zero => simpa using hr
        | succ j =>
          have := hall j (by omega)
          simpa [Nat.add_assoc, Nat.add_comm 1 j] using this
      · rintro ⟨hl, hall⟩
        cases vs with
        | nil => simp at hl
        | cons u us =>
          have h0 := hall 0 (Nat.succ_pos n)
          rw [Nat.add_zero, hr] at h0
          simp at h0
          refine ⟨us, ⟨by simpa using hl, fun j hj => ?_⟩, by rw [h0]⟩
          have := hall (j + 1) (by omega)
          simpa [Nat.add_assoc, Nat.add_comm 1 j] using this

@[simp] theorem Window.readFrom_ofList (vs : List α) :
    Window.readFrom (Window.ofList vs) 0 vs.length = some vs := by
  rw [Window.readFrom_eq_some]
  exact ⟨rfl, fun j _ => by simp⟩

/-! ## Bounds -/

theorem Window.below_eq_true {cap : Nat} {w : Window α} :
    Window.below cap w = true ↔ ∀ kv ∈ w, kv.1 < cap := by
  simp [Window.below]

theorem Window.mem_write {w : Window α} {i : Nat} {v : α} {kv : Nat × α} (m : kv ∈ Window.write w i v) :
    kv = (i, v) ∨ kv ∈ w := by
  induction w with
  | nil => simpa [Window.write] using m
  | cons ku w ih =>
    obtain ⟨k, u⟩ := ku
    unfold Window.write at m
    split at m
    · simpa using m
    · split at m
      · rcases List.mem_cons.1 m with e | m
        · exact .inl e
        · exact .inr (List.mem_cons_of_mem _ m)
      · rcases List.mem_cons.1 m with e | m
        · exact .inr (by simp [e])
        · exact (ih m).imp id (List.mem_cons_of_mem _)

theorem Window.write_ne_nil (w : Window α) (i : Nat) (v : α) : Window.write w i v ≠ [] := by
  cases w with
  | nil => simp [Window.write]
  | cons kv w => unfold Window.write; split <;> [skip; split] <;> simp

theorem Window.mem_ofListFrom {b : Nat} {vs : List α} {kv : Nat × α} (m : kv ∈ Window.ofListFrom b vs) :
    b ≤ kv.1 ∧ kv.1 < b + vs.length ∧ kv.2 ∈ vs := by
  induction vs generalizing b with
  | nil => simp [Window.ofListFrom] at m
  | cons v vs ih =>
    rcases List.mem_cons.1 m with e | m
    · subst e; simp
    · obtain ⟨h₁, h₂, h₃⟩ := ih m
      simp only [List.length_cons]
      exact ⟨by omega, by omega, List.mem_cons_of_mem _ h₃⟩

/-! ## Table memories -/

@[simp] theorem Table.seg_nil (s : Nat) : Table.seg ([] : Table α) s = [] := rfl

@[simp] theorem Table.read_nil (s e : Nat) : Table.read ([] : Table α) s e = none := rfl

theorem Table.read_write (t : Table α) (s e s' e' : Nat) (v : α) :
    Table.read (Table.write t s e v) s' e' = if s' = s ∧ e' = e then some v else Table.read t s' e' := by
  unfold Table.read Table.write
  by_cases hs : s' = s
  · subst hs
    simp [Table.seg, Window.read_write]
  · simp [Table.seg, Window.read_write, hs]

theorem Table.wf_nil : Table.wf ([] : Table α) = true := rfl

theorem Table.wf_iff {t : Table α} :
    Table.wf t = true ↔ Window.wf t = true ∧ ∀ kw ∈ t, kw.2 ≠ [] ∧ Window.wf kw.2 = true := by
  simp [Table.wf]

theorem Table.seg_wf {t : Table α} (h : Table.wf t = true) (s : Nat) : Window.wf (Table.seg t s) = true := by
  unfold Table.seg
  cases hr : Window.read t s with
  | none => rfl
  | some w => exact ((Table.wf_iff.1 h).2 _ (Window.mem_of_read hr)).2

theorem Table.wf_write {t : Table α} (s e : Nat) (v : α) (h : Table.wf t = true) :
    Table.wf (Table.write t s e v) = true := by
  rw [Table.wf_iff]
  refine ⟨Window.wf_write s _ (Table.wf_iff.1 h).1, fun kw m => ?_⟩
  rcases Window.mem_write m with rfl | m
  · exact ⟨Window.write_ne_nil _ _ _, Window.wf_write e v (Table.seg_wf h s)⟩
  · exact (Table.wf_iff.1 h).2 kw m

theorem Window.ofList_ne_nil {vs : List α} (h : vs ≠ []) : Window.ofList vs ≠ [] := by
  cases vs with
  | nil => exact absurd rfl h
  | cons v vs => simp [Window.ofList, Window.ofListFrom]

theorem Table.wf_ofLists {ts : List (List α)} (h : ∀ t ∈ ts, t ≠ []) : Table.wf (Table.ofLists ts) = true := by
  rw [Table.wf_iff]
  refine ⟨Window.wf_ofList _, fun kw m => ?_⟩
  obtain ⟨t, ht, e⟩ := List.mem_map.1 (Window.mem_ofListFrom m).2.2
  exact e ▸ ⟨Window.ofList_ne_nil (h t ht), Window.wf_ofList t⟩

@[simp] theorem Table.seg_ofLists (ts : List (List α)) (s : Nat) :
    Table.seg (Table.ofLists ts) s = Window.ofList (ts.getD s []) := by
  simp only [Table.seg, Table.ofLists, Window.read_ofList, List.getElem?_map, List.getD_eq_getElem?_getD]
  cases ts[s]? <;> rfl

@[simp] theorem Table.read_ofLists (ts : List (List α)) (s e : Nat) :
    Table.read (Table.ofLists ts) s e = (ts.getD s [])[e]? := by
  simp [Table.read]

end Sys2Proof.Machine
end

