-- ==== Sys2Proof/Laws/Ops.lean ====
section
/-! SUPPORT. What the shared operations can do: a raise, a refusal, a traversal, the end of a command,
loading a table, and that every update of the windows keeps their canonical form. -/

namespace Sys2Proof.Machine

/-! ## Stops -/

@[simp] theorem raiseIf_true (e : ErrCode) : raiseIf true e = .error (.raise ⟨e, 0, 0⟩) := rfl

@[simp] theorem raiseIf_false (e : ErrCode) : raiseIf false e = .ok () := rfl

theorem raiseIf_eq_ok {c : Bool} {e : ErrCode} {u : Unit} : raiseIf c e = .ok u ↔ c = false := by
  cases c <;> simp

theorem raiseIf_eq_error {c : Bool} {e : ErrCode} {x : Stop} :
    raiseIf c e = .error x ↔ c = true ∧ x = .raise ⟨e, 0, 0⟩ := by
  cases c <;> simp [eq_comm]

@[simp] theorem orRefuse_some {α : Type} (r : Refusal) (a : α) : orRefuse r (some a) = .ok a := rfl

@[simp] theorem orRefuse_none {α : Type} (r : Refusal) : orRefuse r (none : Option α) = .error (.refuse r) := rfl

theorem orRefuse_eq_ok {α : Type} {r : Refusal} {o : Option α} {a : α} : orRefuse r o = .ok a ↔ o = some a := by
  cases o <;> simp

theorem orRefuse_eq_error {α : Type} {r : Refusal} {o : Option α} {x : Stop} :
    orRefuse r o = .error x ↔ o = none ∧ x = .refuse r := by
  cases o <;> simp [eq_comm]

/-- A bind that gives a result had its first part give one. -/
theorem bind_eq_ok {α β : Type} {x : Except Stop α} {f : α → Except Stop β} {b : β} :
    (x >>= f) = .ok b ↔ ∃ a, x = .ok a ∧ f a = .ok b := by
  cases x <;> simp [bind, Except.bind]

/-- A bind that stops stopped in its first part or in its second. -/
theorem bind_eq_error {α β : Type} {x : Except Stop α} {f : α → Except Stop β} {e : Stop} :
    (x >>= f) = .error e ↔ x = .error e ∨ ∃ a, x = .ok a ∧ f a = .error e := by
  cases x <;> simp [bind, Except.bind]

@[simp] theorem pure_eq_ok {α : Type} (a : α) : (pure a : Except Stop α) = .ok a := rfl

@[simp] theorem ok_bind {α β : Type} (a : α) (f : α → Except Stop β) : (Except.ok a >>= f) = f a := rfl

@[simp] theorem error_bind {α β : Type} (e : Stop) (f : α → Except Stop β) :
    ((Except.error e : Except Stop α) >>= f) = .error e := rfl

/-! ## Traversals -/

/-- A traversal gives a list exactly where `f` gives its element at every index. -/
theorem traverse_eq_ok {α β : Type} {f : α → Except Stop β} {as : List α} {bs : List β} :
    traverse f as = .ok bs ↔ List.Forall₂ (fun a b => f a = .ok b) as bs := by
  induction as generalizing bs with
  | nil => cases bs <;> simp [traverse]
  | cons a as ih =>
    simp only [traverse, bind_eq_ok, pure_eq_ok, List.forall₂_cons_left_iff]
    constructor
    · rintro ⟨b, hb, cs, hcs, e⟩
      cases e
      exact ⟨b, cs, hb, ih.1 hcs, rfl⟩
    · rintro ⟨b, cs, hb, hcs, rfl⟩
      exact ⟨b, hb, cs, ih.2 hcs, rfl⟩

/-- A traversal that stops stopped where `f` does. -/
theorem traverse_eq_error {α β : Type} {f : α → Except Stop β} {as : List α} {x : Stop}
    (h : traverse f as = .error x) : ∃ a ∈ as, f a = .error x := by
  induction as with
  | nil => simp [traverse] at h
  | cons a as ih =>
    simp only [traverse, bind_eq_error, pure_eq_ok, reduceCtorEq, and_false, exists_false, or_false] at h
    rcases h with h | ⟨b, _, h⟩
    · exact ⟨a, List.mem_cons_self .., h⟩
    · obtain ⟨a', m, h'⟩ := ih h
      exact ⟨a', List.mem_cons_of_mem _ m, h'⟩

theorem traverse_length {α β : Type} {f : α → Except Stop β} {as : List α} {bs : List β}
    (h : traverse f as = .ok bs) : bs.length = as.length := (traverse_eq_ok.1 h).length_eq.symm

/-- Over the segments `0 .. k - 1`: one result for each, in order. -/
theorem traverse_range_eq_ok {β : Type} {f : Nat → Except Stop β} {k : Nat} {bs : List β} :
    traverse f (List.range k) = .ok bs ↔ bs.length = k ∧ ∀ i (h : i < bs.length), f i = .ok bs[i] := by
  rw [traverse_eq_ok, List.forall₂_iff_get]
  constructor
  · rintro ⟨hl, h⟩
    simp only [List.length_range] at hl
    refine ⟨hl.symm, fun i hi => ?_⟩
    simpa using h i (by simpa [hl] using hi) hi
  · rintro ⟨hl, h⟩
    refine ⟨by simp [hl], fun i h₁ h₂ => ?_⟩
    simpa using h i h₂

/-! ## The end of a command -/

/-- A command is refused exactly where its pseudocode comes to a refusal. -/
theorem conclude_eq_refused {lose : State → State} {s : State} {r : Except Stop State} {e : Refusal} :
    conclude lose s r = .refused e ↔ r = .error (.refuse e) := by
  rcases r with (r | r) | t <;> simp [conclude]

/-- A command that answers a next state completed or took a fault. -/
theorem conclude_eq_next {lose : State → State} {s t : State} {r : Except Stop State} :
    conclude lose s r = .next t ↔
      (∃ u, r = .ok u ∧ t = u.complete) ∨
        ∃ e, r = .error (.raise e) ∧ t = (if e.code.leavesAll then s else lose s).takeFault e := by
  rcases r with (r | r) | u
  · simpa [conclude] using eq_comm
  · simp [conclude]
  · simpa [conclude] using eq_comm

@[simp] theorem conclude_ok (lose : State → State) (s t : State) :
    conclude lose s (.ok t) = .next t.complete := rfl

@[simp] theorem conclude_raise (lose : State → State) (s : State) (e : Raise) :
    conclude lose s (.error (.raise e)) = .next ((if e.code.leavesAll then s else lose s).takeFault e) := rfl

@[simp] theorem conclude_refuse (lose : State → State) (s : State) (e : Refusal) :
    conclude lose s (.error (.refuse e)) = .refused e := rfl

/-! ## Operands -/

theorem loadInput_eq_ok {s : State} {input : List RawUnit} : loadInput s = .ok input ↔ s.input = some input :=
  orRefuse_eq_ok

theorem loadStream_eq_ok {s : State} {bits : List Bool} : loadStream s = .ok bits ↔ s.stream = some bits :=
  orRefuse_eq_ok

@[simp] theorem recordsOf_map_record {α : Type} (rs : List α) : recordsOf (rs.map Stored.record) = some rs := by
  induction rs with
  | nil => rfl
  | cons r rs ih => simp [recordsOf, ih]

theorem recordsOf_eq_some {α : Type} {es : List (Stored α)} {rs : List α} :
    recordsOf es = some rs ↔ es = rs.map Stored.record := by
  refine ⟨fun h => ?_, fun h => h ▸ recordsOf_map_record rs⟩
  induction es generalizing rs with
  | nil => cases h; rfl
  | cons x es ih =>
    cases x with
    | bits v => cases h
    | record r =>
      obtain ⟨us, hu, rfl⟩ := Option.map_eq_some_iff.1 h
      rw [ih hu, List.map_cons]

/-- A list of elements denotes no table exactly where one of them is no record. -/
theorem recordsOf_eq_none {α : Type} {es : List (Stored α)} : recordsOf es = none ↔ ∃ v, Stored.bits v ∈ es := by
  induction es with
  | nil => simp [recordsOf]
  | cons x es ih => cases x <;> simp [recordsOf, ih]

theorem loadTable_eq_ok {α : Type} {w : Win} {get : Nat → Option (List (Stored α))} {ok : List α → Bool} {i : Nat}
    {t : List α} : loadTable w get ok i = .ok t ↔ (get i).bind recordsOf = some t ∧ ok t = true := by
  simp only [loadTable, bind_eq_ok, orRefuse_eq_ok, Option.bind_eq_some_iff]
  constructor
  · rintro ⟨es, hg, u, hr, h⟩
    by_cases hu : ok u = true
    · rw [if_pos hu] at h; cases h; exact ⟨⟨es, hg, hr⟩, hu⟩
    · rw [if_neg hu] at h; cases h
  · rintro ⟨⟨es, hg, hr⟩, ho⟩
    exact ⟨es, hg, t, hr, if_pos ho⟩

theorem loadTable_eq_error {α : Type} {w : Win} {get : Nat → Option (List (Stored α))} {ok : List α → Bool} {i : Nat}
    {x : Stop} (h : loadTable w get ok i = .error x) :
    (get i = none ∧ x = .refuse (.unwritten w)) ∨
      ∃ es, get i = some es ∧ x = .refuse (.illFormed w i) ∧ ∀ t, recordsOf es = some t → ok t = false := by
  unfold loadTable at h
  cases hg : get i with
  | none => simp [hg] at h; exact .inl ⟨rfl, h.symm⟩
  | some es =>
    refine .inr ⟨es, rfl, ?_⟩
    cases hr : recordsOf es with
    | none => simp [hg, hr] at h; exact ⟨h.symm, by simp⟩
    | some t =>
      cases ho : ok t with
      | true => simp [hg, hr, ho] at h
      | false => simp [hg, hr, ho] at h; exact ⟨h.symm, by rintro _ ⟨⟩; exact ho⟩

/-! ## The canonical form -/

theorem Memory.wf_iff {s : State} :
    Memory.wf s = true ↔
      Window.wf s.imem = true ∧ Window.wf s.ftN = true ∧ Table.wf s.ft = true ∧ Window.wf s.treeN = true ∧
        Table.wf s.tree = true ∧ Window.wf s.ctN = true ∧ Table.wf s.ct = true ∧ Window.wf s.bitmem = true ∧
        Window.wf s.omem = true := by
  simp [Memory.wf, and_assoc]

theorem Memory.wf_reset : Memory.wf State.reset = true := rfl

theorem Memory.wf_resetEvent (s : State) : Memory.wf s.resetEvent = true := rfl

theorem Memory.wf_complete {s : State} (h : Memory.wf s = true) : Memory.wf s.complete = true := h

theorem Memory.wf_takeFault {s : State} (r : Raise) (h : Memory.wf s = true) : Memory.wf (s.takeFault r) = true := h

theorem Memory.wf_loseCounts {s : State} (h : Memory.wf s = true) : Memory.wf s.loseCounts = true := by
  rw [Memory.wf_iff] at h ⊢; simp_all [Window.wf_nil, Table.wf_nil]

theorem Memory.wf_loseTrees {s : State} (h : Memory.wf s = true) : Memory.wf s.loseTrees = true := by
  rw [Memory.wf_iff] at h ⊢; simp_all [Window.wf_nil, Table.wf_nil]

theorem Memory.wf_loseCodes {s : State} (h : Memory.wf s = true) : Memory.wf s.loseCodes = true := by
  rw [Memory.wf_iff] at h ⊢; simp_all [Window.wf_nil, Table.wf_nil]

theorem Memory.wf_loseAllTables {s : State} (h : Memory.wf s = true) : Memory.wf s.loseAllTables = true :=
  Memory.wf_loseCodes (Memory.wf_loseTrees (Memory.wf_loseCounts h))

theorem Memory.wf_loseStream {s : State} (h : Memory.wf s = true) : Memory.wf s.loseStream = true := by
  rw [Memory.wf_iff] at h ⊢; simp_all [Window.wf_nil]

theorem Memory.wf_loseOutput {s : State} (h : Memory.wf s = true) : Memory.wf s.loseOutput = true := by
  rw [Memory.wf_iff] at h ⊢; simp_all [Window.wf_nil]

theorem Table.wf_ofRecords {α : Type} {ts : List (List α)} (ne : ∀ t ∈ ts, t ≠ []) :
    Table.wf (Table.ofRecords ts) = true :=
  Table.wf_ofLists (by simpa using ne)

theorem Memory.wf_storeCounts {s : State} {ts : List (List FtEntry)} (h : Memory.wf s = true)
    (ne : ∀ t ∈ ts, t ≠ []) : Memory.wf (s.storeCounts ts) = true := by
  rw [Memory.wf_iff] at h ⊢; simp_all [Window.wf_ofList, Table.wf_ofRecords]

theorem Memory.wf_storeTrees {s : State} {ts : List (List TreeNode)} (h : Memory.wf s = true)
    (ne : ∀ t ∈ ts, t ≠ []) : Memory.wf (s.storeTrees ts) = true := by
  rw [Memory.wf_iff] at h ⊢; simp_all [Window.wf_ofList, Table.wf_ofRecords]

theorem Memory.wf_storeCodes {s : State} {ts : List (List CtEntry)} (h : Memory.wf s = true)
    (ne : ∀ t ∈ ts, t ≠ []) : Memory.wf (s.storeCodes ts) = true := by
  rw [Memory.wf_iff] at h ⊢; simp_all [Window.wf_ofList, Table.wf_ofRecords]

theorem Memory.wf_storeStream {s : State} (bits : List Bool) (h : Memory.wf s = true) :
    Memory.wf (s.storeStream bits) = true := by
  rw [Memory.wf_iff] at h ⊢; simp_all [Window.wf_ofList]

theorem Memory.wf_storeOutput {s : State} (out : List RawUnit) (h : Memory.wf s = true) :
    Memory.wf (s.storeOutput out) = true := by
  rw [Memory.wf_iff] at h ⊢; simp_all [Window.wf_ofList]

end Sys2Proof.Machine
end

