-- ==== Sys2Proof/Laws/Commands.lean ====
section
/-! SUPPORT. What each command's pseudocode can come to: when its checks pass, and the state it leaves.
Proofs about a command cite these and do not unfold the command. -/

namespace Sys2Proof.Machine

variable {s t : State}

/-! ## The checks -/

theorem countChecks_eq_ok :
    countChecks s = .ok () ↔
      s.seglen.toNat ≠ 0 ∧ s.charlen.toNat ≠ 0 ∧ s.inlen.toNat ≤ s.params.inCap ∧
        segCount s.inlen.toNat s.seglen.toNat ≤ s.params.segCap ∧
        (s.inlen.toNat = 0 ∨ min s.charlen.toNat (min s.seglen.toNat s.inlen.toNat) ≤ s.params.symW) := by
  simp only [countChecks, bind_eq_ok, raiseIf_eq_ok, exists_const, Bool.or_eq_false_iff, Bool.and_eq_false_iff,
    decide_eq_false_iff_not, not_lt, Nat.le_zero, and_assoc, ne_eq]

theorem encodeChecks_eq_ok :
    encodeChecks s = .ok () ↔
      s.seglen.toNat ≠ 0 ∧ s.charlen.toNat ≠ 0 ∧ s.inlen.toNat ≤ s.params.inCap ∧
        s.nseg.toNat ≤ s.params.segCap ∧
        (s.inlen.toNat = 0 ∨ min s.charlen.toNat (min s.seglen.toNat s.inlen.toNat) ≤ s.params.symW) := by
  simp only [encodeChecks, bind_eq_ok, raiseIf_eq_ok, exists_const, Bool.or_eq_false_iff, Bool.and_eq_false_iff,
    decide_eq_false_iff_not, not_lt, Nat.le_zero, and_assoc, ne_eq]

theorem decodeChecks_eq_ok :
    decodeChecks s = .ok () ↔
      s.seglen.toNat ≠ 0 ∧ s.charlen.toNat ≠ 0 ∧ s.nseg.toNat ≤ s.params.segCap ∧
        s.bitlen.toNat ≤ s.params.bitCap := by
  simp only [decodeChecks, bind_eq_ok, raiseIf_eq_ok, exists_const, Bool.or_eq_false_iff,
    decide_eq_false_iff_not, not_lt, and_assoc, ne_eq]

/-! ## The state a command leaves -/

theorem countPhase_eq_ok :
    countPhase s = .ok t ↔
      countChecks s = .ok () ∧ ∃ input tables, s.input = some input ∧
        traverse (countSegment s.params.symCap []) (segments input s.seglen.toNat s.charlen.toNat) = .ok tables ∧
        t = s.storeCounts tables := by
  simp only [countPhase, bind_eq_ok, loadInput_eq_ok, pure_eq_ok, Except.ok.injEq, eq_comm (b := t)]
  constructor
  · rintro ⟨_, hc, input, hi, tables, ht, e⟩; exact ⟨hc, input, tables, hi, ht, e⟩
  · rintro ⟨hc, input, tables, hi, ht, e⟩; exact ⟨_, hc, input, hi, tables, ht, e⟩

theorem buildPhase_eq_ok :
    buildPhase s = .ok t ↔
      s.nseg.toNat ≤ s.params.segCap ∧
        ∃ tables, loadFreqTables s s.nseg.toNat = .ok tables ∧ t = s.storeTrees (tables.map buildTree) := by
  simp only [buildPhase, bind_eq_ok, raiseIf_eq_ok, exists_const, decide_eq_false_iff_not, not_lt, pure_eq_ok,
    Except.ok.injEq, eq_comm (b := t)]

theorem genPhase_eq_ok :
    genPhase s = .ok t ↔
      s.nseg.toNat ≤ s.params.segCap ∧
        ∃ trees, loadTrees s s.nseg.toNat = .ok trees ∧ t = s.storeCodes (trees.map genTable) := by
  simp only [genPhase, bind_eq_ok, raiseIf_eq_ok, exists_const, decide_eq_false_iff_not, not_lt, pure_eq_ok,
    Except.ok.injEq, eq_comm (b := t)]

theorem buildCodesPhase_eq_ok :
    buildCodesPhase s = .ok t ↔ ∃ u v, countPhase s = .ok u ∧ buildPhase u = .ok v ∧ genPhase v = .ok t := by
  simp only [buildCodesPhase, bind_eq_ok]
  constructor
  · rintro ⟨u, hu, v, hv, hg⟩; exact ⟨u, v, hu, hv, hg⟩
  · rintro ⟨u, v, hu, hv, hg⟩; exact ⟨u, hu, v, hv, hg⟩

theorem encodePhase_eq_ok :
    encodePhase s = .ok t ↔
      encodeChecks s = .ok () ∧ ∃ input tables bits, s.input = some input ∧
        loadCodeTables s (min s.nseg.toNat (segments input s.seglen.toNat s.charlen.toNat).length) = .ok tables ∧
        encodeSegments s.params.bitCap tables 0 (segments input s.seglen.toNat s.charlen.toNat) [] = .ok bits ∧
        t = s.storeStream bits := by
  simp only [encodePhase, bind_eq_ok, loadInput_eq_ok, pure_eq_ok, Except.ok.injEq, eq_comm (b := t)]
  constructor
  · rintro ⟨_, hc, input, hi, tables, ht, bits, hb, e⟩; exact ⟨hc, input, tables, bits, hi, ht, hb, e⟩
  · rintro ⟨hc, input, tables, bits, hi, ht, hb, e⟩; exact ⟨_, hc, input, hi, tables, ht, bits, hb, e⟩

theorem checkTrailing_eq_ok {k : Nat} {bits : List Bool} : checkTrailing k bits = .ok () ↔ bits = [] := by
  cases bits <;> simp [checkTrailing]

theorem decodePhase_eq_ok :
    decodePhase s = .ok t ↔
      decodeChecks s = .ok () ∧ ∃ bits trees out, s.stream = some bits ∧
        loadTrees s s.nseg.toNat = .ok trees ∧
        decodeSegments s.params.outCap (cdiv s.seglen.toNat s.charlen.toNat) 0 trees bits [] = .ok ([], out) ∧
        t = s.storeOutput out := by
  simp only [decodePhase, bind_eq_ok, loadStream_eq_ok, pure_eq_ok, Except.ok.injEq, eq_comm (b := t)]
  constructor
  · rintro ⟨_, hc, bits, hb, trees, ht, ⟨rest, out⟩, hd, _, hr, e⟩
    cases checkTrailing_eq_ok.1 hr
    exact ⟨hc, bits, trees, out, hb, ht, hd, e⟩
  · rintro ⟨hc, bits, trees, out, hb, ht, hd, e⟩
    exact ⟨_, hc, bits, hb, trees, ht, ⟨[], out⟩, hd, _, checkTrailing_eq_ok.2 rfl, e⟩

/-! ## Loaded tables -/

theorem loadFreqTables_eq_ok {k : Nat} {tables : List (List FtEntry)} :
    loadFreqTables s k = .ok tables ↔ tables.length = k ∧ ∀ i (h : i < tables.length),
      s.freqTable i = some tables[i] ∧ wfFt s.params tables[i] = true := by
  simp only [loadFreqTables, traverse_range_eq_ok, loadTable_eq_ok, State.freqTable, tableOf]

theorem loadTrees_eq_ok {k : Nat} {trees : List (List TreeNode)} :
    loadTrees s k = .ok trees ↔ trees.length = k ∧ ∀ i (h : i < trees.length),
      s.arena i = some trees[i] ∧ wfTree s.params trees[i] = true := by
  simp only [loadTrees, traverse_range_eq_ok, loadTable_eq_ok, State.arena, tableOf]

theorem loadCodeTables_eq_ok {k : Nat} {tables : List (List CtEntry)} :
    loadCodeTables s k = .ok tables ↔ tables.length = k ∧ ∀ i (h : i < tables.length),
      s.codeTable i = some tables[i] ∧ wfCt s.params tables[i] = true := by
  simp only [loadCodeTables, traverse_range_eq_ok, loadTable_eq_ok, State.codeTable, tableOf]

/-! ## What a table memory that a command wrote denotes -/

theorem entries_ofLists {α : Type} (ts : List (List α)) (i : Nat) :
    entries (Window.ofList (ts.map List.length)) (Table.ofLists ts) i = ts[i]? := by
  simp only [entries, Window.read_ofList, List.getElem?_map, Table.seg_ofLists,
    List.getD_eq_getElem?_getD]
  cases ts[i]? <;> simp

theorem tableOf_ofRecords {α : Type} (ts : List (List α)) (i : Nat) :
    tableOf (Window.ofList (ts.map List.length)) (Table.ofRecords ts) i = ts[i]? := by
  have h := entries_ofLists (ts.map (List.map (Stored.record (α := α)))) i
  rw [List.map_map, show List.length ∘ List.map (Stored.record (α := α)) = List.length by funext; simp] at h
  rw [tableOf, Table.ofRecords, h, List.getElem?_map]
  cases ts[i]? <;> simp

@[simp] theorem State.freqTable_storeCounts (ts : List (List FtEntry)) (i : Nat) :
    (s.storeCounts ts).freqTable i = ts[i]? := tableOf_ofRecords ts i

@[simp] theorem State.arena_storeTrees (ts : List (List TreeNode)) (i : Nat) :
    (s.storeTrees ts).arena i = ts[i]? := tableOf_ofRecords ts i

@[simp] theorem State.codeTable_storeCodes (ts : List (List CtEntry)) (i : Nat) :
    (s.storeCodes ts).codeTable i = ts[i]? := tableOf_ofRecords ts i

/-! ## Ceiling division and the Segmenter -/

theorem cdiv_le_iff {a b c : Nat} (hb : 1 ≤ b) : cdiv a b ≤ c ↔ a ≤ c * b := by
  unfold cdiv
  rw [Nat.div_le_iff_le_mul_add_pred (by omega), Nat.mul_comm]
  omega

/-- `cdiv(a, b)` is the least `c` with `a ≤ c * b` (R7). -/
theorem le_cdiv_mul {a b : Nat} (hb : 1 ≤ b) : a ≤ cdiv a b * b := (cdiv_le_iff hb).1 le_rfl

@[simp] theorem segments_length (input : List RawUnit) (p q : Nat) :
    (segments input p q).length = segCount input.length p := by simp [segments]

theorem State.input_length {input : List RawUnit} (h : s.input = some input) : input.length = s.inlen.toNat :=
  (Window.readFrom_eq_some.1 h).1

theorem State.stream_length {bits : List Bool} (h : s.stream = some bits) : bits.length = s.bitlen.toNat :=
  (Window.readFrom_eq_some.1 h).1

end Sys2Proof.Machine
end

