-- ==== Sys2Proof/Laws/HostPort.lean ====
section
/-! SUPPORT. What one host transaction can do, and one step: every way a step can answer a next state. -/

namespace Sys2Proof.Machine

/-! ## Register and memory transactions -/

/-- A register write that has a meaning changes one of the five host-writable registers or nothing. -/
theorem writeReg_cases {s t : State} {n : Nat} {v : Word} (h : writeReg s n v = some t) :
    t = s ∨ t = { s with seglen := v } ∨ t = { s with charlen := v } ∨ t = { s with inlen := v } ∨
      t = { s with nseg := v } ∨ t = { s with bitlen := v } := by
  unfold writeReg at h
  split at h
  · exact .inr (.inl (Option.some.inj h).symm)
  · exact .inr (.inr (.inl (Option.some.inj h).symm))
  · exact .inr (.inr (.inr (.inl (Option.some.inj h).symm)))
  · exact .inr (.inr (.inr (.inr (.inl (Option.some.inj h).symm))))
  · exact .inr (.inr (.inr (.inr (.inr (Option.some.inj h).symm))))
  · split at h
    · exact .inl (Option.some.inj h).symm
    · simp at h

/-- A read leaves everything but what the host has read and the draws. -/
theorem readOrDraw_cases {α : Type} (s : State) (wrap : α → HostRead) (free : Nat → α) (o : Option α) :
    (∃ v, o = some v ∧ readOrDraw s wrap free o = { s with reads := wrap v :: s.reads }) ∨
      (o = none ∧ readOrDraw s wrap free o =
        { s with reads := wrap (free s.draws) :: s.reads, draws := s.draws + 1 }) := by
  cases o with
  | none => exact .inr ⟨rfl, rfl⟩
  | some v => exact .inl ⟨v, rfl, rfl⟩

theorem readOrDraw_reads {α : Type} (s : State) (wrap : α → HostRead) (free : Nat → α) (o : Option α) :
    ∃ r d, readOrDraw s wrap free o = { s with reads := r, draws := d } := by
  cases o with
  | none => exact ⟨_, _, rfl⟩
  | some v => exact ⟨_, s.draws, rfl⟩

theorem readMem_reads (s : State) (a : WinAddr) : ∃ r d, readMem s a = { s with reads := r, draws := d } := by
  cases a <;> simp only [readMem] <;> exact readOrDraw_reads _ _ _ _

/-- What a location holds has the kind of its window's elements. -/
theorem State.element_windows {s : State} {a : WinAddr} {v : HostRead} (h : s.element a = some v) :
    a.win ∈ v.windows := by
  cases a <;> obtain ⟨x, -, rfl⟩ := Option.map_eq_some_iff.1 h <;> simp [WinAddr.win, HostRead.windows]

theorem unitFits_unitOf (c : Params) (v : Nat) : unitFits c (unitOf c v) = true :=
  decide_eq_true (Nat.mod_lt _ (Nat.two_pow_pos _))

/-- The number of a unit is that unit. -/
theorem unitOf_of_fits {c : Params} {u : RawUnit} (h : unitFits c u = true) : unitOf c u = u :=
  Nat.mod_eq_of_lt (of_decide_eq_true h)

/-- A memory write writes one element of one window, or (OMEM) nothing. -/
theorem writeMem_cases (s : State) (w : WinWrite) :
    writeMem s w = s ∨
      (∃ i v, w.addr = .imem i ∧ unitFits s.params v = true ∧
        writeMem s w = { s with imem := Window.write s.imem i v }) ∨
      (∃ i v, w.addr = .ftN i ∧ v < 2 ^ 32 ∧ writeMem s w = { s with ftN := Window.write s.ftN i v }) ∨
      (∃ i e v, w.addr = .ft i e ∧ writeMem s w = { s with ft := Table.write s.ft i e (ftOfBits s.params v) }) ∨
      (∃ i v, w.addr = .treeN i ∧ v < 2 ^ 32 ∧ writeMem s w = { s with treeN := Window.write s.treeN i v }) ∨
      (∃ i n v, w.addr = .tree i n ∧
        writeMem s w = { s with tree := Table.write s.tree i n (nodeOfBits s.params v) }) ∨
      (∃ i v, w.addr = .ctN i ∧ v < 2 ^ 32 ∧ writeMem s w = { s with ctN := Window.write s.ctN i v }) ∨
      (∃ i e v, w.addr = .ct i e ∧ writeMem s w = { s with ct := Table.write s.ct i e (ctOfBits s.params v) }) ∨
      ∃ b v, w.addr = .bitmem b ∧ writeMem s w = { s with bitmem := Window.write s.bitmem b v } := by
  cases w with
  | imem i v => exact .inr (.inl ⟨i, _, rfl, unitFits_unitOf s.params v, rfl⟩)
  | ftN i v => exact .inr (.inr (.inl ⟨i, v.toNat, rfl, v.isLt, rfl⟩))
  | ft i e v => exact .inr (.inr (.inr (.inl ⟨i, e, _, rfl, rfl⟩)))
  | ftBits i e v => exact .inr (.inr (.inr (.inl ⟨i, e, v, rfl, rfl⟩)))
  | treeN i v => exact .inr (.inr (.inr (.inr (.inl ⟨i, v.toNat, rfl, v.isLt, rfl⟩))))
  | tree i n v => exact .inr (.inr (.inr (.inr (.inr (.inl ⟨i, n, _, rfl, rfl⟩)))))
  | treeBits i n v => exact .inr (.inr (.inr (.inr (.inr (.inl ⟨i, n, v, rfl, rfl⟩)))))
  | ctN i v => exact .inr (.inr (.inr (.inr (.inr (.inr (.inl ⟨i, v.toNat, rfl, v.isLt, rfl⟩))))))
  | ct i e v => exact .inr (.inr (.inr (.inr (.inr (.inr (.inr (.inl ⟨i, e, _, rfl, rfl⟩)))))))
  | ctBits i e v => exact .inr (.inr (.inr (.inr (.inr (.inr (.inr (.inl ⟨i, e, v, rfl, rfl⟩)))))))
  | bitmem b v => exact .inr (.inr (.inr (.inr (.inr (.inr (.inr (.inr ⟨b, v, rfl, rfl⟩)))))))
  | omem i v => exact .inl rfl

/-- A memory write keeps the canonical form. -/
theorem Memory.wf_writeMem {s : State} (w : WinWrite) (hw : Memory.wf s = true) : Memory.wf (writeMem s w) = true := by
  rcases writeMem_cases s w with h | ⟨i, v, -, -, h⟩ | ⟨i, v, -, -, h⟩ | ⟨i, e, v, -, h⟩ | ⟨i, v, -, -, h⟩ |
    ⟨i, n, v, -, h⟩ | ⟨i, v, -, -, h⟩ | ⟨i, e, v, -, h⟩ | ⟨b, v, -, h⟩ <;>
    rw [h] <;> rw [Memory.wf_iff] at hw ⊢ <;> obtain ⟨h₁, h₂, h₃, h₄, h₅, h₆, h₇, h₈, h₉⟩ := hw
  · exact ⟨h₁, h₂, h₃, h₄, h₅, h₆, h₇, h₈, h₉⟩
  · exact ⟨Window.wf_write _ _ h₁, h₂, h₃, h₄, h₅, h₆, h₇, h₈, h₉⟩
  · exact ⟨h₁, Window.wf_write _ _ h₂, h₃, h₄, h₅, h₆, h₇, h₈, h₉⟩
  · exact ⟨h₁, h₂, Table.wf_write _ _ _ h₃, h₄, h₅, h₆, h₇, h₈, h₉⟩
  · exact ⟨h₁, h₂, h₃, Window.wf_write _ _ h₄, h₅, h₆, h₇, h₈, h₉⟩
  · exact ⟨h₁, h₂, h₃, h₄, Table.wf_write _ _ _ h₅, h₆, h₇, h₈, h₉⟩
  · exact ⟨h₁, h₂, h₃, h₄, h₅, Window.wf_write _ _ h₆, h₇, h₈, h₉⟩
  · exact ⟨h₁, h₂, h₃, h₄, h₅, h₆, Table.wf_write _ _ _ h₇, h₈, h₉⟩
  · exact ⟨h₁, h₂, h₃, h₄, h₅, h₆, h₇, Window.wf_write _ _ h₈, h₉⟩

/-! ## One transaction -/

theorem quietOr_eq_quiet {r : Refusal} {o : Option State} {t : State} : quietOr r o = .quiet t ↔ o = some t := by
  cases o <;> simp [quietOr]

/-- The ways in which a write to CMD can end. -/
theorem writeCmd_cases (s : State) (w : Word) :
    (statusFault s.status = true ∧ writeCmd s w = .quiet s) ∨
      (statusFault s.status = false ∧ ∃ i, decode w = .ok i ∧ writeCmd s w = .command i s) ∨
      (statusFault s.status = false ∧ ∃ e, decode w = .error e ∧
        writeCmd s w = .quiet (s.takeFault ⟨.badcmd, 0, 0⟩)) := by
  unfold writeCmd
  cases hf : statusFault s.status with
  | true => exact .inl ⟨rfl, rfl⟩
  | false =>
    cases hd : decode w with
    | ok i => exact .inr (.inl ⟨rfl, i, rfl, rfl⟩)
    | error e => exact .inr (.inr ⟨rfl, e, rfl, rfl⟩)

@[simp] theorem transact_rdreg (s : State) (n : Nat) : transact s (.rdreg n) =
    quietOr .outsideWindow ((readReg s n).map fun v => { s with reads := .reg v :: s.reads }) := rfl

@[simp] theorem transact_wrcmd (s : State) (w : Word) : transact s (.wrreg 0 w) = writeCmd s w := rfl

@[simp] theorem transact_wrreg (s : State) (n : Nat) (v : Word) :
    transact s (.wrreg (n + 1) v) = quietOr .outsideWindow (writeReg s (n + 1) v) := rfl

@[simp] theorem transact_rdmem (s : State) (a : WinAddr) : transact s (.rdmem a) =
    if a.inWindow s.params then .quiet (readMem s a) else .refuse .outsideWindow := rfl

@[simp] theorem transact_wrmem (s : State) (w : WinWrite) : transact s (.wrmem w) =
    if w.addr.inWindow s.params then .quiet (writeMem s w) else .refuse .outsideWindow := rfl

@[simp] theorem transact_reset (s : State) : transact s .reset = .quiet s.resetEvent := rfl

theorem quietOr_ne_command {r : Refusal} {o : Option State} {i : Instr} {t : State} :
    quietOr r o ≠ .command i t := by
  cases o <;> simp [quietOr]

/-- A transaction that completes without a command read something, wrote a host-writable register or an
element of a window, was an ignored or a reserved command write, or was the reset event. -/
theorem transact_eq_quiet {s t : State} {x : HostTxn} (h : transact s x = .quiet t) :
    (∃ r d, t = { s with reads := r, draws := d }) ∨
      (∃ n v, x = .wrreg (n + 1) v ∧ writeReg s (n + 1) v = some t) ∨
      (∃ w, x = .wrmem w ∧ w.addr.inWindow s.params = true ∧ t = writeMem s w) ∨
      (∃ w, x = .wrreg 0 w ∧ writeCmd s w = .quiet t) ∨
      (x = .reset ∧ t = s.resetEvent) := by
  cases x with
  | rdreg n =>
    rw [transact_rdreg, quietOr_eq_quiet, Option.map_eq_some_iff] at h
    obtain ⟨v, _, rfl⟩ := h
    exact .inl ⟨_, s.draws, rfl⟩
  | wrreg n v =>
    cases n with
    | zero => exact .inr (.inr (.inr (.inl ⟨v, rfl, h⟩)))
    | succ n => exact .inr (.inl ⟨n, v, rfl, quietOr_eq_quiet.1 h⟩)
  | rdmem a =>
    rw [transact_rdmem] at h
    split at h
    · exact .inl (HostTurn.quiet.inj h ▸ readMem_reads s a)
    · cases h
  | wrmem w =>
    rw [transact_wrmem] at h
    split at h
    · exact .inr (.inr (.inl ⟨w, rfl, ‹_›, (HostTurn.quiet.inj h).symm⟩))
    · cases h
  | reset => exact .inr (.inr (.inr (.inr ⟨rfl, (HostTurn.quiet.inj h).symm⟩)))

/-- A transaction starts a command only where it is an accepted command write. -/
theorem transact_eq_command {s t : State} {x : HostTxn} {i : Instr} (h : transact s x = .command i t) :
    ∃ w, x = .wrreg 0 w ∧ statusFault s.status = false ∧ decode w = .ok i ∧ t = s := by
  cases x with
  | rdreg n => exact absurd h quietOr_ne_command
  | wrreg n v =>
    cases n with
    | zero =>
      rw [transact_wrcmd] at h
      rcases writeCmd_cases s v with ⟨_, e⟩ | ⟨hf, j, hj, e⟩ | ⟨_, _, _, e⟩
      · rw [e] at h; cases h
      · rw [e] at h; cases h; exact ⟨v, rfl, hf, hj, rfl⟩
      · rw [e] at h; cases h
    | succ n => exact absurd h quietOr_ne_command
  | rdmem a => rw [transact_rdmem] at h; split at h <;> cases h
  | wrmem w => rw [transact_wrmem] at h; split at h <;> cases h
  | reset => cases h

/-! ## One step -/

theorem hostTurn_nil {s : State} (h : s.script = []) : hostTurn s = .quiet s := by simp [hostTurn, h]

theorem hostTurn_cons {s : State} {x : HostTxn} {rest : List HostTxn} (h : s.script = x :: rest) :
    hostTurn s = if statusBusy s.status && !allowedWhileBusy x then .refuse .busyAccess
      else transact { s with script := rest } x := by
  simp only [hostTurn, h]

theorem hostTurn_idle {s : State} {x : HostTxn} {rest : List HostTxn} (h : s.script = x :: rest)
    (hb : statusBusy s.status = false) : hostTurn s = transact { s with script := rest } x := by
  simp [hostTurn_cons h, hb]

/-- A step answers a next state where the host's turn leaves one or the command it starts does. -/
theorem step_eq_next {s t : State} : step s = .next t ↔
    hostTurn s = .quiet t ∨ ∃ i u, hostTurn s = .command i u ∧ exec i u = .next t := by
  unfold step
  cases hostTurn s <;> simp

/-- A step that answers a next state: the script was empty and nothing happened, the next transaction
completed without a command, or it was an accepted command write and the command answered that state. -/
theorem step_cases {s t : State} (h : step s = .next t) :
    (s.script = [] ∧ t = s) ∨
      ∃ x rest, s.script = x :: rest ∧ (statusBusy s.status = true → allowedWhileBusy x = true) ∧
        (transact { s with script := rest } x = .quiet t ∨
          ∃ w i, x = .wrreg 0 w ∧ statusFault s.status = false ∧ decode w = .ok i ∧
            exec i { s with script := rest } = .next t) := by
  rw [step_eq_next] at h
  cases hs : s.script with
  | nil =>
    rw [hostTurn_nil hs] at h
    rcases h with h | ⟨_, _, h, _⟩
    · exact .inl ⟨rfl, (HostTurn.quiet.inj h).symm⟩
    · cases h
  | cons x rest =>
    rw [hostTurn_cons hs] at h
    by_cases hb : statusBusy s.status && !allowedWhileBusy x
    · simp [hb] at h
    · rw [if_neg hb] at h
      refine .inr ⟨x, rest, rfl, by simpa using hb, h.imp id ?_⟩
      rintro ⟨i, u, hc, he⟩
      obtain ⟨w, hx, hf, hd, rfl⟩ := transact_eq_command hc
      exact ⟨w, i, hx, hf, hd, he⟩

end Sys2Proof.Machine
end

