-- ==== Sys2Proof/Laws/PerInstr.lean ====
section
/-! SUPPORT. A statement about each command as syntax (spec/30_encoding.md R60 to R62): its word is its OP
value, an OP value of the opcode map, under an all-zero ZERO field. -/

namespace Sys2Proof.Laws.WordFields

/-- The word of a command has ZERO = 0, OP in 0 .. 6 and, read as a number, the value of OP. -/
def Statement (i : Instr) : Prop :=
  i.wf = true ∧ zeroField (encode i) = 0 ∧ opField (encode i) = opOf i ∧ (opOf i).toNat ≤ 6 ∧
    (encode i).toNat = (opOf i).toNat

theorem nop : Statement .nop := by unfold Statement; decide
theorem count : Statement .count := by unfold Statement; decide
theorem build : Statement .build := by unfold Statement; decide
theorem gen : Statement .gen := by unfold Statement; decide
theorem buildCodes : Statement .buildCodes := by unfold Statement; decide
theorem encode : Statement .encode := by unfold Statement; decide
theorem decode : Statement .decode := by unfold Statement; decide

end Sys2Proof.Laws.WordFields
end

