-- ==== Sys2Proof/Tests/Slice0.lean ====
section
/-! SUPPORT. Tests of the model and witnesses of the statements' hypotheses.  Every expected value of a test is
the spec's: a vector TV-… of spec/95_test_vectors.md, or a word or layout worked out from spec/30_encoding.md.
A theorem `witness_X` or `witness_X_<clause>` shows states and operands that meet all hypotheses of
`Obligations.X` (of that clause of it) together. -/

namespace Sys2Proof.Tests

open Sys2Proof Sys2Proof.Machine

/-! ## Small states -/

abbrev a : RawUnit := 0x61
abbrev b : RawUnit := 0x62
abbrev c : RawUnit := 0x63
abbrev d : RawUnit := 0x64
abbrev e : RawUnit := 0x65
abbrev r : RawUnit := 0x72

/-- A bit sequence of the spec's notation. -/
def bits (s : String) : List Bool := s.toList.map (· == '1')

/-- `CONFIG p, q`; `LOAD IMEM, input` from reset. -/
def loaded (p q : Word) (input : List RawUnit) : State :=
  { State.reset with
    seglen := p, charlen := q, inlen := BitVec.ofNat 32 input.length, imem := Window.ofList input }

/-- The frequency tables and NSEG put in place. -/
def withTables (s : State) (ts : List (List FtEntry)) : State :=
  { s with
    nseg := BitVec.ofNat 32 ts.length, ftN := Window.ofList (ts.map List.length), ft := Table.ofRecords ts }

/-- The trees and NSEG put in place. -/
def withTrees (s : State) (ts : List (List TreeNode)) : State :=
  { s with
    nseg := BitVec.ofNat 32 ts.length, treeN := Window.ofList (ts.map List.length), tree := Table.ofRecords ts }

/-- The code tables and NSEG put in place. -/
def withCodes (s : State) (ts : List (List CtEntry)) : State :=
  { s with
    nseg := BitVec.ofNat 32 ts.length, ctN := Window.ofList (ts.map List.length), ct := Table.ofRecords ts }

/-- `LOADBITS`. -/
def withBits (s : State) (bs : List Bool) : State :=
  { s with bitlen := BitVec.ofNat 32 bs.length, bitmem := Window.ofList bs }

/-- TV-C1's table, TV-B1's tree and TV-G1's codes. -/
def tableAB : List FtEntry := [⟨[a], 3⟩, ⟨[b], 1⟩]
def treeAB : List TreeNode := [.leaf [a] 3, .leaf [b] 1, .internal 0 1 4]
def codesAB : List CtEntry := [⟨[a], [false]⟩, ⟨[b], [true]⟩]

/-- TV-B2's tree of each of the two segments of `"abab"`, and its codes. -/
def treeTie : List TreeNode := [.leaf [a] 1, .leaf [b] 1, .internal 1 0 2]
def codesTie : List CtEntry := [⟨[b], [false]⟩, ⟨[a], [true]⟩]

/-- `"aaab"`, p 4, q 1, loaded; then with the tables BUILD_CODES leaves; then with the stream. -/
def aaab : State := loaded 4 1 [a, a, a, b]
def aaabCoded : State := withCodes (withTrees (withTables aaab [tableAB]) [treeAB]) [codesAB]
def aaabEncoded : State := withBits aaabCoded (bits "0001")

/-- A decoder with one single-leaf segment (TV-B7), p 4, q 1. -/
def lone (stream : String) : State := withBits (withTrees (loaded 4 1 []) [[.leaf [a] 4]]) (bits stream)

/-- A decoder with the two segments of `"abab"` (TV-B2), p 2, q 1. -/
def twin (stream : String) : State := withBits (withTrees (loaded 2 1 []) [treeTie, treeTie]) (bits stream)

/-- The next state, where there is one. -/
def nextOf : Host.Outcome State Fault Refusal → Option State
  | .next s => some s
  | .fault _ => none
  | .refused _ => none

/-- STATUS, ERRSEG and ERRPOS after a command. -/
def endOf (i : Instr) (s : State) : Option (Word × Word × Word) :=
  (nextOf (exec i s)).map fun t => (t.status, t.errseg, t.errpos)

/-- Other capacities. -/
def sized (s : State) (f : Params → Params) : State := { s with params := f s.params }

/-! ## The command word (R60, R62, R63) -/

theorem test_decode_nop : decode 0b00000000000000000000000000000000 = .ok .nop := by decide
theorem test_decode_count : decode 0b00000000000000000000000000000001 = .ok .count := by decide
theorem test_decode_build : decode 0b00000000000000000000000000000010 = .ok .build := by decide
theorem test_decode_gen : decode 0b00000000000000000000000000000011 = .ok .gen := by decide
theorem test_decode_buildCodes : decode 0b00000000000000000000000000000100 = .ok .buildCodes := by decide
theorem test_decode_encode : decode 0b00000000000000000000000000000101 = .ok .encode := by decide
theorem test_decode_decode : decode 0b00000000000000000000000000000110 = .ok .decode := by decide
theorem test_decode_reservedOp : decode 0x00000007 = .error .reservedOp ∧ decode 0x0000000F = .error .reservedOp := by
  decide
theorem test_decode_zeroField : decode 0x00000011 = .error .zeroFieldSet ∧ decode 0x80000000 = .error .zeroFieldSet := by
  decide
theorem test_table_word_too_wide : decodeTableWord 64 0x100000001 = none := by decide

/-! ## Well-formedness: each check refuses an ill-formed term -/

theorem test_params_wf : Config.params.wf = true := by decide
theorem test_params_unitW_zero : Params.wf { Config.params with unitW := 0 } = false := by decide
theorem test_params_inCap : Params.wf { Config.params with inCap := 2 ^ 32 } = false := by decide
theorem test_params_bitCap : Params.wf { Config.params with bitCap := 2 ^ 32 } = false := by decide
theorem test_params_outCap : Params.wf { Config.params with outCap := 2 ^ 32 } = false := by decide
theorem test_params_symCap_zero : Params.wf { Config.params with symCap := 0 } = false := by decide
theorem test_params_symW_zero : Params.wf { Config.params with symW := 0 } = false := by decide
theorem test_params_symCap_wide : Params.wf { Config.params with symCap := 2 ^ 31 + 1 } = false := by decide
theorem test_params_symW_wide : Params.wf { Config.params with symW := 2 ^ 32 } = false := by decide

theorem test_wfFt : wfFt Config.params tableAB = true ∧ wfFt Config.params [] = false ∧
    wfFt Config.params [⟨[a], 1⟩, ⟨[a], 2⟩] = false ∧ wfFt Config.params [⟨[a], 0⟩] = false ∧
    wfFt Config.params [⟨[], 1⟩] = false ∧ wfFt Config.params [⟨[a, a, a, a, a], 1⟩] = false ∧
    wfFt Config.params [⟨[a], 2 ^ 32 - 1⟩, ⟨[b], 1⟩] = false ∧
    wfFt { Config.params with symCap := 1 } tableAB = false := by decide

theorem test_wfTree : wfTree Config.params treeAB = true ∧ wfTree Config.params [] = false ∧
    wfTree Config.params [.leaf [a] 1, .leaf [b] 1] = false ∧
    wfTree Config.params [.leaf [a] 1, .leaf [b] 1, .internal 0 2 2] = false ∧
    wfTree Config.params [.leaf [a] 1, .leaf [b] 1, .internal 0 0 2] = false ∧
    wfTree Config.params [.leaf [a] 1, .leaf [b] 1, .internal 0 1 2, .leaf [c] 1, .internal 0 3 3] = false ∧
    wfTree Config.params [.leaf [a] 1, .leaf [a] 1, .internal 0 1 2] = false ∧
    wfTree Config.params [.leaf [] 1] = false ∧ wfTree { Config.params with symCap := 1 } treeAB = false := by decide

theorem test_wfFreq : wfFreq treeAB = true ∧ wfFreq [.leaf [a] 0] = false ∧
    wfFreq [.leaf [a] 1, .leaf [b] 1, .internal 0 1 3] = false := by decide

theorem test_wfCt : wfCt Config.params codesAB = true ∧ wfCt Config.params [] = false ∧
    wfCt Config.params [⟨[a], [true]⟩, ⟨[a], [false]⟩] = false ∧ wfCt Config.params [⟨[a], []⟩] = false ∧
    wfCt Config.params [⟨[], [true]⟩] = false ∧
    wfCt { Config.params with symCap := 2 } [⟨[a], [true, true]⟩] = false ∧
    wfCt { Config.params with symCap := 1 } codesAB = false := by decide

/-! ## STATUS, layouts and the byte view -/

/-- The STATUS table of spec/95_test_vectors.md. -/
theorem test_status_words : statusOfDone = 0x00000002 ∧ statusOfFault .lookup = 0x00000014 ∧
    statusOfFault .badstream = 0x00000064 := by decide

/-- The parameters of spec/95_test_vectors.md 2.11: `UNIT_W` = 8, `SYMW` = 2, `SYMCAP` = 4. -/
def layoutParams : Params := { Config.params with symW := 2, symCap := 4 }

/-- TV-F2. -/
theorem test_ft_layout : packFt layoutParams ⟨[a, b], 1⟩ = 0x62610000000200000001 ∧
    unpackFt layoutParams 0x62610000000200000001 = some ⟨[a, b], 1⟩ := by decide

/-- R65, R66 with `UNIT_W` = 16: the second unit stands 16 bits above the first. -/
theorem test_ft_layout_wide_units :
    packFt { layoutParams with unitW := 16 } ⟨[0x6261, 0x263A], 1⟩ = 0x263A62610000000200000001 ∧
      unpackFt { layoutParams with unitW := 16 } 0x263A62610000000200000001 = some ⟨[0x6261, 0x263A], 1⟩ := by decide

/-- R20, R82 with `UNIT_W` = 16: units are told apart by all of their bits. -/
theorem test_wide_units :
    (nextOf (exec .count (sized (loaded 4 1 [0x141, 0x41]) fun p => { p with unitW := 16 }))).map
        (fun t => t.freqTable 0) = some (some [⟨[0x141], 1⟩, ⟨[0x41], 1⟩]) := by decide

/-- V8: with a set unused lane, and with a length above `SYMW`, an element is no record. -/
theorem test_ft_not_a_record : ftOfBits layoutParams 0x62610000000100000003 = .bits 0x62610000000100000003 ∧
    ftOfBits layoutParams 0x610000000300000003 = .bits 0x610000000300000003 := by decide

/-- TV-F6, TV-F7. -/
theorem test_tree_layout : packNode layoutParams (.leaf [a, b] 1) = 0xC4C20000000400000002 ∧
    unpackNode layoutParams 0x20000000000000009 = some (.internal 0 1 4) := by decide

/-- TV-F12. -/
theorem test_ct_layout : packCt layoutParams ⟨[c], [false, true, true]⟩ = 0x600630000000100000003 ∧
    unpackCt layoutParams 0x600630000000100000003 = some ⟨[c], [false, true, true]⟩ := by decide

/-- TV-H9. -/
theorem test_byte_view : bytesOfBits (bits "10010001011101010010001") = [0x91, 0x75, 0x22] := by decide

/-! ## The commands -/

/-- TV-N1. -/
theorem test_nop : exec .nop State.reset = .next { State.reset with status := 0x00000002 } := by rfl

/-- TV-C3. -/
theorem test_count_short_symbols :
    (nextOf (exec .count (loaded 3 2 [a, b, c, d, e]))).map
        (fun t => (t.nseg, [t.freqTable 0, t.freqTable 1, t.freqTable 2])) =
      some (2, [some [⟨[a, b], 1⟩, ⟨[c], 1⟩], some [⟨[d, e], 1⟩], none]) := by decide

/-- TV-N11, TV-N16. -/
theorem test_count_faults :
    endOf .count (sized { State.reset with charlen := 1, inlen := 9 } fun p => { p with inCap := 4 }) =
        some (0x00000034, 0, 0) ∧
      endOf .count (sized (loaded 3 1 [a, b, c]) fun p => { p with symCap := 2 }) =
        some (0x00000044, 0, 0) := by decide

/-- TV-B4: ties between leaves, and between leaves and an Internal node. -/
theorem test_build_abracadabra :
    (nextOf (exec .build (withTables State.reset [[⟨[a], 5⟩, ⟨[b], 2⟩, ⟨[r], 2⟩, ⟨[c], 1⟩, ⟨[d], 1⟩]]))).map
        (fun t => (t.status, t.arena 0)) =
      some (0x00000002, some [.leaf [a] 5, .leaf [b] 2, .leaf [r] 2, .leaf [c] 1, .leaf [d] 1,
        .internal 4 3 2, .internal 2 1 4, .internal 6 5 6, .internal 7 0 11]) := by decide

/-- TV-N18. -/
theorem test_build_capacity :
    endOf .build (sized { State.reset with nseg := 3 } fun p => { p with segCap := 2 }) =
      some (0x00000044, 0, 0) := by decide

/-- TV-G14. -/
theorem test_gen_order :
    (nextOf (exec .gen (withTrees State.reset
        [[.leaf [a] 2, .leaf [b] 3, .leaf [c] 4, .internal 1 0 5, .internal 3 2 9]]))).map
        (fun t => (t.status, t.codeTable 0)) =
      some (0x00000002, some [⟨[b], [false, false]⟩, ⟨[a], [false, true]⟩, ⟨[c], [true]⟩]) := by decide

/-- TV-G7. -/
theorem test_gen_single_leaf :
    (nextOf (exec .gen (lone ""))).map (fun t => t.codeTable 0) = some (some [⟨[a], [false]⟩]) := by decide

/-- TV-C2, TV-B2, TV-G2. -/
theorem test_buildCodes_ties :
    (nextOf (exec .buildCodes (loaded 2 1 [a, b, a, b]))).map
        (fun t => (t.nseg, t.arena 1, [t.codeTable 0, t.codeTable 1])) =
      some (2, some treeTie, [some codesTie, some codesTie]) := by decide

/-- TV-E3. -/
theorem test_encode_short_symbols :
    (nextOf (exec .encode (withCodes (loaded 3 2 [a, b, c, d, e])
        [[⟨[c], [false]⟩, ⟨[a, b], [true]⟩], [⟨[d, e], [false]⟩]]))).map
        (fun t => (t.status, t.bitlen, t.stream)) =
      some (0x00000002, 3, some (bits "100")) := by decide

/-- TV-L1, TV-L2. -/
theorem test_encode_lookup :
    endOf .encode { aaabCoded with imem := Window.write aaabCoded.imem 3 c } = some (0x00000014, 0, 3) ∧
      endOf .encode { aaabCoded with seglen := 2 } = some (0x00000014, 1, 0) := by decide

/-- TV-D3. -/
theorem test_decode_short_symbols :
    (nextOf (exec .decode (withBits (withTrees (loaded 3 2 [])
        [[.leaf [a, b] 1, .leaf [c] 1, .internal 1 0 2], [.leaf [d, e] 1]]) (bits "100")))).map
        (fun t => (t.status, t.outlen, t.output)) =
      some (0x00000002, 5, some [a, b, c, d, e]) := by decide

/-- TV-D13, TV-D14, TV-D16, TV-D17. -/
theorem test_decode_faults :
    endOf .decode (twin "1") = some (0x00000024, 0, 1) ∧ endOf .decode (twin "10") = some (0x00000024, 1, 0) ∧
      endOf .decode (lone "0100") = some (0x00000064, 0, 1) ∧
      endOf .decode (withBits aaabCoded (bits "00010")) = some (0x00000064, 1, 0) := by decide

/-! ## The host port -/

/-- The state with one line of a host script to execute. -/
def issuing (s : State) (x : HostTxn) : State := { s with script := [x] }

/-- TV-N4. -/
theorem test_reserved_word :
    (nextOf (step (issuing State.reset (.wrreg 0 0x00000011)))).map (fun t => (t.status, t.errseg, t.errpos)) =
      some (0x00000054, 0, 0) := by decide

/-- TV-H6: the write to OMEM is ignored, the read returns what DECODE wrote. -/
theorem test_omem_read_only :
    ((nextOf (exec .decode aaabEncoded)).bind fun t => nextOf (step (issuing t (.wrmem (.omem 0 0x7A))))).map
        (fun t => t.output) = some (some [a, a, a, b]) := by decide

/-- TV-H10. -/
theorem test_rdmem_ct :
    (nextOf (step (issuing aaabCoded (.rdmem (.ct 0 1))))).map (fun t => t.reads) =
      some [.ct (.record ⟨[b], [true]⟩)] := by decide

/-- `"aaab"`'s code table with a stray codeword bit in entry 1 (CWLEN 1, SLEN 1, "b", CWBITS 0b11 from bit
64 + 32), written by the host. -/
def strayBits : Nat := 0x3000000620000000100000001
def aaabSmall : State := sized aaabCoded fun p => { p with symCap := 4 }
def aaabStray : State := writeMem aaabSmall (.ctBits 0 1 strayBits)

/-- R45, V8: the write is done, the element is read back, and only ENCODE refuses it (U4). -/
theorem test_stray_bits :
    (nextOf (step (issuing aaabSmall (.wrmem (.ctBits 0 1 strayBits))))).isSome = true ∧
      (nextOf (step (issuing aaabStray (.rdmem (.ct 0 1))))).map (fun t => t.reads) =
        some [.ct (.bits strayBits)] := by decide

theorem test_stray_bits_refused : exec .encode aaabStray = .refused (.illFormed .ct 0) := by rfl

/-- R45, R68: a codeword longer than CWMAX is stored with its CWLEN, and ENCODE refuses the table (U4). -/
theorem test_long_codeword :
    (nextOf (step (issuing (sized aaabCoded fun p => { p with symCap := 2 })
        (.wrmem (.ct 0 1 ⟨[b], [true, true]⟩))))).map (fun t => (t.element (.ct 0 1), t.codeTable 0)) =
      some (some (.ct (.bits 0x1000000620000000100000002)), none) := by decide

/-- R73, with the operands in place and with operands of the host. -/
theorem test_script_decode :
    scriptDecode none none 4 1 = [.wrreg 2 4, .wrreg 3 1, .wrreg 0 6, .rdreg 1] ∧
      scriptDecode (some [true]) (some [[.leaf [a] 4]]) 4 1 =
        [.wrreg 2 4, .wrreg 3 1, .wrmem (.bitmem 0 true), .wrreg 6 1, .wrmem (.tree 0 0 (.leaf [a] 4)),
          .wrmem (.treeN 0 1), .wrreg 5 1, .wrreg 0 6, .rdreg 1] := by decide

theorem test_script_encode :
    scriptEncode none none = [.wrreg 0 5, .rdreg 1] ∧
      scriptEncode (some ([a], 4, 1)) (some [[⟨[a], [false]⟩], []]) =
        [.wrreg 2 4, .wrreg 3 1, .wrmem (.imem 0 a), .wrreg 4 1, .wrmem (.ct 0 0 ⟨[a], [false]⟩),
          .wrmem (.ctN 0 1), .wrmem (.ctN 1 0), .wrreg 5 2, .wrreg 0 5, .rdreg 1] := by decide

/-- TV-R2. -/
theorem test_reset_clears_fault :
    (nextOf (step (issuing { State.reset with status := 0x00000014, errseg := 1 } .reset))).map
        (fun t => (t.status, t.errseg)) = some (0, 0) := by decide

/-- The word that `withFetchWord` places is the next thing that runs. -/
theorem test_withFetchWord :
    (nextOf (step (State.reset.withFetchWord 32 0x00000001))).map (fun t => t.status) = some 0x00000034 := by decide

/-! ## Witnesses of the hypotheses -/

theorem witness_CommandWordsOfTheOpcodeMap :
    7 ≤ (0x00000007 : Word).toNat % 16 ∧ 7 ≤ (0x0000000F : Word).toNat % 16 ∧ 16 ≤ (0x00000010 : Word).toNat ∧
      16 ≤ (0xFFFFFFF0 : Word).toNat := by decide

theorem witness_FrequencyEntryLayout :
    (⟨[a, b], 2 ^ 32 - 1⟩ : FtEntry).fits layoutParams = true ∧ [a, b][1]? = some b ∧
      unpackFt layoutParams 0x630000000100000001 = some ⟨[c], 1⟩ ∧ 2 ^ 80 - 1 < 2 ^ (64 + symBits layoutParams) := by
  decide

theorem witness_TreeNodeLayout :
    (TreeNode.leaf [a, b] (2 ^ 32 - 1)).fits layoutParams = true ∧ [a, b][1]? = some b ∧
      (TreeNode.internal (2 ^ 32 - 1) (2 ^ 32 - 1) 4).fits layoutParams = true ∧
      unpackNode layoutParams 0x200000005 = some (.internal 1 0 2) ∧
      unpackNode layoutParams 0xC40000000200000002 = some (.leaf [b] 1) ∧
      2 ^ 97 - 1 < 2 ^ (65 + max (symBits layoutParams) 32) := by decide

theorem witness_CodeEntryLayout :
    (⟨[c], [false, true, true]⟩ : CtEntry).fits layoutParams = true ∧ [c][0]? = some c ∧
      ([c].length ≤ 1 ∧ 1 < layoutParams.symW) ∧ [false, true, true][2]? = some true ∧
      unpackCt layoutParams 0x100620000000100000001 = some ⟨[b], [true]⟩ ∧
      2 ^ 83 - 1 < 2 ^ (64 + symBits layoutParams + cwMax layoutParams) := by decide

theorem witness_ByteViewOfTheStream :
    (bits "0001")[3]? = some true ∧ (bits "0001").length ≤ 4 ∧
      (bytesOfBits (bits "0001"))[4 / 8]? = some 0x10 ∧ (bytesOfBits (bits "0001"))[7 / 8]? = some 0x10 := by decide

/-- Every command ends, and every fault of R146 that a command can end with occurs. -/
theorem witness_CommandsEndDoneOrInTheirFaults :
    endOf .nop State.reset = some (statusOfDone, 0, 0) ∧
      endOf .count State.reset = some (statusOfFault .config, 0, 0) ∧
      endOf .count (sized aaab fun p => { p with symCap := 1 }) = some (statusOfFault .capacity, 0, 0) ∧
      endOf .buildCodes State.reset = some (statusOfFault .config, 0, 0) ∧
      endOf .buildCodes (sized aaab fun p => { p with symCap := 1 }) = some (statusOfFault .capacity, 0, 0) ∧
      endOf .build (sized aaabCoded fun p => { p with segCap := 0 }) = some (statusOfFault .capacity, 0, 0) ∧
      endOf .gen (sized aaabCoded fun p => { p with segCap := 0 }) = some (statusOfFault .capacity, 0, 0) := by decide

theorem witness_CommandsEndDoneOrInTheirFaults_streams :
    endOf .encode State.reset = some (statusOfFault .config, 0, 0) ∧
      endOf .encode (sized aaabCoded fun p => { p with bitCap := 3 }) = some (statusOfFault .capacity, 0, 0) ∧
      endOf .encode { aaabCoded with nseg := 0 } = some (statusOfFault .lookup, 0, 0) ∧
      endOf .decode State.reset = some (statusOfFault .config, 0, 0) ∧
      endOf .decode (sized aaabEncoded fun p => { p with outCap := 3 }) = some (statusOfFault .capacity, 0, 0) ∧
      endOf .decode (twin "") = some (statusOfFault .trunc, 0, 0) ∧
      endOf .decode (lone "1") = some (statusOfFault .badstream, 0, 0) := by decide

theorem witness_CommandsKeepWhatTheyDoNotWrite :
    ∃ t, exec .encode aaabCoded = .next t ∧ 5 ∉ writesReg .encode ∧ Win.ct ∉ writesWin .encode :=
  ⟨_, rfl, by decide⟩

/-- COUNT reads neither OMEM nor OUTLEN. -/
theorem witness_CommandsReadOnlyTheirOperands :
    ∃ s' t, s'.params = aaab.params ∧ (∀ n ∈ readsReg .count, readReg s' n = readReg aaab n) ∧
      (∀ w ∈ readsWin .count, SameWindow w aaab s') ∧ s' ≠ aaab ∧ exec .count aaab = .next t ∧
      t.status = statusOfDone := by
  refine ⟨{ aaab with omem := [(0, a)], outlen := 1 }, _, rfl, by decide, ?_, by decide, rfl, rfl⟩
  intro w hw x hx
  cases x <;> first | rfl | (subst hx; exact absurd (show Win.omem ∈ readsWin .count from hw) (by decide))

theorem witness_CommandsReadOnlyTheirOperands_refused :
    ∃ x, exec .count { aaab with imem := [] } = .refused x := ⟨_, rfl⟩

theorem witness_CommandsReadOnlyTheirOperands_fault :
    ∃ t, exec .decode (twin "1") = .next t ∧ statusFault t.status = true ∧ t.status ≠ statusOfFault .config :=
  ⟨_, rfl, by decide⟩

theorem witness_FaultLeavesOutputsWithoutValue :
    ∃ t, exec .decode (twin "1") = .next t ∧ statusFault t.status = true ∧ t.status ≠ statusOfFault .config ∧
      (WinAddr.omem 0).win ∈ writesWin .decode := ⟨_, rfl, by decide⟩

theorem witness_CommandsAreIdempotent :
    ∃ t, exec .buildCodes aaab = .next t ∧ t.status = statusOfDone := ⟨_, rfl, by decide⟩

theorem witness_GenAndDecodeIgnoreFrequencies :
    ∃ (g : Nat → Nat → Nat) (tree' : Table (Stored TreeNode)) (t u : State),
      tree' = aaabEncoded.tree.map
        (fun kw => (kw.1, List.map (fun nv => (nv.1, nv.2.map (TreeNode.setFreq (g kw.1 nv.1)))) kw.2)) ∧
      tree' ≠ aaabEncoded.tree ∧ exec .gen aaabEncoded = .next t ∧ exec .decode aaabEncoded = .next u :=
  ⟨fun _ n => n, _, _, _, rfl, by decide, rfl, rfl⟩

theorem witness_SegmentsCutTheInput :
    ∃ ys, 1 ≤ 3 ∧ 1 ≤ 2 ∧ [a, b, c, d, e].length ≤ 2 * 3 ∧ (segments [a, b, c, d, e] 3 2)[0]? = some ys ∧
      0 + 1 < (segments [a, b, c, d, e] 3 2).length := ⟨_, by decide, by decide, by decide, rfl, by decide⟩

theorem witness_SymbolsCutTheSegment :
    [[a, b], [c]] ∈ segments [a, b, c, d, e] 3 2 ∧ [[a, b], [c]][0]? = some [a, b] ∧ 0 + 1 < [[a, b], [c]].length := by
  decide

theorem witness_SegmentationCoversTheInputOnce :
    1 ≤ 3 ∧ 1 ≤ 2 ∧ [[d, e]] ∈ segments [a, b, c, d, e] 3 2 ∧ [d, e] ∈ [[d, e]] := by decide

theorem witness_CountCompletes : CountReady aaab [a, a, a, b] := by decide

/-- The empty input, with segment 0 already at or above NSEG. -/
theorem witness_CountCompletes_empty : CountReady (loaded 4 1 []) [] := by decide

theorem witness_CountCompletes_segments :
    (segments [a, a, a, b] 4 1)[0]? = some [[a], [a], [a], [b]] ∧
      (frequencyTable [[a], [a], [a], [b]]).length ≤ 2 := by decide

theorem witness_CountEstablishesItsTables :
    ∃ t, aaab.input = some [a, a, a, b] ∧ exec .count aaab = .next t ∧ t.status = statusOfDone ∧ 0 < t.nseg.toNat :=
  ⟨_, by decide, rfl, by decide⟩

theorem witness_ZeroLengthsAreConfigFaults :
    { aaab with seglen := 0 }.seglen = 0 ∧ { aaab with charlen := 0 }.charlen = 0 := by decide

theorem witness_ZeroLengthsAreConfigFaults_never :
    ∃ t u, exec .build aaabCoded = .next t ∧ exec .gen aaabCoded = .next u := ⟨_, _, rfl, rfl⟩

/-- Each capacity exceeded by one. -/
theorem witness_CapacityChecksBeforeWork_nseg :
    (sized aaabCoded fun p => { p with segCap := 0 }).params.segCap < aaabCoded.nseg.toNat ∧
      1 ≤ aaabCoded.seglen.toNat ∧ 1 ≤ aaabCoded.charlen.toNat := by decide

theorem witness_CapacityChecksBeforeWork_inlen :
    (sized aaab fun p => { p with inCap := 3 }).params.inCap < aaab.inlen.toNat ∧
      1 ≤ aaab.seglen.toNat ∧ 1 ≤ aaab.charlen.toNat := by decide

theorem witness_CapacityChecksBeforeWork_segments :
    (sized aaab fun p => { p with segCap := 0 }).params.segCap < cdiv aaab.inlen.toNat aaab.seglen.toNat ∧
      1 ≤ aaab.seglen.toNat ∧ 1 ≤ aaab.charlen.toNat := by decide

theorem witness_CapacityChecksBeforeWork_symbol :
    (sized (loaded 4 2 [a, b]) fun p => { p with symW := 1 }).params.symW <
        min (2 : Word).toNat (min (4 : Word).toNat 2) ∧
      0 < (loaded 4 2 [a, b]).inlen.toNat ∧ 1 ≤ (4 : Word).toNat ∧ 1 ≤ (2 : Word).toNat := by decide

theorem witness_CapacityChecksBeforeWork_bitlen :
    (sized aaabEncoded fun p => { p with bitCap := 3 }).params.bitCap < aaabEncoded.bitlen.toNat ∧
      1 ≤ aaabEncoded.seglen.toNat ∧ 1 ≤ aaabEncoded.charlen.toNat := by decide

theorem witness_CapacityFaultsWhileWorking_symbols :
    1 ≤ aaab.seglen.toNat ∧ 1 ≤ aaab.charlen.toNat ∧
      (sized aaab fun p => { p with symCap := 1 }).input = some [a, a, a, b] ∧
      ∃ ys ∈ segments [a, a, a, b] aaab.seglen.toNat aaab.charlen.toNat,
        (sized aaab fun p => { p with symCap := 1 }).params.symCap < (firstOccurrences ys).length := by decide

/-- The third codeword passes BITCAP = 2, and the fourth symbol has no entry. -/
theorem witness_CapacityFaultsWhileWorking_bits :
    ∃ s, s = sized { aaabCoded with imem := Window.ofList [a, a, a, c] } (fun p => { p with bitCap := 2 }) ∧
      EncodeReady s [a, a, a, c] (fun _ => codesAB) ∧
      [[[a], [a], [a], [c]]] = segments [a, a, a, c] s.seglen.toNat s.charlen.toNat ∧
      [[[a], [a], [a], [c]]][0]? = some [[a], [a], [a], [c]] ∧ 2 < [[a], [a], [a], [c]].length ∧ 0 < s.nseg.toNat ∧
      (∀ z ∈ [[a], [a], [a], [c]].take 3, HasEntry codesAB z) ∧ ¬ HasEntry codesAB [c] ∧
      s.params.bitCap < (streamOf (fun _ => codesAB) 0 ([[[a], [a], [a], [c]]].take 0 ++
        [[[a], [a], [a], [c]].take 3])).length :=
  ⟨_, rfl, by decide⟩

/-- The entries of the segments that the streams of `aaabEncoded` and `twin "1010"` are made of. -/
def segsAB : List (List CtEntry) := [[⟨[a], [false]⟩, ⟨[a], [false]⟩, ⟨[a], [false]⟩, ⟨[b], [true]⟩]]
def segsTwin : List (List CtEntry) := [[⟨[a], [true]⟩, ⟨[b], [false]⟩], [⟨[a], [true]⟩, ⟨[b], [false]⟩]]

/-- The second symbol passes OUTCAP = 1 before a later `1` bit of a single-leaf segment. -/
theorem witness_CapacityFaultsWhileWorking_output :
    ∃ s, s = sized (lone "001") (fun p => { p with outCap := 1 }) ∧
      DecodeReady s (bits "001") (fun _ => [.leaf [a] 4]) ∧ 0 < s.nseg.toNat ∧
      FromTrees (fun _ => [.leaf [a] 4]) ([] ++ [[⟨[a], [false]⟩, ⟨[a], [false]⟩]]) ∧
      [(⟨[a], [false]⟩ : CtEntry), ⟨[a], [false]⟩].length ≤ fullCount s ∧
      bits "001" = bitsOf ([] ++ [[⟨[a], [false]⟩, ⟨[a], [false]⟩]]) ++ [true] ∧
      s.params.outCap < (unitsOf ([] ++ [[⟨[a], [false]⟩, ⟨[a], [false]⟩]])).length :=
  ⟨_, rfl, by decide⟩

/-- A full segment before the one that passes OUTCAP = 2. -/
theorem witness_CapacityFaultsWhileWorking_output_second :
    ∃ s, s = sized (twin "1010") (fun p => { p with outCap := 2 }) ∧ DecodeReady s (bits "1010") (fun _ => treeTie) ∧
      (segsTwin.take 1).length < s.nseg.toNat ∧ FromTrees (fun _ => treeTie) (segsTwin.take 1 ++ segsTwin.drop 1) ∧
      (∀ i < (segsTwin.take 1).length, ((segsTwin.take 1).getD i []).length = fullCount s) ∧
      (segsTwin.getD 1 []).length ≤ fullCount s ∧
      bits "1010" = bitsOf (segsTwin.take 1 ++ segsTwin.drop 1) ++ [] ∧
      s.params.outCap < (unitsOf (segsTwin.take 1 ++ segsTwin.drop 1)).length :=
  ⟨_, rfl, by decide⟩

theorem witness_BuildCompletes : BuildReady aaabCoded (fun _ => tableAB) := by decide

theorem witness_TreesHaveTheirLeavesFirst :
    tableAB ≠ [] ∧ tableAB[1]? = some ⟨[b], 1⟩ ∧ tableAB.length ≤ 2 ∧ 2 < 2 * tableAB.length - 1 := by decide

theorem witness_MergesTakeTheTwoLowest : 0 + 1 < tableAB.length := by decide

theorem witness_MergesTakeTheTwoLowest_waiting :
    Waiting (buildTree tableAB) tableAB.length 0 0 ∧ Waiting (buildTree tableAB) tableAB.length 0 1 := by
  refine ⟨⟨by decide, ?_⟩, ⟨by decide, ?_⟩⟩ <;> intro j node hj hn <;>
    (have : j = 0 ∨ j = 1 := by simp [tableAB] at hj; omega) <;>
    rcases this with rfl | rfl <;> (cases hn; rfl)

theorem witness_BuildEstablishesItsTrees :
    ∃ t, exec .build aaabCoded = .next t ∧ t.status = statusOfDone ∧ 0 < aaabCoded.nseg.toNat :=
  ⟨_, rfl, by decide⟩

theorem witness_BuiltCodesAreOptimal :
    ∃ code : List (List Bool), wfFt Config.params tableAB = true ∧ code.length = tableAB.length ∧
      (∀ w ∈ code, w ≠ []) ∧
      ∀ (i j : Nat) (v w : List Bool), i ≠ j → code[i]? = some v → code[j]? = some w → ¬ v <+: w := by
  refine ⟨[[true], [false]], by decide, by decide, by decide, ?_⟩
  intro i j v w h hi hj
  match i, j with
  | 0, 0 => exact absurd rfl h
  | 0, 1 => cases hi; cases hj; decide
  | 1, 0 => cases hi; cases hj; decide
  | 1, 1 => exact absurd rfl h
  | n + 2, _ => simp at hi
  | _, n + 2 => simp at hj

theorem witness_MoreFrequentIsNotLonger :
    wfFt Config.params tableAB = true ∧ ⟨[a], 3⟩ ∈ tableAB ∧ ⟨[b], 1⟩ ∈ tableAB ∧
      (⟨[b], 1⟩ : FtEntry).cnt < (⟨[a], 3⟩ : FtEntry).cnt := by decide

theorem witness_GenCompletes : TreesReady aaabCoded (fun _ => treeAB) := by decide

/-- GEN on `"aaab"`'s tree: the hypotheses of CodewordsArePathsFromTheRoot, CodeTableStandsInTraversalOrder and
CodeTablesArePrefixFree, with an Internal root. -/
theorem witness_CodewordsArePathsFromTheRoot :
    ∃ t, Generated aaabCoded t 0 treeAB codesAB ∧ treeAB.getLast? = some (TreeNode.internal 0 1 4) :=
  ⟨_, ⟨rfl, by decide⟩, by decide⟩

theorem witness_CodewordsArePathsFromTheRoot_single_leaf :
    ∃ t, Generated (lone "") t 0 [.leaf [a] 4] [⟨[a], [false]⟩] ∧
      [TreeNode.leaf [a] 4].getLast? = some (TreeNode.leaf [a] 4) := ⟨_, ⟨rfl, by decide⟩, by decide⟩

theorem witness_CodeTableStandsInTraversalOrder : ∃ t, Generated aaabCoded t 0 treeAB codesAB :=
  ⟨_, rfl, by decide⟩

theorem witness_CodeTablesArePrefixFree :
    ∃ t, Generated aaabCoded t 0 treeAB codesAB ∧ codesAB[0]? = some ⟨[a], [false]⟩ ∧
      codesAB[1]? = some ⟨[b], [true]⟩ := ⟨_, ⟨rfl, by decide⟩, by decide⟩

theorem witness_GenEstablishesItsTables :
    ∃ t, exec .gen aaabCoded = .next t ∧ t.status = statusOfDone ∧ 0 < aaabCoded.nseg.toNat :=
  ⟨_, rfl, by decide⟩

theorem witness_CodewordLengthsAreBounded :
    (wfTree Config.params treeAB = true ∧ ⟨[b], [true]⟩ ∈ genTable treeAB ∧ 1 < treeAB.length) ∧
      wfTree Config.params [.leaf [a] 4] = true ∧ ⟨[a], [false]⟩ ∈ genTable [.leaf [a] 4] ∧
      [TreeNode.leaf [a] 4].length = 1 := by decide

theorem witness_BuildCodesIsCountBuildGen : CountReady aaab [a, a, a, b] := by decide

theorem witness_BuildCodesFaultsAsCount :
    ∃ t, exec .count State.reset = .next t ∧ statusFault t.status = true := ⟨_, rfl, by decide⟩

theorem witness_EncodeCompletes :
    aaabCoded.params.wf = true ∧ EncodeReady aaabCoded [a, a, a, b] (fun _ => codesAB) ∧
      [[[a], [a], [a], [b]]] = segments [a, a, a, b] aaabCoded.seglen.toNat aaabCoded.charlen.toNat ∧
      [[[a], [a], [a], [b]]].length ≤ aaabCoded.nseg.toNat ∧
      (∀ i < 1, ∀ y ∈ [[[a], [a], [a], [b]]].getD i [], HasEntry codesAB y) ∧
      (streamOf (fun _ => codesAB) 0 [[[a], [a], [a], [b]]]).length ≤ aaabCoded.params.bitCap := by decide

/-- A symbol without an entry, the last of the segment (TV-L1). -/
theorem witness_EncodeLookupFault_symbol :
    ∃ s, s = { aaabCoded with imem := Window.ofList [a, a, a, c] } ∧
      EncodeReady s [a, a, a, c] (fun _ => codesAB) ∧
      [[[a], [a], [a], [c]]] = segments [a, a, a, c] s.seglen.toNat s.charlen.toNat ∧
      [[[a], [a], [a], [c]]][0]? = some [[a], [a], [a], [c]] ∧ [[a], [a], [a], [c]][3]? = some [c] ∧
      0 < s.nseg.toNat ∧ ¬ HasEntry codesAB [c] ∧ (∀ z ∈ [[a], [a], [a], [c]].take 3, HasEntry codesAB z) ∧
      (streamOf (fun _ => codesAB) 0 ([[[a], [a], [a], [c]]].take 0 ++ [[[a], [a], [a], [c]].take 3])).length ≤
        s.params.bitCap :=
  ⟨_, rfl, by decide⟩

/-- A segment without a table, the first at NSEG (TV-L2). -/
theorem witness_EncodeLookupFault_segment :
    ∃ s, s = { aaabCoded with seglen := 2 } ∧
      EncodeReady s [a, a, a, b] (fun _ => codesAB) ∧
      [[[a], [a]], [[a], [b]]] = segments [a, a, a, b] s.seglen.toNat s.charlen.toNat ∧
      [[[a], [a]], [[a], [b]]][1]? = some [[a], [b]] ∧ [[a], [b]][0]? = some [a] ∧ s.nseg.toNat ≤ 1 ∧
      (∀ i' < 1, i' < s.nseg.toNat ∧ ∀ z ∈ [[[a], [a]], [[a], [b]]].getD i' [], HasEntry codesAB z) ∧
      (streamOf (fun _ => codesAB) 0 ([[[a], [a]], [[a], [b]]].take 1 ++ [[[a], [b]].take 0])).length ≤
        s.params.bitCap :=
  ⟨_, rfl, by decide⟩

/-- Two segments (TV-D2). -/
theorem witness_DecodeCompletes :
    ∃ s, s = twin "1010" ∧ s.params.wf = true ∧ DecodeReady s (bits "1010") (fun _ => treeTie) ∧
      segsTwin.length = s.nseg.toNat ∧ FromTrees (fun _ => treeTie) segsTwin ∧
      (∀ i < segsTwin.length, (i + 1 < segsTwin.length → (segsTwin.getD i []).length = fullCount s) ∧
        1 ≤ (segsTwin.getD i []).length ∧ (segsTwin.getD i []).length ≤ fullCount s) ∧
      bits "1010" = bitsOf segsTwin ∧ (unitsOf segsTwin).length ≤ s.params.outCap :=
  ⟨_, rfl, by decide⟩

/-- The bits end before a segment that is not the last is complete (TV-D13). -/
theorem witness_DecodeTruncationFault :
    ∃ s, s = twin "1" ∧ DecodeReady s (bits "1") (fun _ => treeTie) ∧ ([] : List (List CtEntry)).length < s.nseg.toNat ∧
      FromTrees (fun _ => treeTie) ([] ++ [[⟨[a], [true]⟩]]) ∧ [(⟨[a], [true]⟩ : CtEntry)].length < fullCount s ∧
      ⟨[b], [false]⟩ ∈ genTable treeTie ∧ ([] : List Bool) <+: [false] ∧ ([] : List Bool) ≠ [false] ∧
      0 + 1 ≠ s.nseg.toNat ∧ bits "1" = bitsOf ([] ++ [[⟨[a], [true]⟩]]) ++ [] ∧
      (unitsOf ([] ++ [[⟨[a], [true]⟩]])).length ≤ s.params.outCap :=
  ⟨_, rfl, by decide⟩

/-- The bits end before the last segment has any symbol (TV-D14). -/
theorem witness_DecodeTruncationFault_last :
    ∃ s, s = twin "10" ∧ DecodeReady s (bits "10") (fun _ => treeTie) ∧ (segsTwin.take 1).length + 1 = s.nseg.toNat ∧
      FromTrees (fun _ => treeTie) (segsTwin.take 1 ++ [[]]) ∧
      (∀ i < (segsTwin.take 1).length, ((segsTwin.take 1).getD i []).length = fullCount s) ∧ 0 < fullCount s ∧
      bits "10" = bitsOf (segsTwin.take 1 ++ [[]]) ++ [] ∧
      (unitsOf (segsTwin.take 1 ++ [[]])).length ≤ s.params.outCap :=
  ⟨_, rfl, by decide⟩

/-- A tree with codewords of two bits. -/
def treeABC : List TreeNode := [.leaf [a] 2, .leaf [b] 3, .leaf [c] 4, .internal 1 0 5, .internal 3 2 9]

/-- The bits end inside a codeword of the last segment. -/
theorem witness_DecodeTruncationFault_inside :
    ∃ s, s = withBits (withTrees (loaded 9 1 []) [treeABC]) (bits "10") ∧
      DecodeReady s (bits "10") (fun _ => treeABC) ∧ 0 < s.nseg.toNat ∧
      FromTrees (fun _ => treeABC) ([] ++ [[⟨[c], [true]⟩]]) ∧ [(⟨[c], [true]⟩ : CtEntry)].length < fullCount s ∧
      ⟨[a], [false, true]⟩ ∈ genTable treeABC ∧ [false] <+: [false, true] ∧ [false] ≠ [false, true] ∧
      bits "10" = bitsOf ([] ++ [[⟨[c], [true]⟩]]) ++ [false] ∧
      (unitsOf ([] ++ [[⟨[c], [true]⟩]])).length ≤ s.params.outCap :=
  ⟨_, rfl, by decide⟩

/-- A `1` behind the first symbol of a single-leaf segment (TV-D16). -/
theorem witness_DecodeSingleLeafBitFault :
    ∃ s, s = lone "0100" ∧ DecodeReady s (bits "0100") (fun _ => [.leaf [a] 4]) ∧ 0 < s.nseg.toNat ∧
      FromTrees (fun _ => [.leaf [a] 4]) ([] ++ [[⟨[a], [false]⟩]]) ∧
      [(⟨[a], [false]⟩ : CtEntry)].length < fullCount s ∧ [TreeNode.leaf [a] 4].length = 1 ∧
      bits "0100" = bitsOf ([] ++ [[⟨[a], [false]⟩]]) ++ true :: [false, false] ∧
      (unitsOf ([] ++ [[⟨[a], [false]⟩]])).length ≤ s.params.outCap :=
  ⟨_, rfl, by decide⟩

/-- One bit behind a full last segment (TV-D17). -/
theorem witness_DecodeTrailingBitsFault :
    ∃ s, s = withBits aaabCoded (bits "00010") ∧ DecodeReady s (bits "00010") (fun _ => treeAB) ∧
      segsAB.length = s.nseg.toNat ∧ FromTrees (fun _ => treeAB) segsAB ∧
      (∀ i < segsAB.length, (segsAB.getD i []).length = fullCount s) ∧ [false] ≠ [] ∧
      bits "00010" = bitsOf segsAB ++ [false] ∧ (unitsOf segsAB).length ≤ s.params.outCap :=
  ⟨_, rfl, by decide⟩

/-- One bit and no segment (TV-D18). -/
theorem witness_DecodeTrailingBitsFault_no_segment :
    ∃ s, s = withBits (loaded 4 1 []) (bits "0") ∧ DecodeReady s (bits "0") (fun _ => []) ∧
      ([] : List (List CtEntry)).length = s.nseg.toNat ∧ bits "0" = bitsOf [] ++ [false] ∧
      (unitsOf []).length ≤ s.params.outCap :=
  ⟨_, rfl, by decide⟩

/-- Scenario 1 (program P1). -/
theorem witness_RoundTrip :
    ∃ s, s = { aaab with script := scriptCmd .buildCodes ++ scriptCmd .encode ++ scriptCmd .decode ++ [] } ∧
      s.params.wf = true ∧ CountReady s [a, a, a, b] ∧ s.inlen.toNat ≤ s.params.outCap ∧
      statusBusy s.status = false ∧ statusFault s.status = false ∧
      ∀ t u, step s = .next t → step t = .next u → u.status ≠ statusOfFault .capacity := by
  refine ⟨_, rfl, by decide, by decide, by decide, by decide, by decide, ?_⟩
  intro t u h₁ h₂
  cases h₁
  cases h₂
  decide

theorem witness_CommandsRefuseOnlyWithoutMeaning :
    ∃ v w x y z, exec .count { aaab with imem := [] } = .refused v ∧
      exec .build { State.reset with nseg := 1 } = .refused w ∧
      exec .gen { State.reset with nseg := 1 } = .refused x ∧ exec .encode aaabStray = .refused (.illFormed .ct 0) ∧
      exec .encode { aaabCoded with ct := [] } = .refused y ∧
      exec .decode { aaabEncoded with bitmem := [] } = .refused z := ⟨_, _, _, _, _, rfl, rfl, rfl, rfl, rfl, rfl⟩

theorem witness_CommandsRefuseOperandsWithoutMeaning :
    ((1 : Word).toNat ≤ Config.params.segCap ∧ 0 < (1 : Word).toNat ∧
        { State.reset with nseg := 1 }.freqTable 0 = none ∧ { State.reset with nseg := 1 }.arena 0 = none) ∧
      (countChecks { aaab with imem := [] } = .ok () ∧ { aaab with imem := [] }.input = none) ∧
      (encodeChecks { aaabCoded with ct := [] } = .ok () ∧ { aaabCoded with ct := [] }.codeTable 0 = none ∧
        0 < min aaabCoded.nseg.toNat (cdiv aaabCoded.inlen.toNat aaabCoded.seglen.toNat)) ∧
      (decodeChecks { aaabEncoded with bitmem := [] } = .ok () ∧ { aaabEncoded with bitmem := [] }.stream = none) ∧
      decodeChecks (withBits (withTrees (loaded 4 1 []) [[.leaf [] 1]]) []) = .ok () ∧
      (withTrees (loaded 4 1 []) [[.leaf [] 1]]).arena 0 = some [.leaf [] 1] ∧
      wfTree Config.params [.leaf [] 1] = false := by
  refine ⟨by decide, ⟨rfl, by decide⟩, ⟨rfl, by decide⟩, ⟨rfl, by decide⟩, rfl, by decide⟩

theorem witness_StepRunsTheDecodedCommand :
    Issues (issuing aaab (.wrreg 0 0x00000001)) (.wrreg 0 0x00000001) [] ∧ statusFault aaab.status = false ∧
      decode 0x00000001 = .ok .count := ⟨⟨rfl, rfl⟩, by decide⟩

theorem witness_ReservedWordIsBadCommand :
    Issues (issuing aaab (.wrreg 0 0x00000010)) (.wrreg 0 0x00000010) [] ∧ statusFault aaab.status = false ∧
      16 ≤ (0x00000010 : Word).toNat ∧ 7 ≤ (0x00000007 : Word).toNat % 16 := ⟨⟨rfl, rfl⟩, by decide⟩

/-- A faulted core. -/
def faulted : State := { State.reset with status := 0x00000014, errseg := 1, errpos := 3 }

theorem witness_FaultedCoreIgnoresCommands :
    Issues (issuing faulted (.wrreg 0 0)) (.wrreg 0 0) [] ∧ statusFault faulted.status = true := ⟨⟨rfl, rfl⟩, by decide⟩

theorem witness_OnlyResetClearsAFault :
    ∃ t, step (issuing faulted (.wrreg 2 4)) = .next t ∧ statusFault faulted.status = true ∧
      (issuing faulted (.wrreg 2 4)).script.head? ≠ some .reset := ⟨_, rfl, by decide⟩

theorem witness_ResetEventClearsAll : (issuing faulted .reset).script = .reset :: [] := rfl

/-- The lowest and the highest register number of each clause. -/
theorem witness_RegisterTransactions :
    Issues (issuing aaab (.rdreg 0)) (.rdreg 0) [] ∧ Issues (issuing aaab (.rdreg 15)) (.rdreg 15) [] ∧
      Issues (issuing aaab (.wrreg 1 7)) (.wrreg 1 7) [] ∧ Issues (issuing aaab (.wrreg 6 7)) (.wrreg 6 7) [] ∧
      Issues (issuing aaab (.wrreg 15 7)) (.wrreg 15 7) [] :=
  ⟨⟨rfl, rfl⟩, ⟨rfl, rfl⟩, ⟨rfl, rfl⟩, ⟨rfl, rfl⟩, ⟨rfl, rfl⟩⟩

/-- R10: a value of another window's kind, or wider than the element, is no element of IMEM. -/
theorem test_elements_of_imem :
    (HostRead.unit 0xFF).IsElementOf Config.params (.imem 0) ∧ ¬ (HostRead.bit false).IsElementOf Config.params (.imem 0) ∧
      ¬ (HostRead.reg 0).IsElementOf Config.params (.imem 0) ∧
      ¬ (HostRead.unit 0x100).IsElementOf Config.params (.imem 0) := by
  simp only [HostRead.IsElementOf]; decide

/-- The first and the last location of a window, written and not. -/
theorem witness_MemoryTransactions_read :
    Issues (issuing aaab (.rdmem (.imem 0))) (.rdmem (.imem 0)) [] ∧
      (WinAddr.imem 0).inWindow aaab.params = true ∧ aaab.element (.imem 0) = some (.unit a) ∧
      Issues (issuing aaab (.rdmem (.imem 65535))) (.rdmem (.imem 65535)) [] ∧
      (WinAddr.imem 65535).inWindow aaab.params = true ∧ aaab.element (.imem 65535) = none :=
  ⟨⟨rfl, rfl⟩, by decide, by decide, ⟨rfl, rfl⟩, by decide, by decide⟩

theorem witness_MemoryTransactions_write :
    Issues (issuing aaab (.wrmem (.ct 255 255 ⟨[a], [true]⟩))) (.wrmem (.ct 255 255 ⟨[a], [true]⟩)) [] ∧
      (WinWrite.ct 255 255 ⟨[a], [true]⟩).addr.inWindow aaab.params = true ∧
      (WinWrite.ct 255 255 ⟨[a], [true]⟩).addr.win ≠ .omem ∧
      (WinWrite.ct 255 255 ⟨[a], [true]⟩).value aaab.params = .ct (.record ⟨[a], [true]⟩) ∧
      (WinWrite.omem 0 a).addr.inWindow aaab.params = true ∧ (WinWrite.omem 0 a).addr.win = .omem :=
  ⟨⟨rfl, rfl⟩, by decide, by decide, by decide, by decide, by decide⟩

/-- The first index outside, for a register and for a window of each shape. -/
theorem witness_OutsideTheWindowIsRefused :
    15 < 16 ∧ (WinAddr.imem 65536).inWindow Config.params = false ∧ (WinAddr.ftN 256).inWindow Config.params = false ∧
      (WinAddr.tree 255 511).inWindow Config.params = false ∧ (WinAddr.ft 256 0).inWindow Config.params = false ∧
      (WinWrite.bitmem 1048576 true).addr.inWindow Config.params = false ∧
      (issuing aaab (.rdreg 16)).script = .rdreg 16 :: [] := by decide

theorem witness_BusyCoreAdmitsOnlyStatusAndReset :
    ∃ s, s = { aaab with status := 0x00000001, script := [.wrreg 2 4] } ∧ s.script = .wrreg 2 4 :: [] ∧
      statusBusy s.status = true ∧ HostTxn.wrreg 2 4 ≠ .rdreg 1 ∧ HostTxn.wrreg 2 4 ≠ .reset :=
  ⟨_, rfl, rfl, by decide⟩

theorem witness_CommandsStraightAfterReset :
    { State.reset with params := Config.params } = State.reset := rfl

theorem witness_StepsKeepMemoryCanonical :
    ∃ t, Memory.wf aaabEncoded = true ∧ step (issuing aaabEncoded (.wrreg 0 6)) = .next t := ⟨_, by decide, rfl⟩

theorem witness_StepsKeepStatusLegal :
    StatusLegal aaab.status ∧ StatusLegal statusOfDone ∧ StatusLegal faulted.status ∧
      ∃ t, step (issuing aaab (.wrreg 0 1)) = .next t := ⟨.inl rfl, .inr (.inl rfl), .inr (.inr ⟨.lookup, rfl⟩), _, rfl⟩

/-- Only units of IMEM have a value in `aaab`. -/
theorem aaab_element {x : WinAddr} {v : HostRead} (h : aaab.element x = some v) :
    ∃ i u, x = .imem i ∧ i < 4 ∧ u ∈ [a, a, a, b] ∧ v = .unit u := by
  cases x <;> try cases h
  rename_i i
  simp only [State.element, aaab, loaded, Window.read_ofList, Option.map_eq_some_iff] at h
  obtain ⟨u, hu, rfl⟩ := h
  exact ⟨i, u, rfl, (List.getElem?_eq_some_iff.1 hu).1, List.mem_of_getElem? hu, rfl⟩

theorem witness_StepsKeepLocationsInWindows :
    Memory.inWindows aaab ∧ ∃ t, step (issuing aaab (.wrreg 0 1)) = .next t := by
  refine ⟨?_, _, rfl⟩
  intro x hx
  obtain ⟨v, hv⟩ := Option.ne_none_iff_exists'.1 hx
  obtain ⟨i, u, rfl, hi, -, rfl⟩ := aaab_element hv
  exact decide_eq_true (show i < 65536 by omega)

theorem witness_StepsKeepValuesInFields :
    aaab.params.wf = true ∧ Memory.fits aaab ∧ ∃ t, step (issuing aaab (.wrreg 0 1)) = .next t := by
  refine ⟨by decide, ?_, _, rfl⟩
  intro x v hv
  obtain ⟨i, u, rfl, -, hu, rfl⟩ := aaab_element hv
  exact (show ∀ u ∈ [a, a, a, b], HostRead.fits aaab.params (.unit u) = true by decide) u hu

end Sys2Proof.Tests
end

section
/-! SUPPORT. Stored values and their fields (R9): what every location of a window satisfies, one field law for each
window, and what each update of State, a host write included, does to them. -/

namespace Sys2Proof.Machine

/-! ## What every location of a window satisfies -/

/-- Every value the window holds satisfies `P`. -/
def Window.All {α : Type} (P : α → Prop) (w : Window α) : Prop := ∀ i v, Window.read w i = some v → P v

/-- Every value the table memory holds satisfies `P`. -/
def Table.All {α : Type} (P : α → Prop) (t : Table α) : Prop := ∀ s e v, Table.read t s e = some v → P v

section
variable {α : Type} {P : α → Prop}

@[simp] theorem Window.all_nil : Window.All P [] := fun _ _ h => by simp at h

@[simp] theorem Table.all_nil : Table.All P [] := fun _ _ _ h => by simp at h

theorem Window.All.write {w : Window α} (h : Window.All P w) (i : Nat) {v : α} (hv : P v) :
    Window.All P (Window.write w i v) := by
  intro j u hu
  rw [Window.read_write] at hu
  split at hu
  · exact Option.some.inj hu ▸ hv
  · exact h j u hu

theorem Table.All.write {t : Table α} (h : Table.All P t) (s e : Nat) {v : α} (hv : P v) :
    Table.All P (Table.write t s e v) := by
  intro s' e' u hu
  rw [Table.read_write] at hu
  split at hu
  · exact Option.some.inj hu ▸ hv
  · exact h s' e' u hu

theorem Window.all_ofList {vs : List α} (h : ∀ v ∈ vs, P v) : Window.All P (Window.ofList vs) := by
  intro i v hv
  rw [Window.read_ofList] at hv
  exact h v (List.mem_of_getElem? hv)

theorem Table.all_ofRecords {P : Stored α → Prop} {ts : List (List α)} (h : ∀ t ∈ ts, ∀ r ∈ t, P (.record r)) :
    Table.All P (Table.ofRecords ts) := by
  intro s e v hv
  rw [Table.ofRecords, Table.read_ofLists, List.getD_eq_getElem?_getD, List.getElem?_map] at hv
  cases ht : ts[s]? with
  | none => simp [ht] at hv
  | some t =>
    obtain ⟨r, hr, rfl⟩ : ∃ r, t[e]? = some r ∧ Stored.record r = v := by simpa [ht] using hv
    exact h t (List.mem_of_getElem? ht) r (List.mem_of_getElem? hr)

/-- What is read from a range of a window satisfies what all its values satisfy. -/
theorem Window.All.readFrom {w : Window α} (h : Window.All P w) {i n : Nat} {vs : List α}
    (hr : Window.readFrom w i n = some vs) : ∀ v ∈ vs, P v := by
  intro v hv
  obtain ⟨hl, hall⟩ := Window.readFrom_eq_some.1 hr
  obtain ⟨j, hj, rfl⟩ := List.getElem_of_mem hv
  exact h (i + j) _ ((hall j (hl ▸ hj)).trans (List.getElem?_eq_getElem hj))

theorem Table.All.seg {t : Table α} (h : Table.All P t) (s : Nat) : Window.All P (Table.seg t s) := h s

/-- The records a table denotes satisfy what all elements of its memory satisfy. -/
theorem Table.All.tableOf {P : Stored α → Prop} {t : Table (Stored α)} (h : Table.All P t) {counts : Window Nat}
    {i : Nat} {rs : List α} (ht : tableOf counts t i = some rs) : ∀ r ∈ rs, P (.record r) := by
  intro r hr
  obtain ⟨es, he, hes⟩ := Option.bind_eq_some_iff.1 ht
  obtain ⟨n, -, hn⟩ := Option.bind_eq_some_iff.1 he
  rw [recordsOf_eq_some] at hes
  exact (h.seg i).readFrom hn _ (hes ▸ List.mem_map_of_mem hr)

end

/-! ## The field law of each window -/

/-- `Memory.fits` window by window; a bit of BITMEM has no field to outgrow. -/
structure State.Fits (s : State) : Prop where
  imem : Window.All (fun u => unitFits s.params u = true) s.imem
  ftN : Window.All (· < 2 ^ 32) s.ftN
  ft : Table.All (fun e => e.fits (FtEntry.fits s.params) (ftWidth s.params) (unpackFt s.params) = true) s.ft
  treeN : Window.All (· < 2 ^ 32) s.treeN
  tree : Table.All (fun n => n.fits (TreeNode.fits s.params) (nodeWidth s.params) (unpackNode s.params) = true) s.tree
  ctN : Window.All (· < 2 ^ 32) s.ctN
  ct : Table.All (fun e => e.fits (CtEntry.fits s.params) (ctWidth s.params) (unpackCt s.params) = true) s.ct
  omem : Window.All (fun u => unitFits s.params u = true) s.omem

theorem Memory.fits_iff {s : State} : Memory.fits s ↔ s.Fits := by
  constructor
  · intro h
    exact {
      imem := fun i v hv => h (.imem i) (.unit v) (by simp [State.element, hv])
      ftN := fun i v hv => of_decide_eq_true (h (.ftN i) (.count v) (by simp [State.element, hv]))
      ft := fun i e v hv => h (.ft i e) (.ft v) (by simp [State.element, hv])
      treeN := fun i v hv => of_decide_eq_true (h (.treeN i) (.count v) (by simp [State.element, hv]))
      tree := fun i n v hv => h (.tree i n) (.node v) (by simp [State.element, hv])
      ctN := fun i v hv => of_decide_eq_true (h (.ctN i) (.count v) (by simp [State.element, hv]))
      ct := fun i e v hv => h (.ct i e) (.ct v) (by simp [State.element, hv])
      omem := fun i v hv => h (.omem i) (.unit v) (by simp [State.element, hv]) }
  · intro h a v hv
    cases a <;> obtain ⟨x, hx, rfl⟩ := Option.map_eq_some_iff.1 hv
    case imem => exact h.imem _ _ hx
    case ftN => exact decide_eq_true (h.ftN _ _ hx)
    case ft => exact h.ft _ _ _ hx
    case treeN => exact decide_eq_true (h.treeN _ _ hx)
    case tree => exact h.tree _ _ _ hx
    case ctN => exact decide_eq_true (h.ctN _ _ hx)
    case ct => exact h.ct _ _ _ hx
    case bitmem => rfl
    case omem => exact h.omem _ _ hx

/-! ## What a state whose values fit denotes -/

section
variable {s : State} (h : s.Fits)
include h

theorem State.Fits.of_input {input : List RawUnit} (hi : s.input = some input) :
    ∀ u ∈ input, unitFits s.params u = true := h.imem.readFrom hi

theorem State.Fits.of_freqTable {i : Nat} {t : List FtEntry} (ht : s.freqTable i = some t) :
    ∀ e ∈ t, e.fits s.params = true := h.ft.tableOf ht

theorem State.Fits.of_arena {i : Nat} {ns : List TreeNode} (ht : s.arena i = some ns) :
    ∀ n ∈ ns, n.fits s.params = true := h.tree.tableOf ht

/-! ## What the updates of State keep -/

theorem State.Fits.loseCounts : s.loseCounts.Fits := { h with ftN := Window.all_nil, ft := Table.all_nil }

theorem State.Fits.loseTrees : s.loseTrees.Fits := { h with treeN := Window.all_nil, tree := Table.all_nil }

theorem State.Fits.loseCodes : s.loseCodes.Fits := { h with ctN := Window.all_nil, ct := Table.all_nil }

theorem State.Fits.loseAllTables : s.loseAllTables.Fits := h.loseCounts.loseTrees.loseCodes

theorem State.Fits.loseStream : s.loseStream.Fits := { h with }

theorem State.Fits.loseOutput : s.loseOutput.Fits := { h with omem := Window.all_nil }

theorem State.Fits.takeFault (r : Raise) : (s.takeFault r).Fits := { h with }

theorem State.Fits.complete : s.complete.Fits := { h with }

theorem State.Fits.storeStream (bits : List Bool) : (s.storeStream bits).Fits := { h with }

theorem State.Fits.storeOutput {out : List RawUnit} (hu : ∀ u ∈ out, unitFits s.params u = true) :
    (s.storeOutput out).Fits := { h with omem := Window.all_ofList hu }

theorem State.Fits.storeCounts {ts : List (List FtEntry)} (hl : ∀ t ∈ ts, t.length < 2 ^ 32)
    (hf : ∀ t ∈ ts, ∀ e ∈ t, e.fits s.params = true) : (s.storeCounts ts).Fits :=
  { h with ftN := Window.all_ofList (by simpa using hl), ft := Table.all_ofRecords hf }

theorem State.Fits.storeTrees {ts : List (List TreeNode)} (hl : ∀ t ∈ ts, t.length < 2 ^ 32)
    (hf : ∀ t ∈ ts, ∀ n ∈ t, n.fits s.params = true) : (s.storeTrees ts).Fits :=
  { h with treeN := Window.all_ofList (by simpa using hl), tree := Table.all_ofRecords hf }

theorem State.Fits.storeCodes {ts : List (List CtEntry)} (hl : ∀ t ∈ ts, t.length < 2 ^ 32)
    (hf : ∀ t ∈ ts, ∀ e ∈ t, e.fits s.params = true) : (s.storeCodes ts).Fits :=
  { h with ctN := Window.all_ofList (by simpa using hl), ct := Table.all_ofRecords hf }

end

theorem State.fits_resetEvent (s : State) : s.resetEvent.Fits where
  imem := Window.all_nil
  ftN := Window.all_nil
  ft := Table.all_nil
  treeN := Window.all_nil
  tree := Table.all_nil
  ctN := Window.all_nil
  ct := Table.all_nil
  omem := Window.all_nil

/-! ## A bit pattern that is a record is one that fits (R65 to R69) -/

theorem symbolFits_iff {c : Params} {y : Symbol} :
    symbolFits c y = true ↔ y.length ≤ c.symW ∧ y.length < 2 ^ 32 ∧ ∀ u ∈ y, unitFits c u = true := by
  simp [symbolFits, and_assoc]

@[simp] theorem unitsOfNat_length (c : Params) (n v : Nat) : (unitsOfNat c n v).length = n := by
  induction n generalizing v with
  | zero => rfl
  | succ n ih => simp [unitsOfNat, ih]

theorem unitFits_of_mem_unitsOfNat {c : Params} {n v : Nat} {u : RawUnit} (h : u ∈ unitsOfNat c n v) :
    unitFits c u = true := by
  induction n generalizing v with
  | zero => cases h
  | succ n ih =>
    rcases List.mem_cons.1 h with rfl | h
    · exact unitFits_unitOf c v
    · exact ih h

@[simp] theorem codewordOfNat_length (n v : Nat) : (codewordOfNat n v).length = n := by
  induction n generalizing v with
  | zero => rfl
  | succ n ih => simp [codewordOfNat, ih]

theorem symbolFits_of_symbolOfFields {c : Params} {slen units : Nat} {y : Symbol}
    (h : symbolOfFields c slen units = some y) (hs : slen < 2 ^ 32) : symbolFits c y = true := by
  unfold symbolOfFields at h
  split at h
  · obtain rfl := Option.some.inj h
    rename_i hle
    rw [symbolFits_iff, unitsOfNat_length]
    exact ⟨hle.1, hs, fun _ => unitFits_of_mem_unitsOfNat⟩
  · cases h

theorem FtEntry.fits_of_unpackFt {c : Params} {v : Nat} {e : FtEntry} (h : unpackFt c v = some e) :
    e.fits c = true := by
  obtain ⟨y, hy, rfl⟩ := Option.map_eq_some_iff.1 h
  rw [FtEntry.fits, symbolFits_of_symbolOfFields hy (Nat.mod_lt _ (Nat.two_pow_pos _)), Bool.and_true]
  exact decide_eq_true (Nat.mod_lt _ (Nat.two_pow_pos _))

theorem TreeNode.fits_of_unpackNode {c : Params} {v : Nat} {n : TreeNode} (h : unpackNode c v = some n) :
    n.fits c = true := by
  simp only [unpackNode] at h
  have hf : v / 2 % 2 ^ 32 < 2 ^ 32 := Nat.mod_lt _ (Nat.two_pow_pos _)
  have hl : v / 2 ^ 33 % 2 ^ 32 < 2 ^ 32 := Nat.mod_lt _ (Nat.two_pow_pos _)
  split at h
  · obtain ⟨y, hy, rfl⟩ := Option.map_eq_some_iff.1 h
    rw [TreeNode.fits, symbolFits_of_symbolOfFields hy hl, Bool.and_true]
    exact decide_eq_true hf
  · split at h
    · obtain rfl := Option.some.inj h
      rename_i hr
      rw [TreeNode.fits, decide_eq_true hf, decide_eq_true hl, decide_eq_true hr]
      rfl
    · cases h

theorem CtEntry.fits_iff {c : Params} {e : CtEntry} :
    e.fits c = true ↔ e.cw.length ≤ cwMax c ∧ e.cw.length < 2 ^ 32 ∧ symbolFits c e.sym = true := by
  simp [CtEntry.fits, and_assoc]

theorem CtEntry.fits_of_unpackCt {c : Params} {v : Nat} {e : CtEntry} (h : unpackCt c v = some e) :
    e.fits c = true := by
  simp only [unpackCt] at h
  split at h
  · rename_i hle
    obtain ⟨y, hy, rfl⟩ := Option.map_eq_some_iff.1 h
    rw [CtEntry.fits_iff, codewordOfNat_length]
    exact ⟨hle.1, Nat.mod_lt _ (Nat.two_pow_pos _),
      symbolFits_of_symbolOfFields hy (Nat.mod_lt _ (Nat.two_pow_pos _))⟩
  · cases h

theorem Stored.fits_storedOf {α : Type} {f : α → Bool} {width : Nat} {unpack : Nat → Option α}
    (h : ∀ v r, unpack v = some r → f r = true) (v : Nat) :
    (storedOf width unpack v).fits f width unpack = true := by
  unfold storedOf
  split
  · exact h _ _ ‹_›
  · rename_i hn
    simp [Stored.fits, hn, Nat.mod_lt]

/-! ## Host transactions -/

theorem State.Fits.writeMem {s : State} (h : s.Fits) (w : WinWrite) : (writeMem s w).Fits := by
  rcases writeMem_cases s w with e | ⟨i, v, -, hv, e⟩ | ⟨i, v, -, hv, e⟩ | ⟨i, j, v, -, e⟩ | ⟨i, v, -, hv, e⟩ |
    ⟨i, j, v, -, e⟩ | ⟨i, v, -, hv, e⟩ | ⟨i, j, v, -, e⟩ | ⟨b, v, -, e⟩ <;> rw [e]
  · exact h
  · exact { h with imem := h.imem.write i hv }
  · exact { h with ftN := h.ftN.write i hv }
  · exact { h with ft := h.ft.write i j (Stored.fits_storedOf (fun _ _ => FtEntry.fits_of_unpackFt) v) }
  · exact { h with treeN := h.treeN.write i hv }
  · exact { h with tree := h.tree.write i j (Stored.fits_storedOf (fun _ _ => TreeNode.fits_of_unpackNode) v) }
  · exact { h with ctN := h.ctN.write i hv }
  · exact { h with ct := h.ct.write i j (Stored.fits_storedOf (fun _ _ => CtEntry.fits_of_unpackCt) v) }
  · exact { h with }

/-- A register write touches no window. -/
theorem State.Fits.writeReg {s t : State} (h : s.Fits) {n : Nat} {v : Word} (hw : writeReg s n v = some t) :
    t.Fits := by
  rcases writeReg_cases hw with rfl | rfl | rfl | rfl | rfl | rfl <;> exact { h with }

theorem State.Fits.writeCmd {s t : State} (h : s.Fits) {w : Word} (hw : writeCmd s w = .quiet t) : t.Fits := by
  rcases writeCmd_cases s w with ⟨-, e⟩ | ⟨-, i, -, e⟩ | ⟨-, x, -, e⟩ <;> rw [e] at hw <;> cases hw
  · exact h
  · exact h.takeFault _

theorem State.Fits.transact {s t : State} (h : s.Fits) {x : HostTxn} (hx : transact s x = .quiet t) : t.Fits := by
  rcases transact_eq_quiet hx with ⟨r, d, rfl⟩ | ⟨n, v, -, hw⟩ | ⟨w, -, -, rfl⟩ | ⟨w, -, hw⟩ | ⟨-, rfl⟩
  · exact { h with }
  · exact h.writeReg hw
  · exact h.writeMem w
  · exact h.writeCmd hw
  · exact s.fits_resetEvent

/-- A command keeps the field laws where its pseudocode does, since a fault only loses values (R151). -/
theorem State.Fits.conclude {lose : State → State} {s t : State} {r : Except Stop State} (h : s.Fits)
    (hlose : (lose s).Fits) (hr : ∀ u, r = .ok u → u.Fits) (hc : conclude lose s r = .next t) : t.Fits := by
  rcases conclude_eq_next.1 hc with ⟨u, hu, rfl⟩ | ⟨e, -, rfl⟩
  · exact (hr u hu).complete
  · split
    · exact h.takeFault e
    · exact hlose.takeFault e

end Sys2Proof.Machine
end

section
/-! SUPPORT. COUNT: the tables it writes count the symbols of their segments (R82), so no count outgrows the input. -/

namespace Sys2Proof.Machine

theorem Params.wf_iff {c : Params} :
    c.wf = true ↔ 1 ≤ c.unitW ∧ c.inCap < 2 ^ 32 ∧ c.bitCap < 2 ^ 32 ∧ c.outCap < 2 ^ 32 ∧ 1 ≤ c.symCap ∧
      1 ≤ c.symW ∧ 2 * c.symCap ≤ 2 ^ 32 ∧ c.symW < 2 ^ 32 := by
  simp [Params.wf, and_assoc]

/-- Each result of a traversal is `f` of one of the elements. -/
theorem exists_of_mem_traverse {α β : Type} {f : α → Except Stop β} {as : List α} {bs : List β}
    (h : traverse f as = .ok bs) {b : β} (hb : b ∈ bs) : ∃ a ∈ as, f a = .ok b := by
  obtain ⟨hl, hz⟩ := List.forall₂_iff_get.1 (traverse_eq_ok.1 h)
  obtain ⟨i, hi, rfl⟩ := List.getElem_of_mem hb
  exact ⟨as[i], List.getElem_mem _, hz i (hl ▸ hi) hi⟩

/-! ## The Segmenter -/

/-- A symbol is a piece of the input, no longer than CHARLEN, SEGLEN and INLEN (R77). -/
theorem symbol_of_mem_segments {input : List RawUnit} {p q : Nat} {ys : List Symbol} {y : Symbol}
    (hys : ys ∈ segments input p q) (hy : y ∈ ys) :
    y.length ≤ min q (min p input.length) ∧ ∀ u ∈ y, u ∈ input := by
  obtain ⟨i, -, rfl⟩ := List.mem_map.1 hys
  obtain ⟨j, -, rfl⟩ := List.mem_map.1 hy
  constructor
  · have hle : (symAt input p q i j).length ≤ symLen input.length p q i j := List.length_take_le ..
    unfold symLen segLen at hle
    omega
  · exact fun u hu => List.mem_of_mem_drop (List.mem_of_mem_take hu)

/-- A segment has no more symbols than the input has units. -/
theorem length_le_of_mem_segments {input : List RawUnit} {p q : Nat} (hq : 1 ≤ q) {ys : List Symbol}
    (hys : ys ∈ segments input p q) : ys.length ≤ input.length := by
  obtain ⟨i, -, rfl⟩ := List.mem_map.1 hys
  calc (segSymbols input p q i).length = cdiv (segLen input.length p i) q := by simp [segSymbols, symCount]
    _ ≤ input.length := (cdiv_le_iff hq).2 <|
      (show segLen input.length p i ≤ input.length by unfold segLen; omega).trans (Nat.le_mul_of_pos_right _ hq)

/-! ## The Frequency Counter -/

theorem cnt_le_totalCount {t : List FtEntry} {e : FtEntry} (h : e ∈ t) : e.cnt ≤ totalCount t :=
  List.le_sum_of_mem (List.mem_map_of_mem h)

/-- Counting up keeps the symbols and adds one to the sum of the counts. -/
theorem countUp_eq_some {y : Symbol} {t u : List FtEntry} (h : countUp y t = some u) :
    u.map FtEntry.sym = t.map FtEntry.sym ∧ totalCount u = totalCount t + 1 := by
  induction t generalizing u with
  | nil => cases h
  | cons e es ih =>
    unfold countUp at h
    split at h
    · obtain rfl := Option.some.inj h
      exact ⟨rfl, by simp [totalCount]; omega⟩
    · obtain ⟨v, hv, rfl⟩ := Option.map_eq_some_iff.1 h
      obtain ⟨hs, ht⟩ := ih hv
      refine ⟨by rw [List.map_cons, List.map_cons, hs], ?_⟩
      simp only [totalCount, List.map_cons, List.sum_cons] at ht ⊢
      omega

/-- One symbol of `count_segment`: its count goes up by one or it gets a new entry, within `SYMCAP` (R82). -/
theorem countSegment_cons_eq_ok {cap : Nat} {t t' : List FtEntry} {y : Symbol} {ys : List Symbol}
    (h : countSegment cap t (y :: ys) = .ok t') (hl : t.length ≤ cap) :
    ∃ u, countSegment cap u ys = .ok t' ∧ u.length ≤ cap ∧ totalCount u = totalCount t + 1 ∧
      ∀ z ∈ u.map FtEntry.sym, z = y ∨ z ∈ t.map FtEntry.sym := by
  rw [countSegment] at h
  split at h
  · rename_i u hu
    obtain ⟨hs, ht⟩ := countUp_eq_some hu
    have hlen : u.length = t.length := by simpa using congrArg List.length hs
    exact ⟨u, h, hlen ▸ hl, ht, fun z hz => .inr (hs ▸ hz)⟩
  · split at h
    · cases h
    · refine ⟨t ++ [⟨y, 1⟩], h, ?_, ?_, fun z hz => ?_⟩
      · simp only [List.length_append, List.length_singleton]
        omega
      · simp [totalCount]
      · simpa [or_comm] using hz

/-- The table of a segment: no more entries than `SYMCAP`, as many occurrences as symbols, no other symbol. -/
theorem countSegment_eq_ok {cap : Nat} {t t' : List FtEntry} {ys : List Symbol}
    (h : countSegment cap t ys = .ok t') (hl : t.length ≤ cap) :
    t'.length ≤ cap ∧ totalCount t' = totalCount t + ys.length ∧
      ∀ z ∈ t'.map FtEntry.sym, z ∈ ys ∨ z ∈ t.map FtEntry.sym := by
  induction ys generalizing t with
  | nil =>
    cases h
    exact ⟨hl, rfl, fun z hz => .inr hz⟩
  | cons y ys ih =>
    obtain ⟨u, hu, hlu, htu, hsu⟩ := countSegment_cons_eq_ok h hl
    obtain ⟨hl', ht', hs'⟩ := ih hu hlu
    refine ⟨hl', by simp only [List.length_cons]; omega, fun z hz => ?_⟩
    rcases hs' z hz with hz | hz
    · exact .inl (List.mem_cons_of_mem _ hz)
    · exact (hsu z hz).imp_left fun e => List.mem_cons.2 (.inl e)

theorem State.Fits.countPhase {s t : State} (h : s.Fits) (hc : s.params.wf = true) (hp : countPhase s = .ok t) :
    t.Fits := by
  obtain ⟨hchecks, input, tables, hin, htr, rfl⟩ := countPhase_eq_ok.1 hp
  obtain ⟨-, hq, hcap, -, hw⟩ := countChecks_eq_ok.1 hchecks
  obtain ⟨-, hIn, -, -, -, -, hSym, hSymW⟩ := Params.wf_iff.1 hc
  have hlen := State.input_length hin
  have htables : ∀ T ∈ tables, ∃ ys ∈ segments input s.seglen.toNat s.charlen.toNat,
      T.length ≤ s.params.symCap ∧ totalCount T = ys.length ∧ ∀ e ∈ T, e.sym ∈ ys := by
    intro T hT
    obtain ⟨ys, hys, hcount⟩ := exists_of_mem_traverse htr hT
    obtain ⟨hl, ht, hs⟩ := countSegment_eq_ok hcount (Nat.zero_le _)
    exact ⟨ys, hys, hl, by simpa [totalCount] using ht, fun e he => by simpa using hs _ (List.mem_map_of_mem he)⟩
  refine h.storeCounts (fun T hT => ?_) (fun T hT e he => ?_) <;> obtain ⟨ys, hys, hl, ht, hs⟩ := htables T hT
  · omega
  · have hcnt : e.cnt < 2 ^ 32 := by
      have := cnt_le_totalCount he
      have := length_le_of_mem_segments (by omega) hys
      omega
    obtain ⟨hle, hmem⟩ := symbol_of_mem_segments hys (hs e he)
    have hsym : symbolFits s.params e.sym = true :=
      symbolFits_iff.2 ⟨by omega, by omega, fun u hu => h.of_input hin u (hmem u hu)⟩
    rw [FtEntry.fits, decide_eq_true hcnt, hsym]
    rfl

end Sys2Proof.Machine
end

section
/-! SUPPORT. BUILD: a merge keeps the total frequency of the queue and adds one node (R94), so neither a frequency
nor a node index outgrows its field. -/

namespace Sys2Proof.Machine

theorem firstOf_mem (ns : List TreeNode) (x : Nat) (pq : List Nat) : firstOf ns x pq ∈ x :: pq := by
  induction pq generalizing x with
  | nil => exact List.mem_singleton.2 rfl
  | cons y pq ih =>
    rcases List.mem_cons.1 (ih (if before ns y x then y else x)) with h | h
    · rw [firstOf, h]
      split <;> simp
    · exact List.mem_cons_of_mem _ (List.mem_cons_of_mem _ h)

/-- `extract_min` takes one node out of the queue. -/
theorem extractMin_eq_some {ns : List TreeNode} {pq pq' : List Nat} {a : Nat} (h : extractMin ns pq = some (a, pq')) :
    a ∈ pq ∧ pq' = pq.erase a := by
  cases pq with
  | nil => cases h
  | cons x pq =>
    cases h
    exact ⟨firstOf_mem ns x pq, rfl⟩

theorem freqAt_append_of_lt {ns ms : List TreeNode} {x : Nat} (h : x < ns.length) :
    freqAt (ns ++ ms) x = freqAt ns x := by
  rw [freqAt, freqAt, List.getElem?_append_left h]

theorem freqAt_append_length (ns : List TreeNode) (n : TreeNode) : freqAt (ns ++ [n]) ns.length = n.freq := by
  simp [freqAt]

/-- What `build_tree` keeps while it merges: every node fits, the queue holds nodes of the arena, at least one, the
nodes made and still to be made are at most `size`, and the queue's frequencies add up to `total`. -/
structure MergeState (c : Params) (size total : Nat) (ns : List TreeNode) (pq : List Nat) : Prop where
  fits : ∀ n ∈ ns, n.fits c = true
  queue : ∀ x ∈ pq, x < ns.length
  nonempty : pq ≠ []
  length : ns.length + pq.length ≤ size
  freq : (pq.map (freqAt ns)).sum = total

section
variable {c : Params} {size total : Nat} {ns : List TreeNode} {pq : List Nat}

theorem MergeState.length_lt (h : MergeState c size total ns pq) : ns.length < size := by
  have := List.length_pos_of_ne_nil h.nonempty
  have := h.length
  omega

/-- One merge: the two nodes taken out and the node that stands for them have the same frequency. -/
theorem MergeState.merge (h : MergeState c size total ns pq) (hsize : size ≤ 2 ^ 32) (htotal : total < 2 ^ 32)
    {a b : Nat} {pq₁ pq₂ : List Nat} (ha : extractMin ns pq = some (a, pq₁)) (hb : extractMin ns pq₁ = some (b, pq₂)) :
    MergeState c size total (ns ++ [.internal b a (freqAt ns a + freqAt ns b)]) (pq₂ ++ [ns.length]) := by
  obtain ⟨ma, rfl⟩ := extractMin_eq_some ha
  obtain ⟨mb, rfl⟩ := extractMin_eq_some hb
  have hsum : freqAt ns a + (freqAt ns b + (((pq.erase a).erase b).map (freqAt ns)).sum) = total := by
    rw [List.sum_map_erase _ mb, List.sum_map_erase _ ma, h.freq]
  have hqueue : ∀ x ∈ (pq.erase a).erase b, x < ns.length := fun x hx =>
    h.queue x (List.mem_of_mem_erase (List.mem_of_mem_erase hx))
  have hlen := h.length_lt
  constructor
  case fits =>
    have hla := h.queue a ma
    have hlb := h.queue b (List.mem_of_mem_erase mb)
    intro n hn
    rcases List.mem_append.1 hn with hn | hn
    · exact h.fits n hn
    · obtain rfl := List.mem_singleton.1 hn
      simp only [TreeNode.fits, Bool.and_eq_true, decide_eq_true_eq]
      omega
  case queue =>
    intro x hx
    rw [List.length_append, List.length_singleton]
    rcases List.mem_append.1 hx with hx | hx
    · exact Nat.lt_succ_of_lt (hqueue x hx)
    · exact Nat.lt_succ_of_le (List.mem_singleton.1 hx).le
  case nonempty => simp
  case length =>
    have h₁ := List.length_erase_add_one ma
    have h₂ := List.length_erase_add_one mb
    have := h.length
    simp only [List.length_append, List.length_singleton]
    omega
  case freq =>
    rw [List.map_append, List.sum_append, List.map_singleton, List.sum_singleton, freqAt_append_length,
      List.map_congr_left (g := freqAt ns) fun x hx => freqAt_append_of_lt (hqueue x hx)]
    simp only [TreeNode.freq]
    omega

theorem MergeState.mergeLoop (hsize : size ≤ 2 ^ 32) (htotal : total < 2 ^ 32) (fuel : Nat)
    (h : MergeState c size total ns pq) : ∃ pq', MergeState c size total (mergeLoop fuel ns pq) pq' := by
  induction fuel generalizing ns pq with
  | zero => exact ⟨pq, h⟩
  | succ fuel ih =>
    unfold Machine.mergeLoop
    split
    · exact ⟨pq, h⟩
    · split
      · exact ⟨pq, h⟩
      · exact ih (h.merge hsize htotal ‹_› ‹_›)

end

/-- The Leaf nodes of part 1 (R93), all of them in the queue. -/
theorem mergeState_seedLeaves {c : Params} {t : List FtEntry} (hf : ∀ e ∈ t, e.fits c = true) (ne : t ≠ []) :
    MergeState c (2 * t.length) (totalCount t) (seedLeaves t) (List.range t.length) where
  fits := by
    intro n hn
    obtain ⟨e, he, rfl⟩ := List.mem_map.1 hn
    exact hf e he
  queue := by simp [seedLeaves]
  nonempty := by simpa using ne
  length := by simp [seedLeaves]; omega
  freq := by
    refine congrArg List.sum (List.ext_getElem (by simp) fun i hi _ => ?_)
    have hi : i < t.length := by simpa using hi
    simp [freqAt, seedLeaves, hi, TreeNode.freq]

theorem wfFt_iff {c : Params} {t : List FtEntry} :
    wfFt c t = true ↔ t ≠ [] ∧ t.length ≤ c.symCap ∧ distinct (t.map FtEntry.sym) = true ∧
      (∀ e ∈ t, symbolOk c e.sym = true ∧ 1 ≤ e.cnt) ∧ totalCount t < 2 ^ 32 := by
  simp [wfFt, and_assoc, Nat.one_le_iff_ne_zero]

/-- The tree of a well-formed table: every node fits, and there are fewer than two nodes for each entry. -/
theorem buildTree_fits {c : Params} (hc : c.wf = true) {t : List FtEntry} (hwf : wfFt c t = true)
    (hf : ∀ e ∈ t, e.fits c = true) :
    (buildTree t).length < 2 * t.length ∧ ∀ n ∈ buildTree t, n.fits c = true := by
  obtain ⟨ne, hl, -, -, htotal⟩ := wfFt_iff.1 hwf
  obtain ⟨-, -, -, -, -, -, hSym, -⟩ := Params.wf_iff.1 hc
  obtain ⟨pq, h⟩ := (mergeState_seedLeaves hf ne).mergeLoop (by omega) htotal t.length
  exact ⟨h.length_lt, h.fits⟩

theorem State.Fits.buildPhase {s t : State} (h : s.Fits) (hc : s.params.wf = true) (hp : buildPhase s = .ok t) :
    t.Fits := by
  obtain ⟨-, tables, hload, rfl⟩ := buildPhase_eq_ok.1 hp
  obtain ⟨-, hload⟩ := loadFreqTables_eq_ok.1 hload
  obtain ⟨-, -, -, -, -, -, hSym, -⟩ := Params.wf_iff.1 hc
  have htrees : ∀ ns ∈ tables.map buildTree, ns.length < 2 ^ 32 ∧ ∀ n ∈ ns, n.fits s.params = true := by
    intro ns hns
    obtain ⟨T, hT, rfl⟩ := List.mem_map.1 hns
    obtain ⟨i, hi, rfl⟩ := List.getElem_of_mem hT
    obtain ⟨hget, hwf⟩ := hload i hi
    obtain ⟨hl, hf⟩ := buildTree_fits hc hwf (h.of_freqTable hget)
    obtain ⟨-, hcap, -⟩ := wfFt_iff.1 hwf
    exact ⟨by omega, hf⟩
  exact h.storeTrees (fun ns hns => (htrees ns hns).1) (fun ns hns => (htrees ns hns).2)

end Sys2Proof.Machine
end

section
/-! SUPPORT. Well-formed trees (R25): each node but the root has one parent, so any weight of the nodes but the root
sums up over the Internal nodes as the weights of their children.  With weight 1 this counts the Internal nodes,
with the number of leaves below a node it counts the entries of GEN; both bounds of R6 on a code table follow. -/

namespace Sys2Proof.Machine

theorem wfTree_iff {c : Params} {ns : List TreeNode} :
    wfTree c ns = true ↔ ns.length % 2 = 1 ∧ ns.length ≤ nodeCap c ∧ childrenBelowFrom 0 ns = true ∧
      (∀ m < ns.length - 1, parentCount ns m = 1) ∧ parentCount ns (ns.length - 1) = 0 ∧
      distinct (leafSymbols ns) = true ∧ ∀ y ∈ leafSymbols ns, symbolOk c y = true := by
  simp [wfTree, and_assoc]

theorem mem_leafSymbols {ns : List TreeNode} {y : Symbol} : y ∈ leafSymbols ns ↔ ∃ f, TreeNode.leaf y f ∈ ns := by
  simp only [leafSymbols, List.mem_filterMap]
  constructor
  · rintro ⟨n, hn, hy⟩
    cases n with
    | leaf z f => cases hy; exact ⟨f, hn⟩
    | internal l r f => cases hy
  · rintro ⟨f, hf⟩
    exact ⟨_, hf, rfl⟩

theorem symbolFits_of_mem_leafSymbols {c : Params} {ns : List TreeNode} (hf : ∀ n ∈ ns, n.fits c = true) {y : Symbol}
    (hy : y ∈ leafSymbols ns) : symbolFits c y = true := by
  obtain ⟨f, hn⟩ := mem_leafSymbols.1 hy
  have := hf _ hn
  rw [TreeNode.fits, Bool.and_eq_true] at this
  exact this.2

theorem childrenBelowFrom_getElem? {k : Nat} {ns : List TreeNode} (h : childrenBelowFrom k ns = true) {x : Nat}
    {n : TreeNode} (hx : ns[x]? = some n) : childrenBelow (k + x) n = true := by
  induction ns generalizing k x with
  | nil => simp at hx
  | cons m ns ih =>
    obtain ⟨hm, hns⟩ : childrenBelow k m = true ∧ childrenBelowFrom (k + 1) ns = true := by
      simpa [childrenBelowFrom] using h
    cases x with
    | zero => simpa using Option.some.inj hx ▸ hm
    | succ x => simpa [Nat.add_assoc, Nat.add_comm 1] using ih hns hx

/-- Condition 2 of R25: the children of an Internal node are two different nodes below it. -/
theorem children_lt {ns : List TreeNode} (h : childrenBelowFrom 0 ns = true) {x l r f : Nat}
    (hx : ns[x]? = some (.internal l r f)) : l < x ∧ r < x ∧ l ≠ r := by
  simpa [childrenBelow, and_assoc] using childrenBelowFrom_getElem? h hx

/-! ## Sums over the children -/

/-- The weights of the children of a node. -/
def TreeNode.childSum (w : Nat → Nat) : TreeNode → Nat
  | .leaf _ _ => 0
  | .internal l r _ => w l + w r

/-- 1 for an Internal node, 0 for a Leaf. -/
def TreeNode.internals : TreeNode → Nat
  | .leaf _ _ => 0
  | .internal _ _ _ => 1

/-- The number of Internal nodes. -/
def internalCount (ns : List TreeNode) : Nat := (ns.map TreeNode.internals).sum

theorem TreeNode.childSum_eq_sum (w : Nat → Nat) {N : Nat} {n : TreeNode}
    (h : ∀ l r f, n = .internal l r f → l < N ∧ r < N ∧ l ≠ r) :
    n.childSum w = ∑ m ∈ Finset.range N, if n.hasChild m then w m else 0 := by
  cases n with
  | leaf y f => simp [childSum, hasChild]
  | internal l r f =>
    obtain ⟨hl, hr, hne⟩ := h l r f rfl
    have hsplit : ∀ m, (if (internal l r f).hasChild m then w m else 0) =
        (if l = m then w m else 0) + (if r = m then w m else 0) := by
      intro m
      by_cases hlm : l = m
      · subst hlm
        simp [hasChild, hne.symm]
      · simp [hasChild, hlm]
    simp [hsplit, Finset.sum_add_distrib, childSum, hl, hr]

/-- Each node counts once for each parent. -/
theorem sum_childSum (w : Nat → Nat) {N : Nat} {ns : List TreeNode}
    (h : ∀ l r f, TreeNode.internal l r f ∈ ns → l < N ∧ r < N ∧ l ≠ r) :
    (ns.map (TreeNode.childSum w)).sum = ∑ m ∈ Finset.range N, parentCount ns m * w m := by
  induction ns with
  | nil => simp [parentCount]
  | cons n ns ih =>
    rw [List.map_cons, List.sum_cons, ih fun l r f hm => h l r f (List.mem_cons_of_mem _ hm),
      TreeNode.childSum_eq_sum w fun l r f e => h l r f (e ▸ List.mem_cons_self), ← Finset.sum_add_distrib]
    refine Finset.sum_congr rfl fun m _ => ?_
    rw [parentCount, parentCount, List.countP_cons, Nat.add_mul, Nat.add_comm]
    cases n.hasChild m <;> simp

section
variable {c : Params} {ns : List TreeNode} (h : wfTree c ns = true)
include h

/-- In a well-formed tree each node but the root counts once. -/
theorem sum_childSum_of_wfTree (w : Nat → Nat) :
    (ns.map (TreeNode.childSum w)).sum = ∑ m ∈ Finset.range (ns.length - 1), w m := by
  obtain ⟨hodd, -, hbelow, hone, hroot, -, -⟩ := wfTree_iff.1 h
  have hN : ns.length = ns.length - 1 + 1 := by omega
  rw [sum_childSum w (N := ns.length), hN, Finset.sum_range_succ, hroot, Nat.zero_mul, Nat.add_zero]
  · exact Finset.sum_congr rfl fun m hm => by rw [hone m (Finset.mem_range.1 hm), Nat.one_mul]
  · intro l r f hm
    obtain ⟨x, hx, e⟩ := List.getElem_of_mem hm
    obtain ⟨hl, hr, hne⟩ := children_lt hbelow (List.getElem?_eq_some_iff.2 ⟨hx, e⟩)
    exact ⟨hl.trans hx, hr.trans hx, hne⟩

/-- A well-formed tree of `N` nodes has `(N - 1) / 2` Internal nodes. -/
theorem two_mul_internalCount : 2 * internalCount ns + 1 = ns.length := by
  obtain ⟨hodd, -⟩ := wfTree_iff.1 h
  have hsum := sum_childSum_of_wfTree h fun _ => 1
  have htwice : TreeNode.childSum (fun _ => 1) = fun n => 2 * n.internals := by
    funext n
    cases n <;> rfl
  rw [htwice, List.sum_map_mul_left, Finset.sum_const, Finset.card_range, smul_eq_mul, mul_one] at hsum
  unfold internalCount
  omega

end

/-! ## The traversal of GEN -/

section
variable {ns : List TreeNode} {x fuel : Nat}

theorem visit_leaf {y : Symbol} {f : Nat} (hx : ns[x]? = some (.leaf y f)) (path : List Bool) :
    visit ns (fuel + 1) x path = [⟨y, path⟩] := by
  rw [visit, hx]

theorem visit_internal {l r f : Nat} (hx : ns[x]? = some (.internal l r f)) (path : List Bool) :
    visit ns (fuel + 1) x path = visit ns fuel l (path ++ [false]) ++ visit ns fuel r (path ++ [true]) := by
  rw [visit, hx]

theorem visit_none (hx : ns[x]? = none) (path : List Bool) : visit ns (fuel + 1) x path = [] := by
  rw [visit, hx]

/-- An entry of the traversal is one of the Leaf `x`, or one of the traversal of a child of `x`. -/
theorem mem_visit_succ {path : List Bool} {e : CtEntry} (he : e ∈ visit ns (fuel + 1) x path) :
    (∃ y f, ns[x]? = some (.leaf y f) ∧ e = ⟨y, path⟩) ∨
      ∃ l r f b, ns[x]? = some (.internal l r f) ∧ e ∈ visit ns fuel (if b then r else l) (path ++ [b]) := by
  cases hx : ns[x]? with
  | none => rw [visit_none hx] at he; cases he
  | some n =>
    cases n with
    | leaf y f =>
      rw [visit_leaf hx] at he
      exact .inl ⟨y, f, rfl, List.mem_singleton.1 he⟩
    | internal l r f =>
      rw [visit_internal hx] at he
      rcases List.mem_append.1 he with he | he
      · exact .inr ⟨l, r, f, false, rfl, he⟩
      · exact .inr ⟨l, r, f, true, rfl, he⟩

theorem sym_mem_leafSymbols_of_mem_visit {path : List Bool} {e : CtEntry} (he : e ∈ visit ns fuel x path) :
    e.sym ∈ leafSymbols ns := by
  induction fuel generalizing x path with
  | zero => cases he
  | succ fuel ih =>
    rcases mem_visit_succ he with ⟨y, f, hx, rfl⟩ | ⟨l, r, f, b, -, he⟩
    · exact mem_leafSymbols.2 ⟨f, List.mem_of_getElem? hx⟩
    · exact ih he

theorem internalCount_take_mono {i j : Nat} (h : i ≤ j) :
    internalCount (ns.take i) ≤ internalCount (ns.take j) :=
  ((List.take_sublist_take_left h).map _).sum_le_sum (fun _ _ => Nat.zero_le _)

theorem internalCount_take_succ {n : TreeNode} (hx : ns[x]? = some n) :
    internalCount (ns.take (x + 1)) = internalCount (ns.take x) + n.internals := by
  simp [internalCount, List.take_add_one, hx]

/-- A path goes down through Internal nodes of falling index, so it is no longer than their number. -/
theorem cw_length_le_of_mem_visit (h : childrenBelowFrom 0 ns = true) {path : List Bool} {e : CtEntry}
    (he : e ∈ visit ns fuel x path) : e.cw.length ≤ path.length + internalCount (ns.take (x + 1)) := by
  induction fuel generalizing x path with
  | zero => cases he
  | succ fuel ih =>
    rcases mem_visit_succ he with ⟨y, f, -, rfl⟩ | ⟨l, r, f, b, hx, he⟩
    · exact Nat.le_add_right _ _
    · obtain ⟨hl, hr, -⟩ := children_lt h hx
      have hchild : (if b then r else l) + 1 ≤ x := by cases b <;> assumption
      calc e.cw.length ≤ (path ++ [b]).length + internalCount (ns.take ((if b then r else l) + 1)) := ih he
        _ ≤ (path ++ [b]).length + internalCount (ns.take x) := Nat.add_le_add_left (internalCount_take_mono hchild) _
        _ = path.length + internalCount (ns.take (x + 1)) := by
          rw [internalCount_take_succ hx, TreeNode.internals, List.length_append, List.length_singleton]
          omega

/-- How many entries the traversal gives depends neither on the path nor on how much the bound exceeds the node. -/
theorem visit_length_congr (h : childrenBelowFrom 0 ns = true) {fuel' : Nat} {path path' : List Bool}
    (hx : x < fuel) (hx' : x < fuel') : (visit ns fuel x path).length = (visit ns fuel' x path').length := by
  induction fuel generalizing x fuel' path path' with
  | zero => omega
  | succ fuel ih =>
    obtain ⟨fuel', rfl⟩ : ∃ k, fuel' = k + 1 := ⟨fuel' - 1, by omega⟩
    cases hn : ns[x]? with
    | none => rw [visit_none hn, visit_none hn]
    | some n =>
      cases n with
      | leaf y f => rw [visit_leaf hn, visit_leaf hn]; rfl
      | internal l r f =>
        obtain ⟨hl, hr, -⟩ := children_lt h hn
        rw [visit_internal hn, visit_internal hn, List.length_append, List.length_append]
        exact congrArg₂ (· + ·) (ih (by omega) (by omega)) (ih (by omega) (by omega))

end

/-- The number of leaves below node `x`: of entries the traversal from it gives. -/
def leafCount (ns : List TreeNode) (x : Nat) : Nat := (visit ns (x + 1) x []).length

theorem leafCount_add_internals {ns : List TreeNode} (h : childrenBelowFrom 0 ns = true) {x : Nat} {n : TreeNode}
    (hx : ns[x]? = some n) : leafCount ns x + n.internals = n.childSum (leafCount ns) + 1 := by
  cases n with
  | leaf y f => simp [leafCount, visit_leaf hx, TreeNode.internals, TreeNode.childSum]
  | internal l r f =>
    obtain ⟨hl, hr, -⟩ := children_lt h hx
    rw [leafCount, visit_internal hx, List.length_append, TreeNode.internals, TreeNode.childSum, leafCount, leafCount,
      visit_length_congr h hl (Nat.lt_succ_self l), visit_length_congr h hr (Nat.lt_succ_self r)]

/-- Below the root stand all nodes that are not Internal. -/
theorem leafCount_root {c : Params} {ns : List TreeNode} (h : wfTree c ns = true) :
    leafCount ns (ns.length - 1) + internalCount ns = ns.length := by
  obtain ⟨hodd, -, hbelow, -⟩ := wfTree_iff.1 h
  have hnode : ∑ i : Fin ns.length, (leafCount ns i + ns[i].internals) =
      ∑ i : Fin ns.length, (ns[i].childSum (leafCount ns) + 1) :=
    Finset.sum_congr rfl fun i _ => leafCount_add_internals hbelow (List.getElem?_eq_getElem i.isLt)
  have hinternals := Fin.sum_univ_fun_getElem ns TreeNode.internals
  have hchildren := Fin.sum_univ_fun_getElem ns (TreeNode.childSum (leafCount ns))
  have hall : ∑ i : Fin ns.length, leafCount ns i =
      ∑ m ∈ Finset.range (ns.length - 1), leafCount ns m + leafCount ns (ns.length - 1) := by
    rw [← Finset.sum_range (leafCount ns), ← Finset.sum_range_succ, show ns.length - 1 + 1 = ns.length by omega]
  rw [sum_childSum_of_wfTree h] at hchildren
  simp only [Finset.sum_add_distrib, Finset.sum_const, Finset.card_univ, Fintype.card_fin, smul_eq_mul, mul_one,
    Fin.getElem_fin] at hnode
  unfold internalCount
  omega

/-! ## The code table -/

/-- A single Leaf has the codeword "0" (R108); every other tree is traversed from its root. -/
theorem genTable_cases (ns : List TreeNode) :
    (∃ y f, TreeNode.leaf y f ∈ ns ∧ genTable ns = [⟨y, [false]⟩]) ∨
      genTable ns = visit ns ns.length (ns.length - 1) [] := by
  unfold genTable
  split
  · exact .inl ⟨_, _, List.mem_of_getLast? ‹_›, rfl⟩
  · exact .inr rfl

theorem sym_mem_leafSymbols_of_mem_genTable {ns : List TreeNode} {e : CtEntry} (he : e ∈ genTable ns) :
    e.sym ∈ leafSymbols ns := by
  rcases genTable_cases ns with ⟨y, f, hy, hg⟩ | hg <;> rw [hg] at he
  · obtain rfl := List.mem_singleton.1 he
    exact mem_leafSymbols.2 ⟨f, hy⟩
  · exact sym_mem_leafSymbols_of_mem_visit he

section
variable {c : Params} {ns : List TreeNode} (h : wfTree c ns = true)
include h

/-- A code table has at most `SYMCAP` entries. -/
theorem genTable_length_le (hc : c.wf = true) : (genTable ns).length ≤ c.symCap := by
  obtain ⟨hodd, hcap, hbelow, -⟩ := wfTree_iff.1 h
  obtain ⟨-, -, -, -, hSym, -⟩ := Params.wf_iff.1 hc
  rcases genTable_cases ns with ⟨y, f, -, hg⟩ | hg <;> rw [hg]
  · exact hSym
  · have hlen : (visit ns ns.length (ns.length - 1) []).length = leafCount ns (ns.length - 1) :=
      visit_length_congr hbelow (by omega) (Nat.lt_succ_self _)
    have hroot := leafCount_root h
    have htwice := two_mul_internalCount h
    unfold nodeCap at hcap
    omega

/-- A codeword has at most `CWMAX` bits. -/
theorem cw_length_le_cwMax {e : CtEntry} (he : e ∈ genTable ns) : e.cw.length ≤ cwMax c := by
  obtain ⟨hodd, hcap, hbelow, -⟩ := wfTree_iff.1 h
  rcases genTable_cases ns with ⟨y, f, -, hg⟩ | hg <;> rw [hg] at he
  · obtain rfl := List.mem_singleton.1 he
    exact Nat.le_max_left ..
  · have hle := cw_length_le_of_mem_visit hbelow he
    rw [List.take_of_length_le (by omega), List.length_nil, Nat.zero_add] at hle
    have htwice := two_mul_internalCount h
    unfold nodeCap at hcap
    unfold cwMax
    omega

end

theorem cwMax_lt {c : Params} (hc : c.wf = true) : cwMax c < 2 ^ 32 := by
  obtain ⟨-, -, -, -, -, -, hSym, -⟩ := Params.wf_iff.1 hc
  unfold cwMax
  omega

theorem State.Fits.genPhase {s t : State} (h : s.Fits) (hc : s.params.wf = true) (hp : genPhase s = .ok t) :
    t.Fits := by
  obtain ⟨-, trees, hload, rfl⟩ := genPhase_eq_ok.1 hp
  obtain ⟨-, hload⟩ := loadTrees_eq_ok.1 hload
  obtain ⟨-, -, -, -, -, -, hSym, -⟩ := Params.wf_iff.1 hc
  have htables : ∀ T ∈ trees.map genTable, T.length < 2 ^ 32 ∧ ∀ e ∈ T, e.fits s.params = true := by
    intro T hT
    obtain ⟨ns, hns, rfl⟩ := List.mem_map.1 hT
    obtain ⟨i, hi, rfl⟩ := List.getElem_of_mem hns
    obtain ⟨hget, hwf⟩ := hload i hi
    refine ⟨by have := genTable_length_le hwf hc; omega, fun e he => CtEntry.fits_iff.2 ?_⟩
    have hcw := cw_length_le_cwMax hwf he
    exact ⟨hcw, hcw.trans_lt (cwMax_lt hc),
      symbolFits_of_mem_leafSymbols (h.of_arena hget) (sym_mem_leafSymbols_of_mem_genTable he)⟩
  exact h.storeCodes (fun T hT => (htables T hT).1) (fun T hT => (htables T hT).2)

theorem State.Fits.buildCodesPhase {s t : State} (h : s.Fits) (hc : s.params.wf = true)
    (hp : buildCodesPhase s = .ok t) : t.Fits := by
  obtain ⟨u, v, hu, hv, ht⟩ := buildCodesPhase_eq_ok.1 hp
  have hup : u.params = s.params := by
    obtain ⟨-, _, _, -, -, rfl⟩ := countPhase_eq_ok.1 hu
    rfl
  have hvp : v.params = u.params := by
    obtain ⟨-, _, -, rfl⟩ := buildPhase_eq_ok.1 hv
    rfl
  have huc : u.params.wf = true := hup ▸ hc
  exact ((h.countPhase hc hu).buildPhase huc hv).genPhase (hvp ▸ huc) ht

end Sys2Proof.Machine
end

section
/-! SUPPORT. ENCODE, DECODE and one step: the decoder puts out only units of symbols of its trees, and every way a
step can answer a next state keeps the field laws (R9). -/

namespace Sys2Proof.Machine

/-! ## The output of DECODE -/

theorem walk_eq_some {ns : List TreeNode} {x : Nat} {bits rest : List Bool} {y : Symbol}
    (h : walk ns x bits = some (y, rest)) : y ∈ leafSymbols ns := by
  induction bits generalizing x with
  | nil =>
    unfold walk at h
    split at h
    · cases h; exact mem_leafSymbols.2 ⟨_, List.mem_of_getElem? ‹_›⟩
    · cases h
    · cases h
  | cons b bs ih =>
    unfold walk at h
    split at h
    · cases h; exact mem_leafSymbols.2 ⟨_, List.mem_of_getElem? ‹_›⟩
    · exact ih h
    · cases h

theorem decodeSymbol_eq_ok {ns : List TreeNode} {i cnt : Nat} {bits rest : List Bool} {y : Symbol}
    (h : decodeSymbol ns i cnt bits = .ok (y, rest)) : y ∈ leafSymbols ns := by
  unfold decodeSymbol at h
  split at h
  · split at h
    · cases h
    · cases h
    · cases h; exact mem_leafSymbols.2 ⟨_, List.mem_of_getLast? ‹_›⟩
  · split at h
    · cases h
    · cases h; exact walk_eq_some ‹_›

section
variable {P : RawUnit → Prop} {outCap : Nat}

/-- What all units of the tree's symbols and of the output so far satisfy, all units of the output satisfy. -/
theorem decodeSegment_forall {ns : List TreeNode} (hns : ∀ y ∈ leafSymbols ns, ∀ u ∈ y, P u) {i : Nat} {last : Bool}
    {more cnt : Nat} {bits rest : List Bool} {out out' : List RawUnit} (hout : ∀ u ∈ out, P u)
    (h : decodeSegment outCap ns i last more cnt bits out = .ok (rest, out')) : ∀ u ∈ out', P u := by
  induction more generalizing cnt bits out with
  | zero => cases h; exact hout
  | succ more ih =>
    rw [decodeSegment] at h
    split at h
    · cases h; exact hout
    · obtain ⟨⟨y, bits'⟩, hy, h⟩ := bind_eq_ok.1 h
      obtain ⟨-, -, h⟩ := bind_eq_ok.1 h
      refine ih (fun u hu => ?_) h
      rcases List.mem_append.1 hu with hu | hu
      · exact hout u hu
      · exact hns y (decodeSymbol_eq_ok hy) u hu

theorem decodeSegments_forall {cap i : Nat} {trees : List (List TreeNode)}
    (hns : ∀ ns ∈ trees, ∀ y ∈ leafSymbols ns, ∀ u ∈ y, P u) {bits rest : List Bool} {out out' : List RawUnit}
    (hout : ∀ u ∈ out, P u) (h : decodeSegments outCap cap i trees bits out = .ok (rest, out')) :
    ∀ u ∈ out', P u := by
  induction trees generalizing i bits out with
  | nil => cases h; exact hout
  | cons ns trees ih =>
    rw [decodeSegments] at h
    obtain ⟨⟨bits', out₁⟩, hseg, h⟩ := bind_eq_ok.1 h
    exact ih (fun ms hms => hns ms (List.mem_cons_of_mem _ hms))
      (decodeSegment_forall (hns ns List.mem_cons_self) hout hseg) h

end

theorem State.Fits.decodePhase {s t : State} (h : s.Fits) (hp : decodePhase s = .ok t) : t.Fits := by
  obtain ⟨-, bits, trees, out, -, hload, hdec, rfl⟩ := decodePhase_eq_ok.1 hp
  obtain ⟨-, hload⟩ := loadTrees_eq_ok.1 hload
  have htrees : ∀ ns ∈ trees, ∀ y ∈ leafSymbols ns, ∀ u ∈ y, unitFits s.params u = true := by
    intro ns hns y hy
    obtain ⟨i, hi, rfl⟩ := List.getElem_of_mem hns
    obtain ⟨-, -, hunits⟩ := symbolFits_iff.1 (symbolFits_of_mem_leafSymbols (h.of_arena (hload i hi).1) hy)
    exact hunits
  exact h.storeOutput (decodeSegments_forall htrees (fun u hu => by cases hu) hdec)

theorem State.Fits.encodePhase {s t : State} (h : s.Fits) (hp : encodePhase s = .ok t) : t.Fits := by
  obtain ⟨-, _, _, bits, -, -, -, rfl⟩ := encodePhase_eq_ok.1 hp
  exact h.storeStream bits

/-! ## One step -/

theorem State.Fits.exec {s t : State} (h : s.Fits) (hc : s.params.wf = true) {i : Instr} (he : exec i s = .next t) :
    t.Fits := by
  cases i with
  | nop => exact h.conclude (lose := id) (r := .ok s) h (fun u hu => by cases hu; exact h) he
  | count => exact h.conclude h.loseCounts (fun _ => h.countPhase hc) he
  | build => exact h.conclude h.loseTrees (fun _ => h.buildPhase hc) he
  | gen => exact h.conclude h.loseCodes (fun _ => h.genPhase hc) he
  | buildCodes => exact h.conclude h.loseAllTables (fun _ => h.buildCodesPhase hc) he
  | encode => exact h.conclude h.loseStream (fun _ => h.encodePhase) he
  | decode => exact h.conclude h.loseOutput (fun _ => h.decodePhase) he

theorem State.Fits.step {s t : State} (h : s.Fits) (hc : s.params.wf = true) (hs : step s = .next t) : t.Fits := by
  rcases step_cases hs with ⟨-, rfl⟩ | ⟨x, rest, -, -, hx⟩
  · exact h
  · have hrest : State.Fits { s with script := rest } := { h with }
    rcases hx with hx | ⟨w, i, -, -, -, he⟩
    · exact hrest.transact hx
    · exact hrest.exec hc he

/-- Settles O60: the field laws hold after every transaction and every command, by the commands' own bounds. -/
theorem stepsKeepValuesInFields : Obligations.StepsKeepValuesInFields := by
  intro s t hc h hs
  exact Memory.fits_iff.2 ((Memory.fits_iff.1 h).step hc hs)

end Sys2Proof.Machine
end

section
/-! SUPPORT. The frame of a command (R41): the registers and windows that the stores, the losses and the end of a
command leave, gathered for each command over its pseudocode. -/

namespace Sys2Proof.Machine

/-! ## What an update of State leaves -/

/-- `t` differs from `s` only in the listed registers and windows and in the draws. -/
structure State.Frame (regs : List Nat) (wins : List Win) (s t : State) : Prop where
  status : 1 ∈ regs ∨ t.status = s.status
  seglen : t.seglen = s.seglen
  charlen : t.charlen = s.charlen
  inlen : t.inlen = s.inlen
  nseg : 5 ∈ regs ∨ t.nseg = s.nseg
  bitlen : 6 ∈ regs ∨ t.bitlen = s.bitlen
  outlen : 7 ∈ regs ∨ t.outlen = s.outlen
  errseg : 8 ∈ regs ∨ t.errseg = s.errseg
  errpos : 9 ∈ regs ∨ t.errpos = s.errpos
  imem : t.imem = s.imem
  ftN : .ftN ∈ wins ∨ t.ftN = s.ftN
  ft : .ft ∈ wins ∨ t.ft = s.ft
  treeN : .treeN ∈ wins ∨ t.treeN = s.treeN
  tree : .tree ∈ wins ∨ t.tree = s.tree
  ctN : .ctN ∈ wins ∨ t.ctN = s.ctN
  ct : .ct ∈ wins ∨ t.ct = s.ct
  bitmem : .bitmem ∈ wins ∨ t.bitmem = s.bitmem
  omem : .omem ∈ wins ∨ t.omem = s.omem
  params : t.params = s.params
  script : t.script = s.script
  reads : t.reads = s.reads

section
variable {regs regs' : List Nat} {wins wins' : List Win} {s t u : State}

theorem State.Frame.mono (h : State.Frame regs wins s t) (hr : regs ⊆ regs') (hw : wins ⊆ wins') :
    State.Frame regs' wins' s t :=
  { h with
    status := h.status.imp_left (@hr _)
    nseg := h.nseg.imp_left (@hr _)
    bitlen := h.bitlen.imp_left (@hr _)
    outlen := h.outlen.imp_left (@hr _)
    errseg := h.errseg.imp_left (@hr _)
    errpos := h.errpos.imp_left (@hr _)
    ftN := h.ftN.imp_left (@hw _)
    ft := h.ft.imp_left (@hw _)
    treeN := h.treeN.imp_left (@hw _)
    tree := h.tree.imp_left (@hw _)
    ctN := h.ctN.imp_left (@hw _)
    ct := h.ct.imp_left (@hw _)
    bitmem := h.bitmem.imp_left (@hw _)
    omem := h.omem.imp_left (@hw _) }

/-- A place the first update or the second may change, or that both leave. -/
theorem or_eq_trans {α : Type} {p : Prop} {a b c : α} (h : p ∨ b = a) (h' : p ∨ c = b) : p ∨ c = a :=
  h.elim .inl fun e => h'.imp_right fun e' => e'.trans e

theorem State.Frame.trans (h : State.Frame regs wins s t) (h' : State.Frame regs wins t u) :
    State.Frame regs wins s u where
  status := or_eq_trans h.status h'.status
  seglen := h'.seglen.trans h.seglen
  charlen := h'.charlen.trans h.charlen
  inlen := h'.inlen.trans h.inlen
  nseg := or_eq_trans h.nseg h'.nseg
  bitlen := or_eq_trans h.bitlen h'.bitlen
  outlen := or_eq_trans h.outlen h'.outlen
  errseg := or_eq_trans h.errseg h'.errseg
  errpos := or_eq_trans h.errpos h'.errpos
  imem := h'.imem.trans h.imem
  ftN := or_eq_trans h.ftN h'.ftN
  ft := or_eq_trans h.ft h'.ft
  treeN := or_eq_trans h.treeN h'.treeN
  tree := or_eq_trans h.tree h'.tree
  ctN := or_eq_trans h.ctN h'.ctN
  ct := or_eq_trans h.ct h'.ct
  bitmem := or_eq_trans h.bitmem h'.bitmem
  omem := or_eq_trans h.omem h'.omem
  params := h'.params.trans h.params
  script := h'.script.trans h.script
  reads := h'.reads.trans h.reads

theorem State.Frame.readReg (h : State.Frame regs wins s t) {n : Nat} (hn : n ∉ regs) :
    readReg t n = readReg s n := by
  unfold Machine.readReg
  split
  · rfl
  · exact congrArg some (h.status.resolve_left hn)
  · exact congrArg some h.seglen
  · exact congrArg some h.charlen
  · exact congrArg some h.inlen
  · exact congrArg some (h.nseg.resolve_left hn)
  · exact congrArg some (h.bitlen.resolve_left hn)
  · exact congrArg some (h.outlen.resolve_left hn)
  · exact congrArg some (h.errseg.resolve_left hn)
  · exact congrArg some (h.errpos.resolve_left hn)
  · rfl

theorem State.Frame.element (h : State.Frame regs wins s t) {a : WinAddr} (ha : a.win ∉ wins) :
    t.element a = s.element a := by
  cases a with
  | imem i => simp only [State.element, h.imem]
  | ftN i => simp only [State.element, h.ftN.resolve_left ha]
  | ft i e => simp only [State.element, h.ft.resolve_left ha]
  | treeN i => simp only [State.element, h.treeN.resolve_left ha]
  | tree i n => simp only [State.element, h.tree.resolve_left ha]
  | ctN i => simp only [State.element, h.ctN.resolve_left ha]
  | ct i e => simp only [State.element, h.ct.resolve_left ha]
  | bitmem b => simp only [State.element, h.bitmem.resolve_left ha]
  | omem i => simp only [State.element, h.omem.resolve_left ha]

theorem State.Frame.keepsUnwritten {i : Instr} (h : State.Frame (writesReg i) (writesWin i) s t) :
    KeepsUnwritten i s t :=
  ⟨fun _ hn => h.readReg hn, fun _ hw _ ha => h.element (ha ▸ hw), h.params, h.script, h.reads⟩

end

/-! ## The updates -/

section
variable (s : State)

theorem State.frame_complete : State.Frame [1] [] s s.complete := by constructor <;> simp

theorem State.frame_takeFault (r : Raise) : State.Frame [1, 8, 9] [] s (s.takeFault r) := by constructor <;> simp

theorem State.frame_storeCounts (ts : List (List FtEntry)) : State.Frame [5] [.ftN, .ft] s (s.storeCounts ts) := by
  constructor <;> simp

theorem State.frame_storeTrees (ts : List (List TreeNode)) :
    State.Frame [] [.treeN, .tree] s (s.storeTrees ts) := by constructor <;> simp

theorem State.frame_storeCodes (ts : List (List CtEntry)) : State.Frame [] [.ctN, .ct] s (s.storeCodes ts) := by
  constructor <;> simp

theorem State.frame_storeStream (bits : List Bool) : State.Frame [6] [.bitmem] s (s.storeStream bits) := by
  constructor <;> simp

theorem State.frame_storeOutput (out : List RawUnit) : State.Frame [7] [.omem] s (s.storeOutput out) := by
  constructor <;> simp

theorem State.frame_loseCounts : State.Frame [5] [.ftN, .ft] s s.loseCounts := by constructor <;> simp

theorem State.frame_loseTrees : State.Frame [] [.treeN, .tree] s s.loseTrees := by constructor <;> simp

theorem State.frame_loseCodes : State.Frame [] [.ctN, .ct] s s.loseCodes := by constructor <;> simp

theorem State.frame_loseAllTables :
    State.Frame [5] [.ftN, .ft, .treeN, .tree, .ctN, .ct] s s.loseAllTables := by constructor <;> simp

theorem State.frame_loseStream : State.Frame [6] [.bitmem] s s.loseStream := by constructor <;> simp

theorem State.frame_loseOutput : State.Frame [7] [.omem] s s.loseOutput := by constructor <;> simp

end

/-! ## The commands -/

section
variable {s t : State}

theorem countPhase_frame (h : countPhase s = .ok t) : State.Frame [5] [.ftN, .ft] s t := by
  obtain ⟨-, _, tables, -, -, rfl⟩ := countPhase_eq_ok.1 h
  exact s.frame_storeCounts tables

theorem buildPhase_frame (h : buildPhase s = .ok t) : State.Frame [] [.treeN, .tree] s t := by
  obtain ⟨-, tables, -, rfl⟩ := buildPhase_eq_ok.1 h
  exact s.frame_storeTrees _

theorem genPhase_frame (h : genPhase s = .ok t) : State.Frame [] [.ctN, .ct] s t := by
  obtain ⟨-, trees, -, rfl⟩ := genPhase_eq_ok.1 h
  exact s.frame_storeCodes _

theorem buildCodesPhase_frame (h : buildCodesPhase s = .ok t) :
    State.Frame [5] [.ftN, .ft, .treeN, .tree, .ctN, .ct] s t := by
  obtain ⟨u, v, hu, hv, ht⟩ := buildCodesPhase_eq_ok.1 h
  have hcount := (countPhase_frame hu).mono (regs' := [5]) (wins' := [.ftN, .ft, .treeN, .tree, .ctN, .ct])
    (by decide) (by decide)
  have hbuild := (buildPhase_frame hv).mono (regs' := [5]) (wins' := [.ftN, .ft, .treeN, .tree, .ctN, .ct])
    (by decide) (by decide)
  have hgen := (genPhase_frame ht).mono (regs' := [5]) (wins' := [.ftN, .ft, .treeN, .tree, .ctN, .ct])
    (by decide) (by decide)
  exact (hcount.trans hbuild).trans hgen

theorem encodePhase_frame (h : encodePhase s = .ok t) : State.Frame [6] [.bitmem] s t := by
  obtain ⟨-, _, _, bits, -, -, -, rfl⟩ := encodePhase_eq_ok.1 h
  exact s.frame_storeStream bits

theorem decodePhase_frame (h : decodePhase s = .ok t) : State.Frame [7] [.omem] s t := by
  obtain ⟨-, _, _, out, -, -, -, rfl⟩ := decodePhase_eq_ok.1 h
  exact s.frame_storeOutput out

/-- A command leaves what its pseudocode and its losses leave, but for STATUS, ERRSEG and ERRPOS. -/
theorem State.Frame.conclude {regs regs' : List Nat} {wins : List Win} {lose : State → State}
    {r : Except Stop State} (hregs : [1, 8, 9] ⊆ regs) (hsub : regs' ⊆ regs) (hlose : State.Frame regs' wins s (lose s))
    (hr : ∀ u, r = .ok u → State.Frame regs' wins s u) (hc : conclude lose s r = .next t) :
    State.Frame regs wins s t := by
  have hfault (u : State) (e : Raise) : State.Frame regs wins u (u.takeFault e) :=
    (u.frame_takeFault e).mono hregs (List.nil_subset _)
  rcases conclude_eq_next.1 hc with ⟨u, hu, rfl⟩ | ⟨e, -, rfl⟩
  · have hone : [1] ⊆ regs := fun n hn => hregs (List.mem_cons.2 (.inl (List.mem_singleton.1 hn)))
    exact ((hr u hu).mono hsub (List.Subset.refl _)).trans (u.frame_complete.mono hone (List.nil_subset _))
  · split
    · exact hfault s e
    · exact (hlose.mono hsub (List.Subset.refl _)).trans (hfault _ e)

theorem exec_frame {i : Instr} (h : exec i s = .next t) : State.Frame (writesReg i) (writesWin i) s t := by
  cases i with
  | nop => cases h; exact s.frame_complete
  | count => exact .conclude (by decide) (by decide) s.frame_loseCounts (fun _ => countPhase_frame) h
  | build => exact .conclude (by decide) (by decide) s.frame_loseTrees (fun _ => buildPhase_frame) h
  | gen => exact .conclude (by decide) (by decide) s.frame_loseCodes (fun _ => genPhase_frame) h
  | buildCodes => exact .conclude (by decide) (by decide) s.frame_loseAllTables (fun _ => buildCodesPhase_frame) h
  | encode => exact .conclude (by decide) (by decide) s.frame_loseStream (fun _ => encodePhase_frame) h
  | decode => exact .conclude (by decide) (by decide) s.frame_loseOutput (fun _ => decodePhase_frame) h

end

/-- Settles O9: the frame of each command names no more than R41 lists. -/
theorem commandsKeepWhatTheyDoNotWrite : Obligations.CommandsKeepWhatTheyDoNotWrite :=
  fun _ _ _ h => (exec_frame h).keepsUnwritten

end Sys2Proof.Machine
end

section
/-! SUPPORT. The faults of each command (R146): which `raise` its pseudocode can come to, and so how it ends. -/

namespace Sys2Proof.Machine

section
variable {s t : State} {e : Raise}

/-! ## The checks and the operands -/

theorem countChecks_raise (h : countChecks s = .error (.raise e)) : e = ⟨.config, 0, 0⟩ ∨ e = ⟨.capacity, 0, 0⟩ := by
  simp only [countChecks, bind_eq_error, raiseIf_eq_error, Stop.raise.injEq] at h
  tauto

theorem encodeChecks_raise (h : encodeChecks s = .error (.raise e)) :
    e = ⟨.config, 0, 0⟩ ∨ e = ⟨.capacity, 0, 0⟩ := by
  simp only [encodeChecks, bind_eq_error, raiseIf_eq_error, Stop.raise.injEq] at h
  tauto

theorem decodeChecks_raise (h : decodeChecks s = .error (.raise e)) :
    e = ⟨.config, 0, 0⟩ ∨ e = ⟨.capacity, 0, 0⟩ := by
  simp only [decodeChecks, bind_eq_error, raiseIf_eq_error, Stop.raise.injEq] at h
  tauto

theorem orRefuse_ne_raise {α : Type} {r : Refusal} {o : Option α} : orRefuse r o ≠ .error (.raise e) := by
  intro h
  cases (orRefuse_eq_error.1 h).2

theorem loadInput_ne_raise : loadInput s ≠ .error (.raise e) := orRefuse_ne_raise

theorem loadStream_ne_raise : loadStream s ≠ .error (.raise e) := orRefuse_ne_raise

/-- Loading tables can be refused and raises nothing. -/
theorem traverse_loadTable_ne_raise {α : Type} {w : Win} {get : Nat → Option (List (Stored α))} {ok : List α → Bool}
    {is : List Nat} : traverse (loadTable w get ok) is ≠ .error (.raise e) := by
  intro h
  obtain ⟨i, -, hi⟩ := traverse_eq_error h
  rcases loadTable_eq_error hi with ⟨-, h⟩ | ⟨_, -, h, -⟩ <;> cases h

/-! ## The work -/

theorem countSegment_raise {cap : Nat} {T : List FtEntry} {ys : List Symbol}
    (h : countSegment cap T ys = .error (.raise e)) : e = ⟨.capacity, 0, 0⟩ := by
  induction ys generalizing T with
  | nil => cases h
  | cons y ys ih =>
    rw [countSegment] at h
    split at h
    · exact ih h
    · split at h
      · cases h; rfl
      · exact ih h

theorem encodeSymbols_raise {cap : Nat} {T : Option (List CtEntry)} {i j : Nat} {ys : List Symbol} {bits : List Bool}
    (h : encodeSymbols cap T i j ys bits = .error (.raise e)) : e = ⟨.capacity, 0, 0⟩ ∨ e.code = .lookup := by
  induction ys generalizing j bits with
  | nil => cases h
  | cons y ys ih =>
    rw [encodeSymbols] at h
    split at h
    · cases h; exact .inr rfl
    · split at h
      · cases h; exact .inl rfl
      · exact ih h

theorem encodeSegments_raise {cap : Nat} {tables : List (List CtEntry)} {i : Nat} {segs : List (List Symbol)}
    {bits : List Bool} (h : encodeSegments cap tables i segs bits = .error (.raise e)) :
    e = ⟨.capacity, 0, 0⟩ ∨ e.code = .lookup := by
  induction segs generalizing i bits with
  | nil => cases h
  | cons ys segs ih =>
    rw [encodeSegments, bind_eq_error] at h
    rcases h with h | ⟨bits', -, h⟩
    · exact encodeSymbols_raise h
    · exact ih h

theorem decodeSymbol_raise {ns : List TreeNode} {i cnt : Nat} {bits : List Bool}
    (h : decodeSymbol ns i cnt bits = .error (.raise e)) : e.code = .trunc ∨ e.code = .badstream := by
  unfold decodeSymbol at h
  split at h
  · split at h
    · cases h; exact .inl rfl
    · cases h; exact .inr rfl
    · cases h
  · split at h
    · cases h; exact .inl rfl
    · cases h

theorem decodeSegment_raise {cap : Nat} {ns : List TreeNode} {i : Nat} {last : Bool} {more cnt : Nat}
    {bits : List Bool} {out : List RawUnit} (h : decodeSegment cap ns i last more cnt bits out = .error (.raise e)) :
    e = ⟨.capacity, 0, 0⟩ ∨ e.code = .trunc ∨ e.code = .badstream := by
  induction more generalizing cnt bits out with
  | zero => cases h
  | succ more ih =>
    rw [decodeSegment] at h
    split at h
    · cases h
    · rcases bind_eq_error.1 h with h | ⟨r, -, h⟩
      · exact .inr (decodeSymbol_raise h)
      · rcases bind_eq_error.1 h with h | ⟨_, -, h⟩
        · exact .inl (Stop.raise.inj (raiseIf_eq_error.1 h).2)
        · exact ih h

theorem decodeSegments_raise {cap k i : Nat} {trees : List (List TreeNode)} {bits : List Bool} {out : List RawUnit}
    (h : decodeSegments cap k i trees bits out = .error (.raise e)) :
    e = ⟨.capacity, 0, 0⟩ ∨ e.code = .trunc ∨ e.code = .badstream := by
  induction trees generalizing i bits out with
  | nil => cases h
  | cons ns trees ih =>
    rw [decodeSegments] at h
    rcases bind_eq_error.1 h with h | ⟨r, -, h⟩
    · exact decodeSegment_raise h
    · exact ih h

theorem checkTrailing_raise {k : Nat} {bits : List Bool} (h : checkTrailing k bits = .error (.raise e)) :
    e.code = .badstream := by
  unfold checkTrailing at h
  split at h
  · cases h
  · cases h; rfl

/-! ## The phases -/

theorem countPhase_raise (h : countPhase s = .error (.raise e)) : e = ⟨.config, 0, 0⟩ ∨ e = ⟨.capacity, 0, 0⟩ := by
  rcases bind_eq_error.1 h with h | ⟨_, -, h⟩
  · exact countChecks_raise h
  rcases bind_eq_error.1 h with h | ⟨input, -, h⟩
  · exact absurd h loadInput_ne_raise
  rcases bind_eq_error.1 h with h | ⟨tables, -, h⟩
  · obtain ⟨ys, -, h⟩ := traverse_eq_error h
    exact .inr (countSegment_raise h)
  · cases h

theorem buildPhase_raise (h : buildPhase s = .error (.raise e)) : e = ⟨.capacity, 0, 0⟩ := by
  rcases bind_eq_error.1 h with h | ⟨_, -, h⟩
  · exact Stop.raise.inj (raiseIf_eq_error.1 h).2
  rcases bind_eq_error.1 h with h | ⟨tables, -, h⟩
  · exact absurd h traverse_loadTable_ne_raise
  · cases h

theorem genPhase_raise (h : genPhase s = .error (.raise e)) : e = ⟨.capacity, 0, 0⟩ := by
  rcases bind_eq_error.1 h with h | ⟨_, -, h⟩
  · exact Stop.raise.inj (raiseIf_eq_error.1 h).2
  rcases bind_eq_error.1 h with h | ⟨trees, -, h⟩
  · exact absurd h traverse_loadTable_ne_raise
  · cases h

theorem buildCodesPhase_raise (h : buildCodesPhase s = .error (.raise e)) :
    e = ⟨.config, 0, 0⟩ ∨ e = ⟨.capacity, 0, 0⟩ := by
  rcases bind_eq_error.1 h with h | ⟨u, -, h⟩
  · exact countPhase_raise h
  rcases bind_eq_error.1 h with h | ⟨v, -, h⟩
  · exact .inr (buildPhase_raise h)
  · exact .inr (genPhase_raise h)

theorem encodePhase_raise (h : encodePhase s = .error (.raise e)) :
    e = ⟨.config, 0, 0⟩ ∨ e = ⟨.capacity, 0, 0⟩ ∨ e.code = .lookup := by
  rcases bind_eq_error.1 h with h | ⟨_, -, h⟩
  · exact (encodeChecks_raise h).imp_right .inl
  rcases bind_eq_error.1 h with h | ⟨input, -, h⟩
  · exact absurd h loadInput_ne_raise
  rcases bind_eq_error.1 h with h | ⟨tables, -, h⟩
  · exact absurd h traverse_loadTable_ne_raise
  rcases bind_eq_error.1 h with h | ⟨bits, -, h⟩
  · exact .inr (encodeSegments_raise h)
  · cases h

theorem decodePhase_raise (h : decodePhase s = .error (.raise e)) :
    e = ⟨.config, 0, 0⟩ ∨ e = ⟨.capacity, 0, 0⟩ ∨ e.code = .trunc ∨ e.code = .badstream := by
  rcases bind_eq_error.1 h with h | ⟨_, -, h⟩
  · exact (decodeChecks_raise h).imp_right .inl
  rcases bind_eq_error.1 h with h | ⟨bits, -, h⟩
  · exact absurd h loadStream_ne_raise
  rcases bind_eq_error.1 h with h | ⟨trees, -, h⟩
  · exact absurd h traverse_loadTable_ne_raise
  rcases bind_eq_error.1 h with h | ⟨r, -, h⟩
  · exact .inr (decodeSegments_raise h)
  rcases bind_eq_error.1 h with h | ⟨_, -, h⟩
  · exact .inr (.inr (.inr (checkTrailing_raise h)))
  · cases h

/-! ## The end of a command -/

/-- The raises R146 lists for a command. -/
def MayRaise (i : Instr) (e : Raise) : Prop :=
  match i with
  | .nop => False
  | .count | .buildCodes => e = ⟨.config, 0, 0⟩ ∨ e = ⟨.capacity, 0, 0⟩
  | .build | .gen => e = ⟨.capacity, 0, 0⟩
  | .encode => e = ⟨.config, 0, 0⟩ ∨ e = ⟨.capacity, 0, 0⟩ ∨ e.code = .lookup
  | .decode => e = ⟨.config, 0, 0⟩ ∨ e = ⟨.capacity, 0, 0⟩ ∨ e.code = .trunc ∨ e.code = .badstream

/-- `ERR_CONFIG` and `ERR_CAPACITY` of a command are raised at (0, 0). -/
theorem MayRaise.position {i : Instr} (h : MayRaise i e) (hcode : e.code = .config ∨ e.code = .capacity) :
    e.seg = 0 ∧ e.pos = 0 := by
  have hother {c : ErrCode} (hc : e.code = c) (hne : ¬ (c = .config ∨ c = .capacity)) : e.seg = 0 ∧ e.pos = 0 :=
    absurd (hc ▸ hcode) hne
  cases i
  case nop => exact h.elim
  case count | buildCodes => rcases h with rfl | rfl <;> exact ⟨rfl, rfl⟩
  case build | gen => cases h; exact ⟨rfl, rfl⟩
  case encode =>
    rcases h with rfl | rfl | h
    · exact ⟨rfl, rfl⟩
    · exact ⟨rfl, rfl⟩
    · exact hother h (by decide)
  case decode =>
    rcases h with rfl | rfl | h | h
    · exact ⟨rfl, rfl⟩
    · exact ⟨rfl, rfl⟩
    · exact hother h (by decide)
    · exact hother h (by decide)

/-- A command with DONE leaves ERRSEG and ERRPOS (R19), or it ends with one of its raises (R150). -/
def DoneOrFault (i : Instr) (s t : State) : Prop :=
  (t.status = statusOfDone ∧ t.errseg = s.errseg ∧ t.errpos = s.errpos) ∨
    ∃ e, MayRaise i e ∧ t.status = statusOfFault e.code ∧ t.errseg = BitVec.ofNat 32 e.seg ∧
      t.errpos = BitVec.ofNat 32 e.pos

/-- A command ends so where its pseudocode leaves ERRSEG and ERRPOS and comes to no other raise. -/
theorem doneOrFault_of_conclude {i : Instr} {regs : List Nat} {wins : List Win} {lose : State → State}
    {r : Except Stop State} (hregs : 8 ∉ regs ∧ 9 ∉ regs) (hr : ∀ u, r = .ok u → State.Frame regs wins s u)
    (hraise : ∀ e, r = .error (.raise e) → MayRaise i e) (h : conclude lose s r = .next t) : DoneOrFault i s t := by
  rcases conclude_eq_next.1 h with ⟨u, hu, rfl⟩ | ⟨e, he, rfl⟩
  · exact .inl ⟨rfl, (hr u hu).errseg.resolve_left hregs.1, (hr u hu).errpos.resolve_left hregs.2⟩
  · exact .inr ⟨e, hraise e he, rfl, rfl, rfl⟩

theorem exec_doneOrFault {i : Instr} (h : exec i s = .next t) : DoneOrFault i s t := by
  cases i with
  | nop => cases h; exact .inl ⟨rfl, rfl, rfl⟩
  | count => exact doneOrFault_of_conclude (by decide) (fun _ => countPhase_frame) (fun _ => countPhase_raise) h
  | build => exact doneOrFault_of_conclude (by decide) (fun _ => buildPhase_frame) (fun _ => buildPhase_raise) h
  | gen => exact doneOrFault_of_conclude (by decide) (fun _ => genPhase_frame) (fun _ => genPhase_raise) h
  | buildCodes =>
    exact doneOrFault_of_conclude (by decide) (fun _ => buildCodesPhase_frame) (fun _ => buildCodesPhase_raise) h
  | encode => exact doneOrFault_of_conclude (by decide) (fun _ => encodePhase_frame) (fun _ => encodePhase_raise) h
  | decode => exact doneOrFault_of_conclude (by decide) (fun _ => decodePhase_frame) (fun _ => decodePhase_raise) h

theorem statusOfFault_ne_statusOfDone (c : ErrCode) : statusOfFault c ≠ statusOfDone := by
  cases c <;> decide

/-- A command that answers DONE completes: R18, R19 and R41 give the rest. -/
theorem completesWith_of_exec {i : Instr} (h : exec i s = .next t) (hdone : t.status = statusOfDone) :
    CompletesWith i s t := by
  rcases exec_doneOrFault h with ⟨-, hseg, hpos⟩ | ⟨e, -, hfault, -⟩
  · exact ⟨h, hdone, hseg, hpos, (exec_frame h).keepsUnwritten⟩
  · exact absurd (hfault.symm.trans hdone) (statusOfFault_ne_statusOfDone _)

/-- A completed command came to the end of its pseudocode. -/
theorem conclude_done {lose : State → State} {r : Except Stop State} (h : conclude lose s r = .next t)
    (hdone : t.status = statusOfDone) : ∃ u, r = .ok u ∧ t = u.complete := by
  rcases conclude_eq_next.1 h with h | ⟨e, -, rfl⟩
  · exact h
  · exact absurd hdone (statusOfFault_ne_statusOfDone _)

/-- Settles O8: each command's raises are those of R146. -/
theorem commandsEndDoneOrInTheirFaults : Obligations.CommandsEndDoneOrInTheirFaults := by
  intro i s t h
  refine (exec_doneOrFault h).imp_right fun ⟨e, hraise, hstatus, hseg, hpos⟩ => ⟨e.code, hstatus, ?_, fun hcode => ?_⟩
  · cases i
    case nop => exact hraise
    case count | buildCodes => exact hraise.imp (congrArg Raise.code) (congrArg Raise.code)
    case build | gen => exact congrArg Raise.code hraise
    case encode | decode => exact hraise.imp (congrArg Raise.code) (Or.imp_left (congrArg Raise.code))
  · obtain ⟨h₀, h₁⟩ := hraise.position hcode
    rw [hseg, hpos, h₀, h₁]
    exact ⟨rfl, rfl⟩

end

/-! ## Legal STATUS words -/

/-- Settles O58: STATUS is written by the end of a command, a reserved word and the reset event alone. -/
theorem stepsKeepStatusLegal : Obligations.StepsKeepStatusLegal := by
  intro s t hs h
  rcases step_cases h with ⟨-, rfl⟩ | ⟨x, rest, -, -, hx | ⟨w, i, -, -, -, he⟩⟩
  · exact hs
  · rcases transact_eq_quiet hx with ⟨r, d, rfl⟩ | ⟨n, v, -, hw⟩ | ⟨w, -, -, rfl⟩ | ⟨w, -, hw⟩ | ⟨-, rfl⟩
    · exact hs
    · rcases writeReg_cases hw with rfl | rfl | rfl | rfl | rfl | rfl <;> exact hs
    · cases w <;> exact hs
    · rcases writeCmd_cases { s with script := rest } w with ⟨-, e⟩ | ⟨-, i, -, e⟩ | ⟨-, e', -, e⟩ <;> rw [e] at hw <;>
        cases hw
      · exact hs
      · exact .inr (.inr ⟨.badcmd, rfl⟩)
    · exact .inl rfl
  · rcases exec_doneOrFault he with ⟨hdone, -⟩ | ⟨e, -, hfault, -⟩
    · exact .inr (.inl hdone)
    · exact .inr (.inr ⟨e.code, hfault⟩)

end Sys2Proof.Machine
end

section
/-! SUPPORT. What a command that completed leaves: the tables it stored and no other location of their windows (R33). -/

namespace Sys2Proof.Machine

section
variable (s : State)

@[simp] theorem State.element_complete (a : WinAddr) : s.complete.element a = s.element a := by cases a <;> rfl
@[simp] theorem State.freqTable_complete (i : Nat) : s.complete.freqTable i = s.freqTable i := rfl
@[simp] theorem State.arena_complete (i : Nat) : s.complete.arena i = s.arena i := rfl
@[simp] theorem State.codeTable_complete (i : Nat) : s.complete.codeTable i = s.codeTable i := rfl
@[simp] theorem State.stream_complete : s.complete.stream = s.stream := rfl
@[simp] theorem State.output_complete : s.complete.output = s.output := rfl

end

theorem Table.read_ofRecords {α : Type} (ts : List (List α)) (i e : Nat) :
    Table.read (Table.ofRecords ts) i e = ((ts.getD i [])[e]?).map Stored.record := by
  rw [Table.ofRecords, Table.read_ofLists, List.getD_eq_getElem?_getD, List.getD_eq_getElem?_getD, List.getElem?_map]
  cases ts[i]? <;> simp

theorem Table.read_ofRecords_eq_none {α : Type} {ts : List (List α)} {i e : Nat} (h : (ts.getD i []).length ≤ e) :
    Table.read (Table.ofRecords ts) i e = none := by
  rw [Table.read_ofRecords, List.getElem?_eq_none h, Option.map_none]

theorem Window.read_ofList_eq_none {α : Type} {vs : List α} {i : Nat} (h : vs.length ≤ i) :
    Window.read (Window.ofList vs) i = none := by
  rw [Window.read_ofList, List.getElem?_eq_none h]

/-- A segment at or above the number of tables has an empty one. -/
theorem getD_length_le {α : Type} {ts : List (List α)} {i : Nat} (h : ts.length ≤ i) (e : Nat) :
    (ts.getD i []).length ≤ e := by
  rw [List.getD_eq_default _ _ h]
  exact Nat.zero_le e

section
variable {s : State} {i e : Nat}

theorem State.element_ft_storeCounts {ts : List (List FtEntry)} (h : (ts.getD i []).length ≤ e) :
    (s.storeCounts ts).element (.ft i e) = none := by
  rw [State.element, State.storeCounts_ft, Table.read_ofRecords_eq_none h, Option.map_none]

theorem State.element_ftN_storeCounts {ts : List (List FtEntry)} (h : ts.length ≤ i) :
    (s.storeCounts ts).element (.ftN i) = none := by
  rw [State.element, State.storeCounts_ftN, Window.read_ofList_eq_none (by simpa using h), Option.map_none]

theorem State.element_tree_storeTrees {ts : List (List TreeNode)} (h : (ts.getD i []).length ≤ e) :
    (s.storeTrees ts).element (.tree i e) = none := by
  rw [State.element, State.storeTrees_tree, Table.read_ofRecords_eq_none h, Option.map_none]

theorem State.element_treeN_storeTrees {ts : List (List TreeNode)} (h : ts.length ≤ i) :
    (s.storeTrees ts).element (.treeN i) = none := by
  rw [State.element, State.storeTrees_treeN, Window.read_ofList_eq_none (by simpa using h), Option.map_none]

theorem State.element_ct_storeCodes {ts : List (List CtEntry)} (h : (ts.getD i []).length ≤ e) :
    (s.storeCodes ts).element (.ct i e) = none := by
  rw [State.element, State.storeCodes_ct, Table.read_ofRecords_eq_none h, Option.map_none]

theorem State.element_ctN_storeCodes {ts : List (List CtEntry)} (h : ts.length ≤ i) :
    (s.storeCodes ts).element (.ctN i) = none := by
  rw [State.element, State.storeCodes_ctN, Window.read_ofList_eq_none (by simpa using h), Option.map_none]

theorem State.element_bitmem_storeStream {bits : List Bool} (h : bits.length ≤ i) :
    (s.storeStream bits).element (.bitmem i) = none := by
  rw [State.element, State.storeStream_bitmem, Window.read_ofList_eq_none h, Option.map_none]

theorem State.element_omem_storeOutput {out : List RawUnit} (h : out.length ≤ i) :
    (s.storeOutput out).element (.omem i) = none := by
  rw [State.element, State.storeOutput_omem, Window.read_ofList_eq_none h, Option.map_none]

theorem State.stream_storeStream {bits : List Bool} (h : bits.length < 2 ^ 32) :
    (s.storeStream bits).stream = some bits := by
  rw [State.stream, State.storeStream_bitlen, BitVec.toNat_ofNat, Nat.mod_eq_of_lt h]
  exact Window.readFrom_ofList bits

theorem State.output_storeOutput {out : List RawUnit} (h : out.length < 2 ^ 32) :
    (s.storeOutput out).output = some out := by
  rw [State.output, State.storeOutput_outlen, BitVec.toNat_ofNat, Nat.mod_eq_of_lt h]
  exact Window.readFrom_ofList out

/-! ## Operands that are all there -/

theorem loadFreqTables_of_ready {k : Nat} {tables : Nat → List FtEntry}
    (h : ∀ i < k, s.freqTable i = some (tables i) ∧ wfFt s.params (tables i) = true) :
    loadFreqTables s k = .ok ((List.range k).map tables) := by
  refine loadFreqTables_eq_ok.2 ⟨by simp, fun i hi => ?_⟩
  simpa using h i (by simpa using hi)

theorem loadTrees_of_ready {k : Nat} {trees : Nat → List TreeNode}
    (h : ∀ i < k, s.arena i = some (trees i) ∧ wfTree s.params (trees i) = true) :
    loadTrees s k = .ok ((List.range k).map trees) := by
  refine loadTrees_eq_ok.2 ⟨by simp, fun i hi => ?_⟩
  simpa using h i (by simpa using hi)

theorem loadCodeTables_of_ready {k : Nat} {tables : Nat → List CtEntry}
    (h : ∀ i < k, s.codeTable i = some (tables i) ∧ wfCt s.params (tables i) = true) :
    loadCodeTables s k = .ok ((List.range k).map tables) := by
  refine loadCodeTables_eq_ok.2 ⟨by simp, fun i hi => ?_⟩
  simpa using h i (by simpa using hi)

end

end Sys2Proof.Machine
end

section
/-! SUPPORT. What `build_tree` keeps while it merges (R93, R94): the nodes of the queue are those without a parent,
every other node has one, and the queue's frequencies add up to the counts.  WF_TREE and WF_FREQ of a built tree
(R97) are the end of it. -/

namespace Sys2Proof.Machine

/-! ## A node added to an arena -/

section
variable {ns ms : List TreeNode} {n : TreeNode}

theorem childrenBelowFrom_append (k : Nat) :
    childrenBelowFrom k (ns ++ [n]) = (childrenBelowFrom k ns && childrenBelow (k + ns.length) n) := by
  induction ns generalizing k with
  | nil => simp [childrenBelowFrom]
  | cons m ns ih => simp [childrenBelowFrom, ih, Bool.and_assoc, Nat.add_assoc, Nat.add_comm 1]

theorem parentCount_append (x : Nat) :
    parentCount (ns ++ [n]) x = parentCount ns x + if n.hasChild x then 1 else 0 := by
  simp [parentCount, List.countP_append, List.countP_singleton]

theorem wfFreq_iff :
    wfFreq ns = true ↔ (∀ y f, TreeNode.leaf y f ∈ ns → 1 ≤ f) ∧
      ∀ l r f, TreeNode.internal l r f ∈ ns → f = freqAt ns l + freqAt ns r := by
  unfold wfFreq
  rw [List.all_eq_true]
  constructor
  · intro h
    exact ⟨fun y f hn => of_decide_eq_true (h _ hn), fun l r f hn => of_decide_eq_true (h _ hn)⟩
  · rintro ⟨hleaf, hinternal⟩ n hn
    cases n with
    | leaf y f => exact decide_eq_true (hleaf y f hn)
    | internal l r f => exact decide_eq_true (hinternal l r f hn)

/-- A merge makes a node whose frequency is the sum of two nodes of the arena (R94). -/
theorem wfFreq_append_internal {l r : Nat} (hbelow : childrenBelowFrom 0 ns = true) (hfreq : wfFreq ns = true)
    (hl : l < ns.length) (hr : r < ns.length) :
    wfFreq (ns ++ [.internal l r (freqAt ns l + freqAt ns r)]) = true := by
  obtain ⟨hleaf, hinternal⟩ := wfFreq_iff.1 hfreq
  refine wfFreq_iff.2 ⟨fun y f hn => ?_, fun l' r' f hn => ?_⟩
  · exact hleaf y f (by simpa using hn)
  · rcases List.mem_append.1 hn with hn | hn
    · obtain ⟨x, hx⟩ := List.getElem?_of_mem hn
      obtain ⟨hl', hr', -⟩ := children_lt hbelow hx
      have hlt := (List.getElem?_eq_some_iff.1 hx).1
      rw [freqAt_append_of_lt (hl'.trans hlt), freqAt_append_of_lt (hr'.trans hlt)]
      exact hinternal l' r' f hn
    · cases List.mem_singleton.1 hn
      rw [freqAt_append_of_lt hl, freqAt_append_of_lt hr]

theorem leafSymbols_append : leafSymbols (ns ++ ms) = leafSymbols ns ++ leafSymbols ms := List.filterMap_append

theorem leafSymbols_eq_nil (h : ∀ n ∈ ms, n.internals = 1) : leafSymbols ms = [] := by
  refine List.filterMap_eq_nil_iff.2 fun n hn => ?_
  cases n with
  | leaf y f => cases h _ hn
  | internal l r f => rfl

end

/-! ## The merging loop -/

theorem extractMin_eq_none {ns : List TreeNode} {pq : List Nat} : extractMin ns pq = none ↔ pq = [] := by
  cases pq <;> simp [extractMin]

/-- The loop of R94 as an induction: what each merge keeps holds at its end, where one node is left. -/
theorem mergeLoop_induction {P : List TreeNode → List Nat → Prop}
    (hmerge : ∀ ns pq a pq₁ b pq₂, P ns pq → extractMin ns pq = some (a, pq₁) → extractMin ns pq₁ = some (b, pq₂) →
      P (ns ++ [.internal b a (freqAt ns a + freqAt ns b)]) (pq₂ ++ [ns.length]))
    {fuel : Nat} {ns : List TreeNode} {pq : List Nat} (h : P ns pq) (ne : pq ≠ []) (hfuel : pq.length ≤ fuel) :
    ∃ x, P (mergeLoop fuel ns pq) [x] := by
  induction fuel generalizing ns pq with
  | zero => exact absurd (List.length_eq_zero_iff.1 (Nat.le_zero.1 hfuel)) ne
  | succ fuel ih =>
    unfold mergeLoop
    split
    · exact absurd (extractMin_eq_none.1 ‹_›) ne
    · rename_i a pq₁ ha
      obtain ⟨ma, hpq₁⟩ := extractMin_eq_some ha
      have hla := List.length_erase_add_one ma
      split
      · have hpq₁ : pq₁ = [] := extractMin_eq_none.1 ‹_›
        obtain ⟨x, rfl⟩ : ∃ x, pq = [x] := List.length_eq_one_iff.1 (by simp_all)
        exact ⟨x, h⟩
      · rename_i b pq₂ hb
        obtain ⟨mb, hpq₂⟩ := extractMin_eq_some hb
        have hlb := List.length_erase_add_one mb
        refine ih (hmerge _ _ _ _ _ _ h ha hb) (by simp) ?_
        rw [List.length_append, List.length_singleton, hpq₂]
        subst hpq₁
        omega

/-! ## What a merge keeps -/

/-- The state of `build_tree` over the table `T`, with the arena `ns` and the queue `pq`. -/
structure Merging (T : List FtEntry) (ns : List TreeNode) (pq : List Nat) : Prop where
  leaves : ∃ ms, ns = seedLeaves T ++ ms ∧ ∀ n ∈ ms, n.internals = 1
  below : childrenBelowFrom 0 ns = true
  nodup : pq.Nodup
  queue : ∀ x ∈ pq, x < ns.length
  parents : ∀ x, parentCount ns x = if x < ns.length ∧ x ∉ pq then 1 else 0
  last : ns.length - 1 ∈ pq
  length : ns.length + pq.length = 2 * T.length
  freq : (∀ e ∈ T, 1 ≤ e.cnt) → wfFreq ns = true
  total : (pq.map (freqAt ns)).sum = totalCount T

section
variable {T : List FtEntry} {ns : List TreeNode} {pq : List Nat}

@[simp] theorem seedLeaves_length : (seedLeaves T).length = T.length := List.length_map ..

theorem leafSymbols_seedLeaves (T : List FtEntry) : leafSymbols (seedLeaves T) = T.map FtEntry.sym := by
  induction T with
  | nil => rfl
  | cons e T ih => exact congrArg (e.sym :: ·) ih

theorem childrenBelowFrom_seedLeaves (k : Nat) : childrenBelowFrom k (seedLeaves T) = true := by
  induction T generalizing k with
  | nil => rfl
  | cons e T ih => exact ih (k + 1)

theorem parentCount_seedLeaves (x : Nat) : parentCount (seedLeaves T) x = 0 := by
  simp [parentCount, seedLeaves, TreeNode.hasChild]

theorem wfFreq_seedLeaves (h : ∀ e ∈ T, 1 ≤ e.cnt) : wfFreq (seedLeaves T) = true := by
  simpa [wfFreq, seedLeaves, Function.comp_def] using h

/-- Part 1 of `build_tree` (R93): all leaves wait. -/
theorem merging_seedLeaves (ne : T ≠ []) : Merging T (seedLeaves T) (List.range T.length) where
  leaves := ⟨[], by simp⟩
  below := childrenBelowFrom_seedLeaves 0
  nodup := List.nodup_range
  queue := by simp
  parents := by
    intro x
    rw [parentCount_seedLeaves]
    simp
  last := by
    have := List.length_pos_of_ne_nil ne
    simp only [seedLeaves_length, List.mem_range]
    omega
  length := by simp; omega
  freq := wfFreq_seedLeaves
  total := by
    refine congrArg List.sum (List.ext_getElem (by simp) fun i hi _ => ?_)
    have hi : i < T.length := by simpa using hi
    simp [freqAt, seedLeaves, hi, TreeNode.freq]

/-- Part 2 (R94): two nodes get a parent, which waits in their place. -/
theorem Merging.merge (h : Merging T ns pq) {a b : Nat} {pq₁ pq₂ : List Nat} (ha : extractMin ns pq = some (a, pq₁))
    (hb : extractMin ns pq₁ = some (b, pq₂)) :
    Merging T (ns ++ [.internal b a (freqAt ns a + freqAt ns b)]) (pq₂ ++ [ns.length]) := by
  obtain ⟨ma, rfl⟩ := extractMin_eq_some ha
  obtain ⟨mb, rfl⟩ := extractMin_eq_some hb
  have hmem : ∀ x, x ∈ (pq.erase a).erase b ↔ x ≠ b ∧ x ≠ a ∧ x ∈ pq := fun x => by
    rw [(h.nodup.erase a).mem_erase_iff, h.nodup.mem_erase_iff]
  have hba : b ≠ a := (h.nodup.mem_erase_iff.1 mb).1
  have hbpq : b ∈ pq := (h.nodup.mem_erase_iff.1 mb).2
  have hla := h.queue a ma
  have hlb := h.queue b hbpq
  have hqueue : ∀ x ∈ (pq.erase a).erase b, x < ns.length := fun x hx => h.queue x ((hmem x).1 hx).2.2
  constructor
  case leaves =>
    obtain ⟨ms, hns, hms⟩ := h.leaves
    refine ⟨ms ++ [.internal b a (freqAt ns a + freqAt ns b)], by rw [hns, List.append_assoc], fun n hn => ?_⟩
    rcases List.mem_append.1 hn with hn | hn
    · exact hms n hn
    · rw [List.mem_singleton.1 hn, TreeNode.internals]
  case below => simp [childrenBelowFrom_append, h.below, childrenBelow, hla, hlb, hba]
  case nodup =>
    refine List.nodup_append.2 ⟨(h.nodup.erase a).erase b, List.nodup_singleton _, fun x hx y hy => ?_⟩
    exact ((hqueue x hx).trans_le (List.mem_singleton.1 hy).ge).ne
  case queue =>
    intro x hx
    rw [List.length_append, List.length_singleton]
    rcases List.mem_append.1 hx with hx | hx
    · exact Nat.lt_succ_of_lt (hqueue x hx)
    · exact Nat.lt_succ_of_le (List.mem_singleton.1 hx).le
  case parents =>
    intro x
    simp only [parentCount_append, h.parents, List.mem_append, List.mem_singleton, hmem, List.length_append,
      List.length_singleton]
    by_cases hxa : x = a
    · subst hxa
      simp [TreeNode.hasChild, ma, hla.ne, Nat.lt_succ_of_lt hla]
    · by_cases hxb : x = b
      · subst hxb
        simp [TreeNode.hasChild, hbpq, hlb.ne, Nat.lt_succ_of_lt hlb]
      · have hchild : (TreeNode.internal b a (freqAt ns a + freqAt ns b)).hasChild x = false := by
          simp [TreeNode.hasChild, Ne.symm hxa, Ne.symm hxb]
        have hlt : x < ns.length + 1 ↔ x < ns.length ∨ x = ns.length := Nat.lt_succ_iff_lt_or_eq
        rw [hchild]
        by_cases hx : x = ns.length <;> simp [hlt, hxa, hxb, hx]
  case last => simp
  case length =>
    have h₁ := List.length_erase_add_one ma
    have h₂ := List.length_erase_add_one mb
    have := h.length
    simp only [List.length_append, List.length_singleton]
    omega
  case freq =>
    intro hcnt
    rw [Nat.add_comm (freqAt ns a)]
    exact wfFreq_append_internal h.below (h.freq hcnt) hlb hla
  case total =>
    have hsum : freqAt ns a + (freqAt ns b + (((pq.erase a).erase b).map (freqAt ns)).sum) = totalCount T := by
      rw [List.sum_map_erase _ mb, List.sum_map_erase _ ma, h.total]
    rw [List.map_append, List.sum_append, List.map_singleton, List.sum_singleton, freqAt_append_length,
      List.map_congr_left (g := freqAt ns) fun x hx => freqAt_append_of_lt (hqueue x hx), TreeNode.freq]
    omega

/-- At the end of `build_tree` the root, the last node, waits alone. -/
theorem merging_buildTree (ne : T ≠ []) : Merging T (buildTree T) [(buildTree T).length - 1] := by
  obtain ⟨x, hx⟩ := mergeLoop_induction (fun _ _ _ _ _ _ h ha hb => h.merge ha hb) (merging_seedLeaves ne)
    (by simpa using ne) (List.length_range (n := T.length)).le
  exact List.mem_singleton.1 hx.last ▸ hx

end

/-! ## The tree of a table -/

section
variable {T : List FtEntry}

/-- A table of `n` entries gives a tree of `2n - 1` nodes (R95). -/
theorem buildTree_length (ne : T ≠ []) : (buildTree T).length + 1 = 2 * T.length := (merging_buildTree ne).length

theorem leafSymbols_buildTree (ne : T ≠ []) : leafSymbols (buildTree T) = T.map FtEntry.sym := by
  obtain ⟨ms, hns, hms⟩ := (merging_buildTree ne).leaves
  rw [hns, leafSymbols_append, leafSymbols_eq_nil hms, List.append_nil, leafSymbols_seedLeaves]

/-- Node `e` is the Leaf of entry `e` (R93). -/
theorem buildTree_getElem?_of_entry {e : Nat} {entry : FtEntry} (he : T[e]? = some entry) :
    (buildTree T)[e]? = some (.leaf entry.sym entry.cnt) := by
  have ne : T ≠ [] := by
    rintro rfl
    simp at he
  obtain ⟨ms, hns, -⟩ := (merging_buildTree ne).leaves
  have hlt := (List.getElem?_eq_some_iff.1 he).1
  rw [hns, List.getElem?_append_left (by simpa using hlt), seedLeaves, List.getElem?_map, he]
  rfl

/-- The root counts all occurrences. -/
theorem freqAt_root_buildTree (ne : T ≠ []) : freqAt (buildTree T) ((buildTree T).length - 1) = totalCount T := by
  simpa using (merging_buildTree ne).total

theorem distinct_iff_nodup {α : Type} [DecidableEq α] {as : List α} : distinct as = true ↔ as.Nodup := by
  induction as with
  | nil => simp [distinct]
  | cons a as ih => simp [distinct, ih]

/-- BUILD makes well-formed trees of well-formed tables (R97). -/
theorem wfTree_buildTree {c : Params} (h : wfFt c T = true) : wfTree c (buildTree T) = true := by
  obtain ⟨ne, hcap, hdistinct, hentries, -⟩ := wfFt_iff.1 h
  have hm := merging_buildTree ne
  have hlen := buildTree_length ne
  have hpos := List.length_pos_of_ne_nil ne
  refine wfTree_iff.2 ⟨by omega, by unfold nodeCap; omega, hm.below, fun m hlt => ?_, ?_, ?_, ?_⟩
  · rw [hm.parents, if_pos ⟨by omega, by simp only [List.mem_singleton]; omega⟩]
  · rw [hm.parents, if_neg (by simp)]
  · rw [leafSymbols_buildTree ne, hdistinct]
  · rw [leafSymbols_buildTree ne]
    intro y hy
    obtain ⟨e, he, rfl⟩ := List.mem_map.1 hy
    exact (hentries e he).1

theorem wfFreq_buildTree {c : Params} (h : wfFt c T = true) : wfFreq (buildTree T) = true := by
  obtain ⟨ne, -, -, hentries, -⟩ := wfFt_iff.1 h
  exact (merging_buildTree ne).freq fun e he => (hentries e he).2

end

/-! ## BUILD -/

/-- Settles O23: BUILD stores `build_tree` of the tables it loads, and the store leaves nothing else. -/
theorem buildCompletes : Obligations.BuildCompletes := by
  intro s tables ⟨hcap, htables⟩
  have hphase := buildPhase_eq_ok.2 ⟨hcap, _, loadFreqTables_of_ready htables, rfl⟩
  have hexec := congrArg (conclude State.loseTrees s) hphase
  refine ⟨_, completesWith_of_exec (i := .build) hexec rfl, fun i hi => ?_, fun i hi => ?_⟩
  · exact ⟨by simp [hi], fun n hn => by
      rw [State.element_complete, State.element_tree_storeTrees (by simpa [hi] using hn)]⟩
  · exact ⟨by rw [State.element_complete, State.element_treeN_storeTrees (by simpa using hi)], fun n => by
      rw [State.element_complete, State.element_tree_storeTrees (getD_length_le (by simpa using hi) n)]⟩

/-- Settles O26: R97, from what the merges keep. -/
theorem buildEstablishesItsTrees : Obligations.BuildEstablishesItsTrees := by
  intro s t h hdone i hi
  obtain ⟨u, hu, rfl⟩ := conclude_done h hdone
  obtain ⟨-, tables, hload, rfl⟩ := buildPhase_eq_ok.1 hu
  obtain ⟨hlen, hload⟩ := loadFreqTables_eq_ok.1 hload
  have hi : i < tables.length := hlen ▸ hi
  obtain ⟨hget, hwf⟩ := hload i hi
  obtain ⟨ne, -⟩ := wfFt_iff.1 hwf
  exact ⟨tables[i], buildTree tables[i], hget, by simp [hi], wfTree_buildTree hwf, wfFreq_buildTree hwf,
    fun _ _ => buildTree_getElem?_of_entry, leafSymbols_buildTree ne, freqAt_root_buildTree ne⟩

end Sys2Proof.Machine
end

section
/-! SUPPORT. GEN: the code table of a well-formed tree has one entry for each leaf (R106, R110), and each codeword is
the path the Decoder walks from the root (R107, R135). -/

namespace Sys2Proof.Machine

/-! ## Sums from the leaves to the root -/

section
variable {c : Params} {ns : List TreeNode}

/-- A weight that adds up from the children to each node adds up over all nodes to the weight of the root. -/
theorem weight_root (h : wfTree c ns = true) {w : Nat → Nat} {v : TreeNode → Nat}
    (hw : ∀ x n, ns[x]? = some n → w x = n.childSum w + v n) : w (ns.length - 1) = (ns.map v).sum := by
  obtain ⟨hodd, -⟩ := wfTree_iff.1 h
  have hnode : ∑ i : Fin ns.length, w i = ∑ i : Fin ns.length, (ns[i].childSum w + v ns[i]) :=
    Finset.sum_congr rfl fun i _ => hw i _ (List.getElem?_eq_getElem i.isLt)
  have hchildren := Fin.sum_univ_fun_getElem ns (TreeNode.childSum w)
  have hown := Fin.sum_univ_fun_getElem ns v
  have hall : ∑ i : Fin ns.length, w i = ∑ m ∈ Finset.range (ns.length - 1), w m + w (ns.length - 1) := by
    rw [← Finset.sum_range w, ← Finset.sum_range_succ, show ns.length - 1 + 1 = ns.length by omega]
  rw [sum_childSum_of_wfTree h] at hchildren
  simp only [Finset.sum_add_distrib, Fin.getElem_fin] at hnode
  omega

/-! ## The symbols below a node -/

/-- The symbols the traversal meets depend neither on the path nor on how much the bound exceeds the node. -/
theorem visit_map_sym_congr (h : childrenBelowFrom 0 ns = true) {x fuel fuel' : Nat} {path path' : List Bool}
    (hx : x < fuel) (hx' : x < fuel') :
    (visit ns fuel x path).map CtEntry.sym = (visit ns fuel' x path').map CtEntry.sym := by
  induction fuel generalizing x fuel' path path' with
  | zero => omega
  | succ fuel ih =>
    obtain ⟨fuel', rfl⟩ : ∃ k, fuel' = k + 1 := ⟨fuel' - 1, by omega⟩
    cases hn : ns[x]? with
    | none => rw [visit_none hn, visit_none hn]
    | some n =>
      cases n with
      | leaf y f => rw [visit_leaf hn, visit_leaf hn]; rfl
      | internal l r f =>
        obtain ⟨hl, hr, -⟩ := children_lt h hn
        rw [visit_internal hn, visit_internal hn, List.map_append, List.map_append]
        exact congrArg₂ (· ++ ·) (ih (by omega) (by omega)) (ih (by omega) (by omega))

/-- The symbols of the leaves below node `x`, left subtree first. -/
def symbolsBelow (ns : List TreeNode) (x : Nat) : List Symbol := (visit ns (x + 1) x []).map CtEntry.sym

theorem count_symbolsBelow (h : childrenBelowFrom 0 ns = true) (y : Symbol) {x : Nat} {n : TreeNode}
    (hx : ns[x]? = some n) : (symbolsBelow ns x).count y =
      n.childSum (fun m => (symbolsBelow ns m).count y) + (leafSymbols [n]).count y := by
  cases n with
  | leaf z f => simp [symbolsBelow, visit_leaf hx, TreeNode.childSum, leafSymbols]
  | internal l r f =>
    obtain ⟨hl, hr, -⟩ := children_lt h hx
    rw [symbolsBelow, visit_internal hx, List.map_append, List.count_append,
      visit_map_sym_congr h hl (Nat.lt_succ_self l) (path' := []),
      visit_map_sym_congr h hr (Nat.lt_succ_self r) (path' := [])]
    rfl

theorem count_leafSymbols (y : Symbol) (ns : List TreeNode) :
    (leafSymbols ns).count y = (ns.map fun n => (leafSymbols [n]).count y).sum := by
  induction ns with
  | nil => rfl
  | cons n ns ih =>
    rw [List.map_cons, List.sum_cons, ← ih, ← List.count_append, ← leafSymbols_append, List.singleton_append]

/-- Below the root stands every leaf, once. -/
theorem symbolsBelow_root_perm (h : wfTree c ns = true) :
    (symbolsBelow ns (ns.length - 1)).Perm (leafSymbols ns) := by
  obtain ⟨-, -, hbelow, -⟩ := wfTree_iff.1 h
  refine List.perm_iff_count.2 fun y => ?_
  rw [count_leafSymbols]
  exact weight_root h (w := fun x => (symbolsBelow ns x).count y) fun x n hx => count_symbolsBelow hbelow y hx

theorem leafSymbols_length_add_internalCount (ns : List TreeNode) :
    (leafSymbols ns).length + internalCount ns = ns.length := by
  induction ns with
  | nil => rfl
  | cons n ns ih =>
    have happend : leafSymbols (n :: ns) = leafSymbols [n] ++ leafSymbols ns := leafSymbols_append (ns := [n])
    have hone : (leafSymbols [n]).length + n.internals = 1 := by cases n <;> rfl
    simp only [happend, internalCount, List.map_cons, List.sum_cons, List.length_append, List.length_cons] at ih ⊢
    omega

/-- A tree of `N` nodes has `(N + 1) / 2` leaves. -/
theorem leafSymbols_length (h : wfTree c ns = true) : (leafSymbols ns).length = (ns.length + 1) / 2 := by
  have htwice := two_mul_internalCount h
  have hadd := leafSymbols_length_add_internalCount ns
  omega

/-! ## The code table -/

/-- `gen_table` by the root: the one-bit codeword of a Leaf (R108), or the traversal. -/
theorem genTable_root_cases (ns : List TreeNode) :
    (∃ y f, ns.getLast? = some (.leaf y f) ∧ genTable ns = [⟨y, [false]⟩]) ∨
      (∀ y f, ns.getLast? ≠ some (.leaf y f)) ∧ genTable ns = visit ns ns.length (ns.length - 1) [] := by
  unfold genTable
  split
  · exact .inl ⟨_, _, ‹_›, rfl⟩
  · rename_i hne
    exact .inr ⟨hne, rfl⟩

theorem genTable_map_sym (h : wfTree c ns = true) :
    (genTable ns).map CtEntry.sym = symbolsBelow ns (ns.length - 1) := by
  obtain ⟨hodd, -, hbelow, -⟩ := wfTree_iff.1 h
  rcases genTable_root_cases ns with ⟨y, f, hroot, hg⟩ | ⟨-, hg⟩ <;> rw [hg]
  · rw [List.getLast?_eq_getElem?] at hroot
    rw [symbolsBelow, visit_leaf hroot]
    rfl
  · exact visit_map_sym_congr hbelow (by omega) (Nat.lt_succ_self _)

/-- The table has exactly the leaves' symbols, each once (R110). -/
theorem genTable_map_sym_perm (h : wfTree c ns = true) : ((genTable ns).map CtEntry.sym).Perm (leafSymbols ns) :=
  genTable_map_sym h ▸ symbolsBelow_root_perm h

theorem genTable_length (h : wfTree c ns = true) : (genTable ns).length = (ns.length + 1) / 2 := by
  rw [← leafSymbols_length h, ← (genTable_map_sym_perm h).length_eq, List.length_map]

end

/-! ## Codewords as paths -/

section
variable {ns : List TreeNode} {e : CtEntry}

theorem walk_of_leaf {x : Nat} {y : Symbol} {f : Nat} (hx : ns[x]? = some (.leaf y f)) (bits : List Bool) :
    walk ns x bits = some (y, bits) := by
  cases bits <;> rw [walk, hx]

theorem walk_of_internal {x l r f : Nat} (hx : ns[x]? = some (.internal l r f)) (b : Bool) (bits : List Bool) :
    walk ns x (b :: bits) = walk ns (if b then r else l) bits := by
  rw [walk, hx]

/-- The Decoder walks from node `x` the path GEN took to an entry, whatever bits follow. -/
theorem walk_of_mem_visit {fuel x : Nat} {path : List Bool} (he : e ∈ visit ns fuel x path) :
    ∃ u, e.cw = path ++ u ∧ ∀ rest, walk ns x (u ++ rest) = some (e.sym, rest) := by
  induction fuel generalizing x path with
  | zero => cases he
  | succ fuel ih =>
    rcases mem_visit_succ he with ⟨y, f, hx, rfl⟩ | ⟨l, r, f, b, hx, he⟩
    · exact ⟨[], (List.append_nil path).symm, walk_of_leaf hx⟩
    · obtain ⟨u, hcw, hwalk⟩ := ih he
      refine ⟨b :: u, by rw [hcw, List.append_assoc, List.singleton_append], fun rest => ?_⟩
      rw [List.cons_append, walk_of_internal hx, hwalk]

/-- Every codeword has a bit. -/
theorem cw_ne_nil_of_mem_genTable (he : e ∈ genTable ns) : e.cw ≠ [] := by
  rcases genTable_root_cases ns with ⟨y, f, -, hg⟩ | ⟨hroot, hg⟩ <;> rw [hg] at he
  · rw [List.mem_singleton.1 he]
    exact List.cons_ne_nil _ _
  · cases hlen : ns.length with
    | zero => rw [hlen] at he; cases he
    | succ k =>
      rw [hlen] at he
      rcases mem_visit_succ he with ⟨y, f, hx, -⟩ | ⟨l, r, f, b, -, he⟩
      · rw [← hlen, ← List.getLast?_eq_getElem?] at hx
        exact absurd hx (hroot y f)
      · obtain ⟨u, hcw, -⟩ := walk_of_mem_visit he
        simp [hcw]

/-- The Decoder reads a codeword of the tree's code as its symbol (R135, R136). -/
theorem decodeSymbol_of_mem_genTable (he : e ∈ genTable ns) (i cnt : Nat) (rest : List Bool) :
    decodeSymbol ns i cnt (e.cw ++ rest) = .ok (e.sym, rest) := by
  rcases genTable_root_cases ns with ⟨y, f, hroot, hg⟩ | ⟨hroot, hg⟩ <;> rw [hg] at he <;> unfold decodeSymbol
  · rw [List.mem_singleton.1 he, hroot]
    rfl
  · obtain ⟨u, hcw, hwalk⟩ := walk_of_mem_visit he
    rw [List.nil_append] at hcw
    split
    · exact absurd ‹_› (hroot _ _)
    · rw [hcw, hwalk]

end

/-! ## GEN -/

theorem wfCt_iff {c : Params} {T : List CtEntry} :
    wfCt c T = true ↔ T ≠ [] ∧ T.length ≤ c.symCap ∧ distinct (T.map CtEntry.sym) = true ∧
      ∀ e ∈ T, symbolOk c e.sym = true ∧ e.cw ≠ [] ∧ e.cw.length ≤ cwMax c := by
  simp [wfCt, and_assoc, Nat.one_le_iff_ne_zero]

/-- GEN makes well-formed tables of well-formed trees (R110). -/
theorem wfCt_genTable {c : Params} {ns : List TreeNode} (h : wfTree c ns = true) : wfCt c (genTable ns) = true := by
  obtain ⟨hodd, hcap, -, -, -, hdistinct, hsymbols⟩ := wfTree_iff.1 h
  have hperm := genTable_map_sym_perm h
  have hlen := genTable_length h
  refine wfCt_iff.2 ⟨fun e => ?_, ?_, ?_, fun e he => ⟨?_, cw_ne_nil_of_mem_genTable he, cw_length_le_cwMax h he⟩⟩
  · rw [e, List.length_nil] at hlen
    omega
  · unfold nodeCap at hcap
    omega
  · rw [distinct_iff_nodup] at hdistinct ⊢
    exact hperm.nodup_iff.2 hdistinct
  · exact hsymbols _ (hperm.mem_iff.1 (List.mem_map_of_mem he))

/-- Settles O29: GEN stores `gen_table` of the trees it loads, and the store leaves nothing else. -/
theorem genCompletes : Obligations.GenCompletes := by
  intro s trees ⟨hcap, htrees⟩
  have hphase := genPhase_eq_ok.2 ⟨hcap, _, loadTrees_of_ready htrees, rfl⟩
  have hexec := congrArg (conclude State.loseCodes s) hphase
  refine ⟨_, completesWith_of_exec (i := .gen) hexec rfl, fun i hi => ?_, fun i hi => ?_⟩
  · exact ⟨by simp [hi], fun e he => by
      rw [State.element_complete, State.element_ct_storeCodes (by simpa [hi] using he)]⟩
  · exact ⟨by rw [State.element_complete, State.element_ctN_storeCodes (by simpa using hi)], fun e => by
      rw [State.element_complete, State.element_ct_storeCodes (getD_length_le (by simpa using hi) e)]⟩

/-- Settles O32: R110, from the leaves below the root. -/
theorem genEstablishesItsTables : Obligations.GenEstablishesItsTables := by
  intro s t h hdone i hi
  obtain ⟨u, hu, rfl⟩ := conclude_done h hdone
  obtain ⟨-, trees, hload, rfl⟩ := genPhase_eq_ok.1 hu
  obtain ⟨hlen, hload⟩ := loadTrees_eq_ok.1 hload
  have hi : i < trees.length := hlen ▸ hi
  obtain ⟨hget, hwf⟩ := hload i hi
  exact ⟨trees[i], genTable trees[i], hget, by simp [hi], wfCt_genTable hwf, genTable_length hwf,
    genTable_map_sym_perm hwf⟩

end Sys2Proof.Machine
end

section
/-! SUPPORT. Every location that holds a value lies in its window (R10): the capacity checks and the sizes of tables,
trees, code tables, streams and outputs guard every store (R158). -/

namespace Sys2Proof.Machine

/-! ## The bound of each window -/

/-- Every index that holds a value is below the capacity. -/
def Window.Within {α : Type} (cap : Nat) (w : Window α) : Prop := ∀ i, Window.read w i ≠ none → i < cap

/-- Every segment and element that holds a value is below its capacity. -/
def Table.Within {α : Type} (segs els : Nat) (t : Table α) : Prop :=
  ∀ s e, Table.read t s e ≠ none → s < segs ∧ e < els

section
variable {α : Type} {cap segs els : Nat}

theorem Window.within_nil : Window.Within cap ([] : Window α) := fun _ h => absurd rfl h

theorem Table.within_nil : Table.Within segs els ([] : Table α) := fun _ _ h => absurd rfl h

theorem Window.Within.write {w : Window α} (h : Window.Within cap w) {i : Nat} (hi : i < cap) (v : α) :
    Window.Within cap (Window.write w i v) := by
  intro j hj
  rw [Window.read_write] at hj
  split at hj
  · exact ‹j = i› ▸ hi
  · exact h j hj

theorem Table.Within.write {t : Table α} (h : Table.Within segs els t) {s e : Nat} (hse : s < segs ∧ e < els) (v : α) :
    Table.Within segs els (Table.write t s e v) := by
  intro s' e' hj
  rw [Table.read_write] at hj
  split at hj
  · obtain ⟨rfl, rfl⟩ := ‹s' = s ∧ e' = e›
    exact hse
  · exact h s' e' hj

theorem Window.within_ofList {vs : List α} (h : vs.length ≤ cap) : Window.Within cap (Window.ofList vs) :=
  fun _ hi => (Nat.lt_of_not_le fun hle => hi (Window.read_ofList_eq_none hle)).trans_le h

theorem Table.within_ofRecords {ts : List (List α)} (hsegs : ts.length ≤ segs) (hels : ∀ t ∈ ts, t.length ≤ els) :
    Table.Within segs els (Table.ofRecords ts) := by
  intro s e h
  have he : e < (ts.getD s []).length := Nat.lt_of_not_le fun hle => h (Table.read_ofRecords_eq_none hle)
  have hs : s < ts.length := Nat.lt_of_not_le fun hle => (getD_length_le hle e).not_gt he
  rw [List.getD_eq_getElem _ _ hs] at he
  exact ⟨hs.trans_le hsegs, he.trans_le (hels _ (List.getElem_mem hs))⟩

end

/-- `Memory.inWindows` window by window. -/
structure State.InWindows (s : State) : Prop where
  imem : Window.Within s.params.inCap s.imem
  ftN : Window.Within s.params.segCap s.ftN
  ft : Table.Within s.params.segCap s.params.symCap s.ft
  treeN : Window.Within s.params.segCap s.treeN
  tree : Table.Within s.params.segCap (nodeCap s.params) s.tree
  ctN : Window.Within s.params.segCap s.ctN
  ct : Table.Within s.params.segCap s.params.symCap s.ct
  bitmem : Window.Within s.params.bitCap s.bitmem
  omem : Window.Within s.params.outCap s.omem

theorem Memory.inWindows_iff {s : State} : Memory.inWindows s ↔ s.InWindows := by
  simp only [Memory.inWindows, ne_eq]
  constructor
  · intro h
    exact {
      imem := fun i hi => by simpa [WinAddr.inWindow] using h (.imem i) (by simpa [State.element] using hi)
      ftN := fun i hi => by simpa [WinAddr.inWindow] using h (.ftN i) (by simpa [State.element] using hi)
      ft := fun i e hi => by simpa [WinAddr.inWindow] using h (.ft i e) (by simpa [State.element] using hi)
      treeN := fun i hi => by simpa [WinAddr.inWindow] using h (.treeN i) (by simpa [State.element] using hi)
      tree := fun i n hi => by simpa [WinAddr.inWindow] using h (.tree i n) (by simpa [State.element] using hi)
      ctN := fun i hi => by simpa [WinAddr.inWindow] using h (.ctN i) (by simpa [State.element] using hi)
      ct := fun i e hi => by simpa [WinAddr.inWindow] using h (.ct i e) (by simpa [State.element] using hi)
      bitmem := fun b hb => by simpa [WinAddr.inWindow] using h (.bitmem b) (by simpa [State.element] using hb)
      omem := fun i hi => by simpa [WinAddr.inWindow] using h (.omem i) (by simpa [State.element] using hi) }
  · intro h a ha
    cases a <;> simp only [State.element, Option.map_eq_none_iff] at ha <;>
      simp only [WinAddr.inWindow, Bool.and_eq_true, decide_eq_true_eq]
    case imem => exact h.imem _ ha
    case ftN => exact h.ftN _ ha
    case ft => exact h.ft _ _ ha
    case treeN => exact h.treeN _ ha
    case tree => exact h.tree _ _ ha
    case ctN => exact h.ctN _ ha
    case ct => exact h.ct _ _ ha
    case bitmem => exact h.bitmem _ ha
    case omem => exact h.omem _ ha

/-! ## The updates of State -/

section
variable {s : State} (h : s.InWindows)
include h

theorem State.InWindows.loseCounts : s.loseCounts.InWindows :=
  { h with ftN := Window.within_nil, ft := Table.within_nil }

theorem State.InWindows.loseTrees : s.loseTrees.InWindows :=
  { h with treeN := Window.within_nil, tree := Table.within_nil }

theorem State.InWindows.loseCodes : s.loseCodes.InWindows :=
  { h with ctN := Window.within_nil, ct := Table.within_nil }

theorem State.InWindows.loseAllTables : s.loseAllTables.InWindows := h.loseCounts.loseTrees.loseCodes

theorem State.InWindows.loseStream : s.loseStream.InWindows := { h with bitmem := Window.within_nil }

theorem State.InWindows.loseOutput : s.loseOutput.InWindows := { h with omem := Window.within_nil }

theorem State.InWindows.takeFault (r : Raise) : (s.takeFault r).InWindows := { h with }

theorem State.InWindows.complete : s.complete.InWindows := { h with }

theorem State.InWindows.storeCounts {ts : List (List FtEntry)} (hsegs : ts.length ≤ s.params.segCap)
    (hels : ∀ t ∈ ts, t.length ≤ s.params.symCap) : (s.storeCounts ts).InWindows :=
  { h with ftN := Window.within_ofList (by simpa using hsegs), ft := Table.within_ofRecords hsegs hels }

theorem State.InWindows.storeTrees {ts : List (List TreeNode)} (hsegs : ts.length ≤ s.params.segCap)
    (hels : ∀ t ∈ ts, t.length ≤ nodeCap s.params) : (s.storeTrees ts).InWindows :=
  { h with treeN := Window.within_ofList (by simpa using hsegs), tree := Table.within_ofRecords hsegs hels }

theorem State.InWindows.storeCodes {ts : List (List CtEntry)} (hsegs : ts.length ≤ s.params.segCap)
    (hels : ∀ t ∈ ts, t.length ≤ s.params.symCap) : (s.storeCodes ts).InWindows :=
  { h with ctN := Window.within_ofList (by simpa using hsegs), ct := Table.within_ofRecords hsegs hels }

theorem State.InWindows.storeStream {bits : List Bool} (hlen : bits.length ≤ s.params.bitCap) :
    (s.storeStream bits).InWindows := { h with bitmem := Window.within_ofList hlen }

theorem State.InWindows.storeOutput {out : List RawUnit} (hlen : out.length ≤ s.params.outCap) :
    (s.storeOutput out).InWindows := { h with omem := Window.within_ofList hlen }

/-- A host write goes to a location of its window (R46). -/
theorem State.InWindows.writeMem {w : WinWrite} (hw : w.addr.inWindow s.params = true) : (writeMem s w).InWindows := by
  rcases writeMem_cases s w with e | ⟨i, v, ha, -, e⟩ | ⟨i, v, ha, -, e⟩ | ⟨i, j, v, ha, e⟩ | ⟨i, v, ha, -, e⟩ |
    ⟨i, j, v, ha, e⟩ | ⟨i, v, ha, -, e⟩ | ⟨i, j, v, ha, e⟩ | ⟨b, v, ha, e⟩ <;> rw [e]
  · exact h
  · exact { h with imem := h.imem.write (by simpa [ha, WinAddr.inWindow] using hw) v }
  · exact { h with ftN := h.ftN.write (by simpa [ha, WinAddr.inWindow] using hw) v }
  · exact { h with ft := h.ft.write (by simpa [ha, WinAddr.inWindow] using hw) _ }
  · exact { h with treeN := h.treeN.write (by simpa [ha, WinAddr.inWindow] using hw) v }
  · exact { h with tree := h.tree.write (by simpa [ha, WinAddr.inWindow] using hw) _ }
  · exact { h with ctN := h.ctN.write (by simpa [ha, WinAddr.inWindow] using hw) v }
  · exact { h with ct := h.ct.write (by simpa [ha, WinAddr.inWindow] using hw) _ }
  · exact { h with bitmem := h.bitmem.write (by simpa [ha, WinAddr.inWindow] using hw) v }

end

theorem State.inWindows_resetEvent (s : State) : s.resetEvent.InWindows where
  imem := Window.within_nil
  ftN := Window.within_nil
  ft := Table.within_nil
  treeN := Window.within_nil
  tree := Table.within_nil
  ctN := Window.within_nil
  ct := Table.within_nil
  bitmem := Window.within_nil
  omem := Window.within_nil

/-! ## The sizes of what a command stores -/

section
variable {cap : Nat}

theorem encodeSymbols_length_le {T : Option (List CtEntry)} {i j : Nat} {ys : List Symbol} {bits bits' : List Bool}
    (hlen : bits.length ≤ cap) (h : encodeSymbols cap T i j ys bits = .ok bits') : bits'.length ≤ cap := by
  induction ys generalizing j bits with
  | nil => cases h; exact hlen
  | cons y ys ih =>
    rw [encodeSymbols] at h
    split at h
    · cases h
    · split at h
      · cases h
      · exact ih (by rw [List.length_append]; omega) h

theorem encodeSegments_length_le {tables : List (List CtEntry)} {i : Nat} {segs : List (List Symbol)}
    {bits bits' : List Bool} (hlen : bits.length ≤ cap) (h : encodeSegments cap tables i segs bits = .ok bits') :
    bits'.length ≤ cap := by
  induction segs generalizing i bits with
  | nil => cases h; exact hlen
  | cons ys segs ih =>
    obtain ⟨bits₁, hseg, h⟩ := bind_eq_ok.1 h
    exact ih (encodeSymbols_length_le hlen hseg) h

theorem decodeSegment_length_le {ns : List TreeNode} {i : Nat} {last : Bool} {more cnt : Nat} {bits rest : List Bool}
    {out out' : List RawUnit} (hlen : out.length ≤ cap)
    (h : decodeSegment cap ns i last more cnt bits out = .ok (rest, out')) : out'.length ≤ cap := by
  induction more generalizing cnt bits out with
  | zero => cases h; exact hlen
  | succ more ih =>
    rw [decodeSegment] at h
    split at h
    · cases h; exact hlen
    · obtain ⟨⟨y, bits'⟩, -, h⟩ := bind_eq_ok.1 h
      obtain ⟨_, hcap, h⟩ := bind_eq_ok.1 h
      rw [raiseIf_eq_ok, decide_eq_false_iff_not, not_lt, ← List.length_append] at hcap
      exact ih hcap h

theorem decodeSegments_length_le {k i : Nat} {trees : List (List TreeNode)} {bits rest : List Bool}
    {out out' : List RawUnit} (hlen : out.length ≤ cap)
    (h : decodeSegments cap k i trees bits out = .ok (rest, out')) : out'.length ≤ cap := by
  induction trees generalizing i bits out with
  | nil => cases h; exact hlen
  | cons ns trees ih =>
    obtain ⟨⟨bits₁, out₁⟩, hseg, h⟩ := bind_eq_ok.1 h
    exact ih (decodeSegment_length_le hlen hseg) h

end

/-! ## The commands -/

section
variable {s t : State} (h : s.InWindows)
include h

theorem State.InWindows.countPhase (hp : countPhase s = .ok t) : t.InWindows := by
  obtain ⟨hchecks, input, tables, hin, htr, rfl⟩ := countPhase_eq_ok.1 hp
  obtain ⟨-, -, -, hsegs, -⟩ := countChecks_eq_ok.1 hchecks
  refine h.storeCounts ?_ fun T hT => ?_
  · rw [traverse_length htr, segments_length, State.input_length hin]
    exact hsegs
  · obtain ⟨ys, -, hcount⟩ := exists_of_mem_traverse htr hT
    exact (countSegment_eq_ok hcount (Nat.zero_le _)).1

theorem State.InWindows.buildPhase (hp : buildPhase s = .ok t) : t.InWindows := by
  obtain ⟨hsegs, tables, hload, rfl⟩ := buildPhase_eq_ok.1 hp
  obtain ⟨hlen, hload⟩ := loadFreqTables_eq_ok.1 hload
  refine h.storeTrees (by rwa [List.length_map, hlen]) fun ns hns => ?_
  obtain ⟨T, hT, rfl⟩ := List.mem_map.1 hns
  obtain ⟨i, hi, rfl⟩ := List.getElem_of_mem hT
  obtain ⟨-, hcap, -⟩ := wfTree_iff.1 (wfTree_buildTree (hload i hi).2)
  exact hcap

theorem State.InWindows.genPhase (hp : genPhase s = .ok t) : t.InWindows := by
  obtain ⟨hsegs, trees, hload, rfl⟩ := genPhase_eq_ok.1 hp
  obtain ⟨hlen, hload⟩ := loadTrees_eq_ok.1 hload
  refine h.storeCodes (by rwa [List.length_map, hlen]) fun T hT => ?_
  obtain ⟨ns, hns, rfl⟩ := List.mem_map.1 hT
  obtain ⟨i, hi, rfl⟩ := List.getElem_of_mem hns
  obtain ⟨-, hcap, -⟩ := wfCt_iff.1 (wfCt_genTable (hload i hi).2)
  exact hcap

theorem State.InWindows.buildCodesPhase (hp : buildCodesPhase s = .ok t) : t.InWindows := by
  obtain ⟨u, v, hu, hv, ht⟩ := buildCodesPhase_eq_ok.1 hp
  exact ((h.countPhase hu).buildPhase hv).genPhase ht

theorem State.InWindows.encodePhase (hp : encodePhase s = .ok t) : t.InWindows := by
  obtain ⟨-, _, _, bits, -, -, henc, rfl⟩ := encodePhase_eq_ok.1 hp
  exact h.storeStream (encodeSegments_length_le (Nat.zero_le _) henc)

theorem State.InWindows.decodePhase (hp : decodePhase s = .ok t) : t.InWindows := by
  obtain ⟨-, _, _, out, -, -, hdec, rfl⟩ := decodePhase_eq_ok.1 hp
  exact h.storeOutput (decodeSegments_length_le (Nat.zero_le _) hdec)

/-- A command keeps the bounds where its pseudocode does, since a fault only loses values (R151). -/
theorem State.InWindows.conclude {lose : State → State} {r : Except Stop State} (hlose : (lose s).InWindows)
    (hr : ∀ u, r = .ok u → u.InWindows) (hc : conclude lose s r = .next t) : t.InWindows := by
  rcases conclude_eq_next.1 hc with ⟨u, hu, rfl⟩ | ⟨e, -, rfl⟩
  · exact (hr u hu).complete
  · split
    · exact h.takeFault e
    · exact hlose.takeFault e

theorem State.InWindows.exec {i : Instr} (he : exec i s = .next t) : t.InWindows := by
  cases i with
  | nop => cases he; exact h.complete
  | count => exact h.conclude h.loseCounts (fun _ => h.countPhase) he
  | build => exact h.conclude h.loseTrees (fun _ => h.buildPhase) he
  | gen => exact h.conclude h.loseCodes (fun _ => h.genPhase) he
  | buildCodes => exact h.conclude h.loseAllTables (fun _ => h.buildCodesPhase) he
  | encode => exact h.conclude h.loseStream (fun _ => h.encodePhase) he
  | decode => exact h.conclude h.loseOutput (fun _ => h.decodePhase) he

/-! ## One step -/

theorem State.InWindows.transact {x : HostTxn} (hx : transact s x = .quiet t) : t.InWindows := by
  rcases transact_eq_quiet hx with ⟨r, d, rfl⟩ | ⟨n, v, -, hw⟩ | ⟨w, -, hw, rfl⟩ | ⟨w, -, hw⟩ | ⟨-, rfl⟩
  · exact { h with }
  · rcases writeReg_cases hw with rfl | rfl | rfl | rfl | rfl | rfl <;> exact { h with }
  · exact h.writeMem hw
  · rcases writeCmd_cases s w with ⟨-, e⟩ | ⟨-, i, -, e⟩ | ⟨-, x, -, e⟩ <;> rw [e] at hw <;> cases hw
    · exact h
    · exact h.takeFault _
  · exact s.inWindows_resetEvent

theorem State.InWindows.step (hs : step s = .next t) : t.InWindows := by
  rcases step_cases hs with ⟨-, rfl⟩ | ⟨x, rest, -, -, hx⟩
  · exact h
  · have hrest : State.InWindows { s with script := rest } := { h with }
    rcases hx with hx | ⟨w, i, -, -, -, he⟩
    · exact hrest.transact hx
    · exact hrest.exec he

end

/-- Settles O59: the bounds hold after every transaction and every command. -/
theorem stepsKeepLocationsInWindows : Obligations.StepsKeepLocationsInWindows :=
  fun _ _ h hs => Memory.inWindows_iff.2 ((Memory.inWindows_iff.1 h).step hs)

end Sys2Proof.Machine
end

section
/-! SUPPORT. COUNT: the table of a segment lists its symbols in order of first occurrence with their numbers of
occurrences (R82, R84), and every segment and symbol of the Segmenter is non-empty (R76, R77). -/

namespace Sys2Proof.Machine

/-! ## The Segmenter -/

theorem lt_cdiv_iff {a b c : Nat} (hb : 1 ≤ b) : c < cdiv a b ↔ c * b < a := by
  rw [← not_le, cdiv_le_iff hb, not_le]

theorem symAt_length (input : List RawUnit) (p q i j : Nat) :
    (symAt input p q i j).length = symLen input.length p q i j := by
  unfold symAt symLen segLen symStart
  rw [List.length_take, List.length_drop]
  omega

/-- Every segment has a symbol and every symbol a unit. -/
theorem ne_nil_of_mem_segments {input : List RawUnit} {p q : Nat} (hp : 1 ≤ p) (hq : 1 ≤ q) {ys : List Symbol}
    (hys : ys ∈ segments input p q) : ys ≠ [] ∧ ∀ y ∈ ys, 1 ≤ y.length := by
  obtain ⟨i, hi, rfl⟩ := List.mem_map.1 hys
  have hi : i * p < input.length := (lt_cdiv_iff hp).1 (List.mem_range.1 hi)
  have hseg : 1 ≤ segLen input.length p i := by unfold segLen; omega
  constructor
  · have hcount : 0 < symCount input.length p q i := (lt_cdiv_iff hq).2 (by omega)
    simpa [segSymbols] using hcount.ne'
  · intro y hy
    obtain ⟨j, hj, rfl⟩ := List.mem_map.1 hy
    have hj : j * q < segLen input.length p i := (lt_cdiv_iff hq).1 (List.mem_range.1 hj)
    rw [symAt_length, symLen]
    omega

/-! ## First occurrences -/

section
variable {α : Type} [DecidableEq α]

theorem firstOccurrences_concat (ys : List α) (y : α) : firstOccurrences (ys ++ [y]) =
    if y ∈ firstOccurrences ys then firstOccurrences ys else firstOccurrences ys ++ [y] := by
  rw [firstOccurrences, List.foldl_append]
  rfl

@[simp] theorem mem_firstOccurrences {ys : List α} {y : α} : y ∈ firstOccurrences ys ↔ y ∈ ys := by
  induction ys using List.reverseRecOn with
  | nil => exact Iff.rfl
  | append_singleton ys z ih =>
    rw [firstOccurrences_concat, List.mem_append, List.mem_singleton]
    split
    · rw [ih]
      exact ⟨.inl, fun h => h.elim id fun e => ih.1 (e ▸ ‹_›)⟩
    · rw [List.mem_append, List.mem_singleton, ih]

theorem firstOccurrences_concat_of_mem {ys : List α} {y : α} (h : y ∈ ys) :
    firstOccurrences (ys ++ [y]) = firstOccurrences ys := by
  rw [firstOccurrences_concat, if_pos (mem_firstOccurrences.2 h)]

theorem firstOccurrences_concat_of_notMem {ys : List α} {y : α} (h : y ∉ ys) :
    firstOccurrences (ys ++ [y]) = firstOccurrences ys ++ [y] := by
  rw [firstOccurrences_concat, if_neg (mt mem_firstOccurrences.1 h)]

/-- The earlier first occurrence comes first. -/
theorem firstOccurrences_pairwise [BEq α] [LawfulBEq α] (ys : List α) :
    (firstOccurrences ys).Pairwise fun a b => ys.idxOf a < ys.idxOf b := by
  induction ys using List.reverseRecOn with
  | nil => exact List.Pairwise.nil
  | append_singleton ys y ih =>
    have hidx : ∀ a ∈ firstOccurrences ys, (ys ++ [y]).idxOf a = ys.idxOf a := fun a ha =>
      List.idxOf_append_of_mem (mem_firstOccurrences.1 ha)
    have hys : (firstOccurrences ys).Pairwise fun a b => (ys ++ [y]).idxOf a < (ys ++ [y]).idxOf b :=
      ih.imp_of_mem fun {a b} ha hb h => by rwa [hidx a ha, hidx b hb]
    by_cases hy : y ∈ ys
    · rwa [firstOccurrences_concat_of_mem hy]
    · rw [firstOccurrences_concat_of_notMem hy]
      refine List.pairwise_append.2 ⟨hys, List.pairwise_singleton .., fun a ha b hb => ?_⟩
      rw [List.mem_singleton.1 hb, hidx a ha, List.idxOf_append_of_notMem hy]
      exact (List.idxOf_lt_length_iff.2 (mem_firstOccurrences.1 ha)).trans_le (Nat.le_add_right _ _)

theorem firstOccurrences_nodup (ys : List α) : (firstOccurrences ys).Nodup :=
  (firstOccurrences_pairwise ys).imp fun h e => by
    subst e
    exact h.ne rfl

theorem firstOccurrences_prefix (ys zs : List α) : firstOccurrences ys <+: firstOccurrences (ys ++ zs) := by
  induction zs using List.reverseRecOn with
  | nil => rw [List.append_nil]
  | append_singleton zs z ih =>
    rw [← List.append_assoc, firstOccurrences_concat]
    split
    · exact ih
    · exact ih.trans (List.prefix_append ..)

end

/-! ## The Frequency Counter -/

theorem map_sym_frequencyTable (ys : List Symbol) : (frequencyTable ys).map FtEntry.sym = firstOccurrences ys := by
  simp [frequencyTable, Function.comp_def]

@[simp] theorem frequencyTable_length (ys : List Symbol) :
    (frequencyTable ys).length = (firstOccurrences ys).length := List.length_map ..

theorem mem_frequencyTable {ys : List Symbol} {e : FtEntry} :
    e ∈ frequencyTable ys ↔ e.sym ∈ ys ∧ e.cnt = ys.count e.sym := by
  obtain ⟨y, n⟩ := e
  simp only [frequencyTable, List.mem_map, mem_firstOccurrences, FtEntry.mk.injEq]
  constructor
  · rintro ⟨z, hz, rfl, rfl⟩
    exact ⟨hz, rfl⟩
  · rintro ⟨hy, hn⟩
    exact ⟨y, hy, rfl, hn.symm⟩

theorem countUp_eq_none {y : Symbol} {T : List FtEntry} : countUp y T = none ↔ y ∉ T.map FtEntry.sym := by
  induction T with
  | nil => simp [countUp]
  | cons e T ih =>
    unfold countUp
    by_cases he : e.sym = y
    · simp [he]
    · simp [he, ih, Ne.symm he]

/-- The entry of a symbol that has one counts one more. -/
theorem countUp_map {y : Symbol} {zs : List Symbol} (hy : y ∈ zs) (hnodup : zs.Nodup) (f : Symbol → Nat) :
    countUp y (zs.map fun z => ⟨z, f z⟩) = some (zs.map fun z => ⟨z, f z + if y = z then 1 else 0⟩) := by
  induction zs with
  | nil => cases hy
  | cons z zs ih =>
    obtain ⟨hz, hnodup⟩ := List.nodup_cons.1 hnodup
    rw [List.map_cons, countUp]
    by_cases hzy : z = y
    · subst hzy
      have hrest : ∀ x ∈ zs, z ≠ x := fun x hx e => hz (e ▸ hx)
      simpa using fun x hx => hrest x hx
    · have hy : y ∈ zs := (List.mem_cons.1 hy).resolve_left (Ne.symm hzy)
      rw [if_neg hzy, ih hy hnodup]
      simp [Ne.symm hzy]

theorem countUp_frequencyTable {ys : List Symbol} {y : Symbol} (hy : y ∈ ys) :
    countUp y (frequencyTable ys) = some (frequencyTable (ys ++ [y])) := by
  rw [frequencyTable, countUp_map (mem_firstOccurrences.2 hy) (firstOccurrences_nodup ys), frequencyTable,
    firstOccurrences_concat_of_mem hy]
  simp [List.count_append, List.count_singleton, beq_iff_eq]

theorem frequencyTable_concat {ys : List Symbol} {y : Symbol} (hy : y ∉ ys) :
    frequencyTable (ys ++ [y]) = frequencyTable ys ++ [⟨y, 1⟩] := by
  have hcount : ∀ z ∈ firstOccurrences ys, (ys ++ [y]).count z = ys.count z := fun z hz => by
    have hne : z ≠ y := fun e => hy (e ▸ mem_firstOccurrences.1 hz)
    simp [List.count_append, hne.symm]
  rw [frequencyTable, firstOccurrences_concat_of_notMem hy, List.map_append, List.map_singleton]
  refine congrArg₂ (· ++ ·) (List.map_congr_left fun z hz => by rw [hcount z hz]) ?_
  simp [List.count_append, List.count_eq_zero_of_not_mem hy]

/-- `count_segment` from the table of the symbols seen so far: the table of all, or `ERR_CAPACITY` where it would
have more than `SYMCAP` entries (R82). -/
theorem countSegment_frequencyTable {cap : Nat} {seen : List Symbol} (hseen : (firstOccurrences seen).length ≤ cap)
    (ys : List Symbol) : countSegment cap (frequencyTable seen) ys =
      if (firstOccurrences (seen ++ ys)).length ≤ cap then .ok (frequencyTable (seen ++ ys))
      else .error (.raise ⟨.capacity, 0, 0⟩) := by
  induction ys generalizing seen with
  | nil => rw [countSegment, List.append_nil, if_pos hseen]
  | cons y ys ih =>
    have hassoc : seen ++ y :: ys = seen ++ [y] ++ ys := by simp
    rw [countSegment, hassoc]
    by_cases hy : y ∈ seen
    · rw [countUp_frequencyTable hy]
      exact ih (by rwa [firstOccurrences_concat_of_mem hy])
    · have hnone : countUp y (frequencyTable seen) = none := by
        rwa [countUp_eq_none, map_sym_frequencyTable, mem_firstOccurrences]
      have hone : (firstOccurrences (seen ++ [y])).length = (firstOccurrences seen).length + 1 := by
        rw [firstOccurrences_concat_of_notMem hy, List.length_append, List.length_singleton]
      simp only [hnone]
      by_cases hfull : (firstOccurrences seen).length = cap
      · have hmore := (firstOccurrences_prefix (seen ++ [y]) ys).length_le
        rw [if_pos ((frequencyTable_length seen).trans hfull), if_neg (by omega)]
      · rw [if_neg (by rwa [frequencyTable_length]), ← frequencyTable_concat hy]
        exact ih (by omega)

theorem countSegment_nil_eq_ok {cap : Nat} {ys : List Symbol} {T : List FtEntry} :
    countSegment cap [] ys = .ok T ↔ (firstOccurrences ys).length ≤ cap ∧ T = frequencyTable ys := by
  have h := countSegment_frequencyTable (seen := []) (Nat.zero_le cap) ys
  rw [List.nil_append] at h
  rw [show ([] : List FtEntry) = frequencyTable [] from rfl, h]
  split <;> simp [*, eq_comm]

/-- COUNT's tables are the frequency tables of the segments, where each fits `SYMCAP`. -/
theorem traverse_countSegment_eq_ok {cap : Nat} {segs : List (List Symbol)} {tables : List (List FtEntry)} :
    traverse (countSegment cap []) segs = .ok tables ↔
      (∀ ys ∈ segs, (firstOccurrences ys).length ≤ cap) ∧ tables = segs.map frequencyTable := by
  rw [traverse_eq_ok]
  induction segs generalizing tables with
  | nil => simp
  | cons ys segs ih =>
    rw [List.forall₂_cons_left_iff, List.forall_mem_cons, List.map_cons]
    constructor
    · rintro ⟨T, Ts, hT, hTs, rfl⟩
      obtain ⟨hcap, rfl⟩ := countSegment_nil_eq_ok.1 hT
      obtain ⟨hcaps, rfl⟩ := ih.1 hTs
      exact ⟨⟨hcap, hcaps⟩, rfl⟩
    · rintro ⟨⟨hcap, hcaps⟩, rfl⟩
      exact ⟨_, _, countSegment_nil_eq_ok.2 ⟨hcap, rfl⟩, ih.2 ⟨hcaps, rfl⟩, rfl⟩

/-! ## COUNT -/

section
variable {s : State} {input : List RawUnit}

/-- COUNT under its conditions writes the frequency tables of the segments. -/
theorem countPhase_of_ready (h : CountReady s input) : countPhase s =
    .ok (s.storeCounts ((segments input s.seglen.toNat s.charlen.toNat).map frequencyTable)) := by
  obtain ⟨hp, hq, hin, hsegs, hsym, hinput, hcap⟩ := h
  exact countPhase_eq_ok.2 ⟨countChecks_eq_ok.2 ⟨by omega, by omega, hin, hsegs, hsym⟩, input, _, hinput,
    traverse_countSegment_eq_ok.2 ⟨hcap, rfl⟩, rfl⟩

/-- A segment's table of a COUNT whose checks pass is well-formed (R84). -/
theorem wfFt_frequencyTable (hchecks : countChecks s = .ok ()) (hinput : s.input = some input) {ys : List Symbol}
    (hys : ys ∈ segments input s.seglen.toNat s.charlen.toNat) (hcap : (firstOccurrences ys).length ≤ s.params.symCap) :
    wfFt s.params (frequencyTable ys) = true ∧ totalCount (frequencyTable ys) = ys.length := by
  obtain ⟨hp, hq, -, -, hsym⟩ := countChecks_eq_ok.1 hchecks
  obtain ⟨hne, hunits⟩ := ne_nil_of_mem_segments (by omega) (by omega) hys
  have hlen := State.input_length hinput
  have htotal : totalCount (frequencyTable ys) = ys.length := by
    obtain ⟨-, htotal, -⟩ := countSegment_eq_ok (countSegment_nil_eq_ok.2 ⟨hcap, rfl⟩) (Nat.zero_le _)
    simpa [totalCount] using htotal
  refine ⟨wfFt_iff.2 ⟨?_, by simpa using hcap, ?_, fun e he => ?_, ?_⟩, htotal⟩
  · obtain ⟨y, hy⟩ := List.exists_mem_of_ne_nil ys hne
    exact List.ne_nil_of_mem (mem_frequencyTable.2 ⟨hy, rfl⟩ : (⟨y, ys.count y⟩ : FtEntry) ∈ _)
  · rw [map_sym_frequencyTable, distinct_iff_nodup]
    exact firstOccurrences_nodup ys
  · obtain ⟨hy, hcnt⟩ := mem_frequencyTable.1 he
    have hone := hunits _ hy
    obtain ⟨hle, -⟩ := symbol_of_mem_segments hys hy
    rw [symbolOk, Bool.and_eq_true, decide_eq_true_eq, decide_eq_true_eq]
    exact ⟨⟨hone, by omega⟩, hcnt ▸ List.count_pos_iff.2 hy⟩
  · have hle := length_le_of_mem_segments (by omega) hys
    have hlt := s.inlen.isLt
    omega

/-- Settles O18: COUNT stores the frequency tables of the segments, and the store leaves nothing else. -/
theorem countCompletes : Obligations.CountCompletes := by
  intro s input hready
  have hexec := congrArg (conclude State.loseCounts s) (countPhase_of_ready hready)
  obtain ⟨hp, -, -, -, -, hinput, -⟩ := hready
  have hlen : (segments input s.seglen.toNat s.charlen.toNat).length = cdiv s.inlen.toNat s.seglen.toNat := by
    rw [segments_length, State.input_length hinput]
    rfl
  have hlt : (segments input s.seglen.toNat s.charlen.toNat).length < 2 ^ 32 := by
    have hle : cdiv s.inlen.toNat s.seglen.toNat ≤ s.inlen.toNat := (cdiv_le_iff hp).2 (Nat.le_mul_of_pos_right _ hp)
    have hword := s.inlen.isLt
    omega
  generalize segments input s.seglen.toNat s.charlen.toNat = segs at hexec hlen hlt ⊢
  have hnseg : (s.storeCounts (segs.map frequencyTable)).nseg.toNat = segs.length := by
    rw [State.storeCounts_nseg, List.length_map, BitVec.toNat_ofNat, Nat.mod_eq_of_lt hlt]
  refine ⟨_, completesWith_of_exec (i := .count) hexec rfl, hnseg.trans hlen,
    fun i ys hys => ⟨by simp [hys], fun e he => ?_⟩, fun i hi => ?_⟩
  · rw [State.element_complete, State.element_ft_storeCounts (by simpa [hys] using he)]
  · have hi : (segs.map frequencyTable).length ≤ i := by
      rw [List.length_map, ← hnseg]
      exact hi
    exact ⟨by rw [State.element_complete, State.element_ftN_storeCounts hi], fun e => by
      rw [State.element_complete, State.element_ft_storeCounts (getD_length_le hi e)]⟩

/-- Settles O19: R84, from the frequency tables of the segments. -/
theorem countEstablishesItsTables : Obligations.CountEstablishesItsTables := by
  intro s t input hinput h hdone i hi
  obtain ⟨u, hu, rfl⟩ := conclude_done h hdone
  obtain ⟨hchecks, _, tables, hinput', htr, rfl⟩ := countPhase_eq_ok.1 hu
  obtain rfl := Option.some.inj (hinput.symm.trans hinput')
  obtain ⟨hcap, rfl⟩ := traverse_countSegment_eq_ok.1 htr
  have hi : i < (segments input s.seglen.toNat s.charlen.toNat).length := by
    rw [State.complete_nseg, State.storeCounts_nseg, BitVec.toNat_ofNat, List.length_map] at hi
    exact hi.trans_le (Nat.mod_le _ _)
  obtain ⟨ys, hys⟩ : ∃ ys, (segments input s.seglen.toNat s.charlen.toNat)[i]? = some ys :=
    ⟨_, List.getElem?_eq_getElem hi⟩
  have hmem := List.mem_of_getElem? hys
  obtain ⟨hwf, htotal⟩ := wfFt_frequencyTable hchecks hinput hmem (hcap ys hmem)
  refine ⟨ys, frequencyTable ys, hys, by simp [hys], hwf, fun y => ?_, fun e he => (mem_frequencyTable.1 he).2, htotal,
    ?_⟩
  · rw [map_sym_frequencyTable, mem_firstOccurrences]
  · rw [frequencyTable, List.pairwise_map]
    exact firstOccurrences_pairwise ys

end

end Sys2Proof.Machine
end

section
/-! SUPPORT. ENCODE and DECODE without a fault: the Encoder appends the codeword of each symbol (R121, R126), and the
Decoder turns each codeword of its tree back into its symbol (R135). -/

namespace Sys2Proof.Machine

/-! ## The Encoder -/

theorem lookup_eq_find? (y : Symbol) (T : List CtEntry) :
    lookup y T = (T.find? fun e => e.sym = y).map CtEntry.cw := by
  induction T with
  | nil => rfl
  | cons e T ih => by_cases he : e.sym = y <;> simp [lookup, he, ih]

theorem lookup_of_hasEntry {T : List CtEntry} {y : Symbol} (h : HasEntry T y) : lookup y T = some (codewordOf T y) := by
  obtain ⟨e, he, hy⟩ := h
  obtain ⟨d, hd⟩ := Option.isSome_iff_exists.1
    (List.find?_isSome.2 ⟨e, he, decide_eq_true hy⟩ : (T.find? fun e => e.sym = y).isSome = true)
  rw [lookup_eq_find?, codewordOf, hd]
  rfl

section
variable {cap : Nat}

theorem encodeSymbols_of_hasEntry {T : List CtEntry} {ys : List Symbol} (h : ∀ y ∈ ys, HasEntry T y) (i j : Nat)
    {bits : List Bool} (hcap : (bits ++ ys.flatMap (codewordOf T)).length ≤ cap) :
    encodeSymbols cap (some T) i j ys bits = .ok (bits ++ ys.flatMap (codewordOf T)) := by
  induction ys generalizing j bits with
  | nil => simp [encodeSymbols]
  | cons y ys ih =>
    obtain ⟨hy, hys⟩ := List.forall_mem_cons.1 h
    rw [List.flatMap_cons, ← List.append_assoc] at hcap ⊢
    have hfits : ¬ cap < bits.length + (codewordOf T y).length := by
      rw [List.length_append, List.length_append] at hcap
      omega
    simp only [encodeSymbols, Option.bind_some, lookup_of_hasEntry hy, if_neg hfits]
    exact ih hys (j + 1) hcap

theorem encodeSegments_of_hasEntry {tables : List (List CtEntry)} {T : Nat → List CtEntry} {i : Nat}
    {segs : List (List Symbol)} (htables : ∀ k < segs.length, tables[i + k]? = some (T (i + k)))
    (h : ∀ k < segs.length, ∀ y ∈ segs.getD k [], HasEntry (T (i + k)) y) {bits : List Bool}
    (hcap : (bits ++ streamOf T i segs).length ≤ cap) :
    encodeSegments cap tables i segs bits = .ok (bits ++ streamOf T i segs) := by
  induction segs generalizing i bits with
  | nil => simp [encodeSegments, streamOf]
  | cons ys segs ih =>
    have hshift (k : Nat) : i + 1 + k = i + (k + 1) := by omega
    rw [streamOf, ← List.append_assoc] at hcap ⊢
    have hfits : (bits ++ ys.flatMap (codewordOf (T i))).length ≤ cap := by
      rw [List.length_append] at hcap
      omega
    have htable : tables[i]? = some (T i) := htables 0 (Nat.succ_pos _)
    have hys : ∀ y ∈ ys, HasEntry (T i) y := h 0 (Nat.succ_pos _)
    rw [encodeSegments, htable, encodeSymbols_of_hasEntry hys i 0 hfits, ok_bind]
    refine ih (fun k hk => ?_) (fun k hk => ?_) hcap <;> rw [hshift]
    · exact htables (k + 1) (Nat.succ_lt_succ hk)
    · exact h (k + 1) (Nat.succ_lt_succ hk)

end

/-- ENCODE writes the concatenation of the codewords where every symbol has one and they fit BITCAP. -/
theorem encodePhase_of_ready {s : State} {input : List RawUnit} {tables : Nat → List CtEntry}
    (hready : EncodeReady s input tables) {segs : List (List Symbol)}
    (hsegs : segs = segments input s.seglen.toNat s.charlen.toNat) (hnseg : segs.length ≤ s.nseg.toNat)
    (hentries : ∀ i < segs.length, ∀ y ∈ segs.getD i [], HasEntry (tables i) y)
    (hcap : (streamOf tables 0 segs).length ≤ s.params.bitCap) :
    encodePhase s = .ok (s.storeStream (streamOf tables 0 segs)) := by
  obtain ⟨hp, hq, hin, hsegcap, hsym, hinput, htables⟩ := hready
  have hlen : cdiv s.inlen.toNat s.seglen.toNat = segs.length := by
    rw [hsegs, segments_length, State.input_length hinput]
    rfl
  rw [hlen, min_eq_right hnseg] at htables
  have hload : loadCodeTables s (min s.nseg.toNat segs.length) = .ok ((List.range segs.length).map tables) := by
    rw [min_eq_right hnseg]
    exact loadCodeTables_of_ready htables
  have hencode := encodeSegments_of_hasEntry (i := 0) (T := tables) (bits := [])
    (tables := (List.range segs.length).map tables) (fun k hk => by simp [hk])
    (fun k hk => by simpa using hentries k hk) hcap
  subst hsegs
  exact encodePhase_eq_ok.2 ⟨encodeChecks_eq_ok.2 ⟨by omega, by omega, hin, hsegcap, hsym⟩, input, _, _, hinput, hload,
    hencode, rfl⟩

/-- Settles O37: ENCODE stores the concatenation of the codewords, and the store leaves nothing else. -/
theorem encodeCompletes : Obligations.EncodeCompletes := by
  intro s input tables segs hparams hready hsegs hnseg hentries hcap
  have hexec := congrArg (conclude State.loseStream s) (encodePhase_of_ready hready hsegs hnseg hentries hcap)
  obtain ⟨-, -, hBit, -⟩ := Params.wf_iff.1 hparams
  have hbitlen : (s.storeStream (streamOf tables 0 segs)).bitlen.toNat = (streamOf tables 0 segs).length :=
    Nat.mod_eq_of_lt (hcap.trans_lt hBit)
  refine ⟨_, completesWith_of_exec (i := .encode) hexec rfl, hbitlen, ?_, fun b hb => ?_⟩
  · rw [State.stream_complete, State.stream_storeStream (hcap.trans_lt hBit)]
  · rw [State.element_complete, State.element_bitmem_storeStream (hbitlen ▸ hb)]

/-! ## The Decoder -/

section
variable {outCap : Nat}

/-- The Decoder consumes the codeword of a symbol of its tree that fits OUTCAP, whatever follows. -/
theorem decodeSegment_symbol {ns : List TreeNode} {e : CtEntry} (he : e ∈ genTable ns) (i : Nat) (last : Bool)
    (more cnt : Nat) (rest : List Bool) {out : List RawUnit} (hcap : (out ++ e.sym).length ≤ outCap) :
    decodeSegment outCap ns i last (more + 1) cnt (e.cw ++ rest) out =
      decodeSegment outCap ns i last more (cnt + 1) rest (out ++ e.sym) := by
  have hbits : (e.cw ++ rest).isEmpty = false := by simp [cw_ne_nil_of_mem_genTable he]
  have hfits : decide (outCap < out.length + List.length e.sym) = false := by
    rw [List.length_append] at hcap
    simpa using hcap
  simp [decodeSegment, hbits, decodeSymbol_of_mem_genTable he, hfits]

/-- So it does the codewords of several symbols that fit the segment. -/
theorem decodeSegment_append {ns : List TreeNode} {es : List CtEntry} (hes : ∀ e ∈ es, e ∈ genTable ns) (i : Nat)
    (last : Bool) (more cnt : Nat) (rest : List Bool) {out : List RawUnit}
    (hcap : (out ++ es.flatMap CtEntry.sym).length ≤ outCap) :
    decodeSegment outCap ns i last (es.length + more) cnt (es.flatMap CtEntry.cw ++ rest) out =
      decodeSegment outCap ns i last more (cnt + es.length) rest (out ++ es.flatMap CtEntry.sym) := by
  induction es generalizing cnt out with
  | nil => simp
  | cons e es ih =>
    obtain ⟨he, hes⟩ := List.forall_mem_cons.1 hes
    rw [List.flatMap_cons, ← List.append_assoc] at hcap
    have hfits : (out ++ e.sym).length ≤ outCap := by
      rw [List.length_append] at hcap
      omega
    rw [List.length_cons, Nat.add_right_comm, List.flatMap_cons, List.flatMap_cons, List.append_assoc,
      decodeSegment_symbol he i last _ cnt _ hfits, ih hes (cnt + 1) hcap, List.append_assoc, Nat.add_assoc,
      Nat.add_comm 1]

/-- A segment ends at `cap` symbols, the last one also where the bits do (R133). -/
theorem decodeSegment_end {ns : List TreeNode} {i more cnt : Nat} {last : Bool} {rest : List Bool}
    {out : List RawUnit} (h : more = 0 ∨ last = true ∧ rest = [] ∧ 1 ≤ cnt) :
    decodeSegment outCap ns i last more cnt rest out = .ok (rest, out) := by
  cases more with
  | zero => rfl
  | succ more =>
    obtain ⟨rfl, rfl, hcnt⟩ := h.resolve_left (Nat.succ_ne_zero more)
    simp [decodeSegment, hcnt]

theorem bitsOf_cons (es : List CtEntry) (segs : List (List CtEntry)) :
    bitsOf (es :: segs) = es.flatMap CtEntry.cw ++ bitsOf segs := by
  rw [bitsOf, List.flatten_cons, List.flatMap_append]
  rfl

theorem unitsOf_cons (es : List CtEntry) (segs : List (List CtEntry)) :
    unitsOf (es :: segs) = es.flatMap CtEntry.sym ++ unitsOf segs := by
  rw [unitsOf, List.flatten_cons, List.flatMap_append]
  rfl

/-- Full segments and a last one of at least one symbol, each from its own tree, are decoded whole. -/
theorem decodeSegments_of_codewords {cap i : Nat} {trees : List (List TreeNode)} {segs : List (List CtEntry)}
    (hcode : List.Forall₂ (fun ns es => ∀ e ∈ es, e ∈ genTable ns) trees segs)
    (hlen : ∀ k < segs.length, (k + 1 < segs.length → (segs.getD k []).length = cap) ∧
      1 ≤ (segs.getD k []).length ∧ (segs.getD k []).length ≤ cap)
    {out : List RawUnit} (hcap : (out ++ unitsOf segs).length ≤ outCap) :
    decodeSegments outCap cap i trees (bitsOf segs) out = .ok ([], out ++ unitsOf segs) := by
  induction hcode generalizing i out with
  | nil => simp [decodeSegments, bitsOf, unitsOf]
  | @cons ns es trees segs hes hcode ih =>
    rw [unitsOf_cons, ← List.append_assoc] at hcap ⊢
    have hfits : (out ++ es.flatMap CtEntry.sym).length ≤ outCap := by
      rw [List.length_append] at hcap
      omega
    obtain ⟨hfull, hone, hle⟩ := hlen 0 (Nat.succ_pos _)
    rw [List.getD_cons_zero] at hfull hone hle
    have hend : cap - es.length = 0 ∨ trees.isEmpty = true ∧ bitsOf segs = [] ∧ 1 ≤ 0 + es.length := by
      cases hcode with
      | nil => exact .inr ⟨rfl, rfl, by omega⟩
      | cons _ _ => exact .inl (by have := hfull (by simp); omega)
    have hseg := decodeSegment_append hes i trees.isEmpty (cap - es.length) 0 (bitsOf segs) hfits
    rw [decodeSegment_end hend, Nat.add_sub_cancel' hle] at hseg
    rw [decodeSegments, bitsOf_cons, hseg, ok_bind]
    exact ih (fun k hk => by simpa using hlen (k + 1) (Nat.succ_lt_succ hk)) hcap

end

theorem forall₂_of_fromTrees {trees : Nat → List TreeNode} {segs : List (List CtEntry)} (h : FromTrees trees segs) :
    List.Forall₂ (fun ns es => ∀ e ∈ es, e ∈ genTable ns) ((List.range segs.length).map trees) segs := by
  refine List.forall₂_iff_get.2 ⟨by simp, fun i _ hi => ?_⟩
  simpa [hi] using h i hi

/-- Settles O39: DECODE stores the units of the symbols, and the store leaves nothing else. -/
theorem decodeCompletes : Obligations.DecodeCompletes := by
  rintro s bits trees segs hparams ⟨hp, hq, ⟨hsegs, htrees⟩, hbits, hstream⟩ hnseg hcode hlen rfl hcap
  have hload := loadTrees_of_ready htrees
  have hdecode := decodeSegments_of_codewords (i := 0) (forall₂_of_fromTrees hcode) hlen (out := []) hcap
  rw [hnseg, List.nil_append] at hdecode
  have hphase := decodePhase_eq_ok.2 ⟨decodeChecks_eq_ok.2 ⟨by omega, by omega, hsegs, hbits⟩, _, _, _, hstream, hload,
    hdecode, rfl⟩
  have hexec := congrArg (conclude State.loseOutput s) hphase
  obtain ⟨-, -, -, hOut, -⟩ := Params.wf_iff.1 hparams
  have houtlen : (s.storeOutput (unitsOf segs)).outlen.toNat = (unitsOf segs).length :=
    Nat.mod_eq_of_lt (hcap.trans_lt hOut)
  refine ⟨_, completesWith_of_exec (i := .decode) hexec rfl, houtlen, ?_, fun i hi => ?_⟩
  · rw [State.output_complete, State.output_storeOutput (hcap.trans_lt hOut)]
  · rw [State.element_complete, State.element_omem_storeOutput (houtlen ▸ hi)]

end Sys2Proof.Machine
end

section
/-! SUPPORT. The host port as the host sees it: register transactions (R44), command writes (R11, R152), the STATUS
words (R18) and the reset state (R170). -/

namespace Sys2Proof.Machine

/-! ## Steps of an idle core -/

section
variable {s : State} {rest : List HostTxn}

/-- With BUSY = 0 a transaction that starts no command is the whole step. -/
theorem step_of_issues_quiet {x : HostTxn} {t : State} (h : Issues s x rest)
    (hx : transact { s with script := rest } x = .quiet t) : step s = .next t := by
  rw [step, hostTurn_idle h.1 h.2, hx]

/-- With BUSY = 0 a transaction that starts a command makes the step that command's (R5). -/
theorem step_of_issues_command {x : HostTxn} {i : Instr} {t : State} (h : Issues s x rest)
    (hx : transact { s with script := rest } x = .command i t) : step s = exec i t := by
  rw [step, hostTurn_idle h.1 h.2, hx]

/-- Settles O46: the accepted command write of R11. -/
theorem stepRunsTheDecodedCommand : Obligations.StepRunsTheDecodedCommand := by
  intro s w rest i h hfault hdecode
  exact step_of_issues_command h (by simp [writeCmd, hfault, hdecode])

/-- Settles O48: the ignored command write of R152. -/
theorem faultedCoreIgnoresCommands : Obligations.FaultedCoreIgnoresCommands := by
  intro s w rest h hfault
  exact step_of_issues_quiet h (if_pos hfault)

end

/-! ## Registers -/

/-- The registers of R10 by number, CMD as 0. -/
def State.regs (s : State) : List Word :=
  [0, s.status, s.seglen, s.charlen, s.inlen, s.nseg, s.bitlen, s.outlen, s.errseg, s.errpos]

/-- Registers 10 to 15 read 0, and no other number has a meaning. -/
theorem readReg_eq (s : State) (n : Nat) : readReg s n = if n ≤ 15 then some (s.regs.getD n 0) else none := by
  split
  · interval_cases n <;> rfl
  · unfold readReg
    split <;> simp_all

theorem readReg_of_le {s : State} {n : Nat} (hn : n ≤ 15) : readReg s n = some (s.regs.getD n 0) := by
  rw [readReg_eq, if_pos hn]

theorem readReg_of_regs_set {s t : State} {n : Nat} {v : Word} (hn : n < 10) (h : t.regs = s.regs.set n v) (m : Nat) :
    readReg t m = if m = n then some v else readReg s m := by
  rw [readReg_eq, readReg_eq, h, List.getD_eq_getElem?_getD, List.getD_eq_getElem?_getD]
  by_cases hm : m = n
  · subst hm
    have hlen : m < s.regs.length := hn
    simp [List.getElem?_set_self hlen, show m ≤ 15 by omega]
  · rw [List.getElem?_set_ne (Ne.symm hm), if_neg hm]

theorem writeReg_of_ignored (s : State) {n : Nat} (v : Word) (hn : n ≤ 15) (hw : n ∉ [2, 3, 4, 5, 6]) :
    writeReg s n v = some s := by
  unfold writeReg
  split <;> simp_all

/-- A register write puts its value where the host may, and changes no other register. -/
theorem writeReg_regs (s : State) {n : Nat} (v : Word) (hn : n ≤ 15) :
    ∃ t, writeReg s n v = some t ∧
      ∀ m, readReg t m = if m = n ∧ n ∈ [2, 3, 4, 5, 6] then some v else readReg s m := by
  by_cases hw : n ∈ [2, 3, 4, 5, 6]
  · simp only [hw, and_true]
    simp only [List.mem_cons, List.not_mem_nil, or_false] at hw
    rcases hw with rfl | rfl | rfl | rfl | rfl <;> exact ⟨_, rfl, readReg_of_regs_set (by decide) rfl⟩
  · exact ⟨s, writeReg_of_ignored s v hn hw, fun m => by simp [hw]⟩

theorem writeReg_frame {s t : State} {n : Nat} {v : Word} (h : writeReg s n v = some t) :
    t.script = s.script ∧ t.reads = s.reads ∧ t.params = s.params ∧ t.draws = s.draws ∧
      ∀ a, t.element a = s.element a := by
  rcases writeReg_cases h with rfl | rfl | rfl | rfl | rfl | rfl <;>
    exact ⟨rfl, rfl, rfl, rfl, fun a => by cases a <;> rfl⟩

/-- Settles O51: R44. -/
theorem registerTransactions : Obligations.RegisterTransactions := by
  refine ⟨fun s n rest h hn => step_of_issues_quiet h ?_, fun s n v rest h hpos hn => ?_⟩
  · rw [transact_rdreg, readReg_of_le hn]
    rfl
  · obtain ⟨n, rfl⟩ : ∃ k, n = k + 1 := ⟨n - 1, by omega⟩
    obtain ⟨t, ht, hregs⟩ := writeReg_regs { s with script := rest } v hn
    obtain ⟨hscript, hreads, hparams, hdraws, helement⟩ := writeReg_frame ht
    refine ⟨t, step_of_issues_quiet h ?_, hscript, hreads, hparams, hdraws, fun a => ?_, hregs⟩
    · rw [transact_wrreg, ht]
      rfl
    · rw [helement]
      cases a <;> rfl

/-! ## STATUS words and the reset state -/

/-- Settles O7: the words by their bits. -/
theorem statusWordsAsLaidOut : Obligations.StatusWordsAsLaidOut := by
  unfold Obligations.StatusWordsAsLaidOut
  decide

/-- Settles O56: the reset state is that of the reset event, with the named parameters. -/
theorem resetStateMeetsTheInvariants : Obligations.ResetStateMeetsTheInvariants := by
  have hempty : ∀ a, State.reset.element a = none := fun a => by cases a <;> rfl
  refine ⟨fun n hn => ?_, hempty, Memory.wf_reset, .inl rfl, fun a ha => absurd (hempty a) ha, fun a v hv => ?_,
    by decide⟩
  · rw [readReg_of_le hn]
    interval_cases n <;> rfl
  · rw [hempty] at hv
    cases hv

end Sys2Proof.Machine
end

section
/-! SUPPORT. What a command depends on (R41): two states that agree on the registers and windows it reads bring its
pseudocode to the same end, and make the two states agree on what it writes. -/

namespace Sys2Proof.Machine

/-! ## States that agree -/

/-- The two states have the same parameters and hold the same in the listed registers and windows. -/
structure State.Agree (regs : List Nat) (wins : List Win) (s s' : State) : Prop where
  params : s'.params = s.params
  reg : ∀ n ∈ regs, readReg s' n = readReg s n
  win : ∀ w ∈ wins, SameWindow w s s'

section
variable {regs regs' : List Nat} {wins wins' : List Win} {s s' t t' : State}

theorem State.Agree.mono (h : State.Agree regs wins s s') (hr : regs' ⊆ regs) (hw : wins' ⊆ wins) :
    State.Agree regs' wins' s s' :=
  ⟨h.params, fun n hn => h.reg n (hr hn), fun w hm => h.win w (hw hm)⟩

/-- An update that changes only what the results agree on keeps the agreement of two states. -/
theorem State.Agree.update (h : State.Agree regs wins s s') (ht : State.Frame regs' wins' s t)
    (ht' : State.Frame regs' wins' s' t') (hnew : State.Agree regs' wins' t t') :
    State.Agree (regs' ++ regs) (wins' ++ wins) t t' where
  params := hnew.params
  reg n hn := by
    by_cases hm : n ∈ regs'
    · exact hnew.reg n hm
    · rw [ht'.readReg hm, ht.readReg hm, h.reg n ((List.mem_append.1 hn).resolve_left hm)]
  win w hw := by
    by_cases hm : w ∈ wins'
    · exact hnew.win w hm
    · intro a ha
      rw [ht'.element (ha ▸ hm), ht.element (ha ▸ hm), h.win w ((List.mem_append.1 hw).resolve_left hm) a ha]

/-! ## What the operands denote in states that agree -/

theorem State.Agree.seglen (h : State.Agree regs wins s s') (hm : 2 ∈ regs) : s'.seglen = s.seglen :=
  Option.some.inj (h.reg 2 hm)

theorem State.Agree.charlen (h : State.Agree regs wins s s') (hm : 3 ∈ regs) : s'.charlen = s.charlen :=
  Option.some.inj (h.reg 3 hm)

theorem State.Agree.inlen (h : State.Agree regs wins s s') (hm : 4 ∈ regs) : s'.inlen = s.inlen :=
  Option.some.inj (h.reg 4 hm)

theorem State.Agree.nseg (h : State.Agree regs wins s s') (hm : 5 ∈ regs) : s'.nseg = s.nseg :=
  Option.some.inj (h.reg 5 hm)

theorem State.Agree.bitlen (h : State.Agree regs wins s s') (hm : 6 ∈ regs) : s'.bitlen = s.bitlen :=
  Option.some.inj (h.reg 6 hm)

theorem Window.readFrom_congr {α : Type} {w w' : Window α} (h : ∀ i, Window.read w' i = Window.read w i) (i n : Nat) :
    Window.readFrom w' i n = Window.readFrom w i n := by
  induction n generalizing i with
  | zero => rfl
  | succ n ih => simp only [Window.readFrom, h, ih]

theorem entries_congr {α : Type} {counts counts' : Window Nat} {t t' : Table α}
    (hc : ∀ i, Window.read counts' i = Window.read counts i) (ht : ∀ i e, Table.read t' i e = Table.read t i e) :
    entries counts' t' = entries counts t := by
  funext i
  rw [entries, entries, hc, funext (Window.readFrom_congr (ht i) 0)]

theorem State.Agree.input (h : State.Agree regs wins s s') (hr : 4 ∈ regs) (hw : .imem ∈ wins) :
    s'.input = s.input := by
  rw [State.input, State.input, h.inlen hr]
  exact Window.readFrom_congr (fun i => Option.map_injective (fun _ _ => HostRead.unit.inj)
    (h.win _ hw (.imem i) rfl)) 0 _

theorem State.Agree.stream (h : State.Agree regs wins s s') (hr : 6 ∈ regs) (hw : .bitmem ∈ wins) :
    s'.stream = s.stream := by
  rw [State.stream, State.stream, h.bitlen hr]
  exact Window.readFrom_congr (fun i => Option.map_injective (fun _ _ => HostRead.bit.inj)
    (h.win _ hw (.bitmem i) rfl)) 0 _

theorem State.Agree.loadFreqTables (h : State.Agree regs wins s s') (hn : .ftN ∈ wins) (ht : .ft ∈ wins) (k : Nat) :
    loadFreqTables s' k = loadFreqTables s k := by
  rw [Machine.loadFreqTables, Machine.loadFreqTables, h.params, entries_congr
    (fun i => Option.map_injective (fun _ _ => HostRead.count.inj) (h.win _ hn (.ftN i) rfl))
    (fun i e => Option.map_injective (fun _ _ => HostRead.ft.inj) (h.win _ ht (.ft i e) rfl))]

theorem State.Agree.loadTrees (h : State.Agree regs wins s s') (hn : .treeN ∈ wins) (ht : .tree ∈ wins) (k : Nat) :
    loadTrees s' k = loadTrees s k := by
  rw [Machine.loadTrees, Machine.loadTrees, h.params, entries_congr
    (fun i => Option.map_injective (fun _ _ => HostRead.count.inj) (h.win _ hn (.treeN i) rfl))
    (fun i e => Option.map_injective (fun _ _ => HostRead.node.inj) (h.win _ ht (.tree i e) rfl))]

theorem State.Agree.loadCodeTables (h : State.Agree regs wins s s') (hn : .ctN ∈ wins) (ht : .ct ∈ wins) (k : Nat) :
    loadCodeTables s' k = loadCodeTables s k := by
  rw [Machine.loadCodeTables, Machine.loadCodeTables, h.params, entries_congr
    (fun i => Option.map_injective (fun _ _ => HostRead.count.inj) (h.win _ hn (.ctN i) rfl))
    (fun i e => Option.map_injective (fun _ _ => HostRead.ct.inj) (h.win _ ht (.ct i e) rfl))]

end

/-! ## Pseudocode that comes to the same end -/

/-- Both give a state, and the states are related, or both stop for the same reason. -/
inductive SameEnd (R : State → State → Prop) : Except Stop State → Except Stop State → Prop where
  | ok {t t' : State} (h : R t t') : SameEnd R (.ok t) (.ok t')
  | error (e : Stop) : SameEnd R (.error e) (.error e)

section
variable {R R' : State → State → Prop}

/-- After the same first part, two pseudocodes come to the same end where they do from each of its results. -/
theorem sameEnd_bind {α : Type} (x : Except Stop α) {f f' : α → Except Stop State}
    (h : ∀ a, SameEnd R (f a) (f' a)) : SameEnd R (x >>= f) (x >>= f') := by
  cases x with
  | error e => exact .error e
  | ok a => exact h a

theorem SameEnd.bind {x x' : Except Stop State} (hx : SameEnd R x x') {f f' : State → Except Stop State}
    (h : ∀ t t', R t t' → SameEnd R' (f t) (f' t')) : SameEnd R' (x >>= f) (x' >>= f') := by
  cases hx with
  | error e => exact .error e
  | ok ht => exact h _ _ ht

end

/-! ## What a command writes -/

/-- The two states hold the same data in a window. -/
def State.SameData (s t : State) : Win → Prop
  | .imem => t.imem = s.imem
  | .ftN => t.ftN = s.ftN
  | .ft => t.ft = s.ft
  | .treeN => t.treeN = s.treeN
  | .tree => t.tree = s.tree
  | .ctN => t.ctN = s.ctN
  | .ct => t.ct = s.ct
  | .bitmem => t.bitmem = s.bitmem
  | .omem => t.omem = s.omem

theorem State.SameData.sameWindow {s t : State} {w : Win} (h : State.SameData s t w) : SameWindow w s t := by
  rintro a rfl
  cases a <;> simp only [State.SameData, WinAddr.win] at h <;> simp only [State.element, h]

theorem State.agree_of_sameData {regs : List Nat} {wins : List Win} {s t : State} (hp : t.params = s.params)
    (hr : ∀ n ∈ regs, readReg t n = readReg s n) (hw : ∀ w ∈ wins, State.SameData s t w) : State.Agree regs wins s t :=
  ⟨hp, hr, fun w hm => (hw w hm).sameWindow⟩

section
variable {s s' : State} (h : s'.params = s.params)
include h

theorem State.agree_storeCounts (ts : List (List FtEntry)) :
    State.Agree [5] [.ftN, .ft] (s.storeCounts ts) (s'.storeCounts ts) :=
  State.agree_of_sameData h (by simp [readReg]) (by simp [State.SameData])

theorem State.agree_storeTrees (ts : List (List TreeNode)) :
    State.Agree [] [.treeN, .tree] (s.storeTrees ts) (s'.storeTrees ts) :=
  State.agree_of_sameData h (by simp) (by simp [State.SameData])

theorem State.agree_storeCodes (ts : List (List CtEntry)) :
    State.Agree [] [.ctN, .ct] (s.storeCodes ts) (s'.storeCodes ts) :=
  State.agree_of_sameData h (by simp) (by simp [State.SameData])

theorem State.agree_storeStream (bits : List Bool) :
    State.Agree [6] [.bitmem] (s.storeStream bits) (s'.storeStream bits) :=
  State.agree_of_sameData h (by simp [readReg]) (by simp [State.SameData])

theorem State.agree_storeOutput (out : List RawUnit) :
    State.Agree [7] [.omem] (s.storeOutput out) (s'.storeOutput out) :=
  State.agree_of_sameData h (by simp [readReg]) (by simp [State.SameData])

end

/-! ## The pseudocode of the commands -/

section
variable {regs : List Nat} {wins : List Win} {s s' : State}

theorem countPhase_sameEnd (h : State.Agree regs wins s s') (hr : readsReg .count ⊆ regs)
    (hw : readsWin .count ⊆ wins) :
    SameEnd (State.Agree ([5] ++ regs) ([.ftN, .ft] ++ wins)) (countPhase s) (countPhase s') := by
  have hseg := h.seglen (hr (by decide))
  have hchar := h.charlen (hr (by decide))
  have hin := h.inlen (hr (by decide))
  have hchecks : countChecks s' = countChecks s := by simp only [countChecks, h.params, hseg, hchar, hin]
  have hinput : loadInput s' = loadInput s := congrArg (orRefuse _) (h.input (hr (by decide)) (hw (by decide)))
  rw [countPhase, countPhase, hchecks, hinput, h.params, hseg, hchar]
  exact sameEnd_bind _ fun _ => sameEnd_bind _ fun _ => sameEnd_bind _ fun tables => .ok <|
    h.update (s.frame_storeCounts tables) (s'.frame_storeCounts tables) (State.agree_storeCounts h.params tables)

theorem buildPhase_sameEnd (h : State.Agree regs wins s s') (hr : readsReg .build ⊆ regs)
    (hw : readsWin .build ⊆ wins) :
    SameEnd (State.Agree ([] ++ regs) ([.treeN, .tree] ++ wins)) (buildPhase s) (buildPhase s') := by
  rw [buildPhase, buildPhase, h.params, h.nseg (hr (by decide)), h.loadFreqTables (hw (by decide)) (hw (by decide))]
  exact sameEnd_bind _ fun _ => sameEnd_bind _ fun tables => .ok <|
    h.update (s.frame_storeTrees _) (s'.frame_storeTrees _) (State.agree_storeTrees h.params _)

theorem genPhase_sameEnd (h : State.Agree regs wins s s') (hr : readsReg .gen ⊆ regs) (hw : readsWin .gen ⊆ wins) :
    SameEnd (State.Agree ([] ++ regs) ([.ctN, .ct] ++ wins)) (genPhase s) (genPhase s') := by
  rw [genPhase, genPhase, h.params, h.nseg (hr (by decide)), h.loadTrees (hw (by decide)) (hw (by decide))]
  exact sameEnd_bind _ fun _ => sameEnd_bind _ fun trees => .ok <|
    h.update (s.frame_storeCodes _) (s'.frame_storeCodes _) (State.agree_storeCodes h.params _)

/-- COUNT makes the states agree on what BUILD reads, and BUILD on what GEN reads (R114). -/
theorem buildCodesPhase_sameEnd (h : State.Agree (readsReg .buildCodes) (readsWin .buildCodes) s s') :
    SameEnd (State.Agree [5, 2, 3, 4] [.ctN, .ct, .treeN, .tree, .ftN, .ft, .imem]) (buildCodesPhase s)
      (buildCodesPhase s') :=
  (countPhase_sameEnd h (List.Subset.refl _) (List.Subset.refl _)).bind fun _ _ hcount =>
    (buildPhase_sameEnd hcount (by decide) (by decide)).bind fun _ _ hbuild =>
      genPhase_sameEnd hbuild (by decide) (by decide)

theorem encodePhase_sameEnd (h : State.Agree regs wins s s') (hr : readsReg .encode ⊆ regs)
    (hw : readsWin .encode ⊆ wins) :
    SameEnd (State.Agree ([6] ++ regs) ([.bitmem] ++ wins)) (encodePhase s) (encodePhase s') := by
  have hseg := h.seglen (hr (by decide))
  have hchar := h.charlen (hr (by decide))
  have hin := h.inlen (hr (by decide))
  have hnseg := h.nseg (hr (by decide))
  have hchecks : encodeChecks s' = encodeChecks s := by simp only [encodeChecks, h.params, hseg, hchar, hin, hnseg]
  have hinput : loadInput s' = loadInput s := congrArg (orRefuse _) (h.input (hr (by decide)) (hw (by decide)))
  simp only [encodePhase, hchecks, hinput, h.params, hseg, hchar, hnseg, h.loadCodeTables (hw (by decide))
    (hw (by decide))]
  exact sameEnd_bind _ fun _ => sameEnd_bind _ fun _ => sameEnd_bind _ fun _ => sameEnd_bind _ fun bits => .ok <|
    h.update (s.frame_storeStream bits) (s'.frame_storeStream bits) (State.agree_storeStream h.params bits)

theorem decodePhase_sameEnd (h : State.Agree regs wins s s') (hr : readsReg .decode ⊆ regs)
    (hw : readsWin .decode ⊆ wins) :
    SameEnd (State.Agree ([7] ++ regs) ([.omem] ++ wins)) (decodePhase s) (decodePhase s') := by
  have hseg := h.seglen (hr (by decide))
  have hchar := h.charlen (hr (by decide))
  have hnseg := h.nseg (hr (by decide))
  have hchecks : decodeChecks s' = decodeChecks s := by
    simp only [decodeChecks, h.params, hseg, hchar, hnseg, h.bitlen (hr (by decide))]
  have hstream : loadStream s' = loadStream s := congrArg (orRefuse _) (h.stream (hr (by decide)) (hw (by decide)))
  simp only [decodePhase, hchecks, hstream, h.params, hseg, hchar, hnseg, h.loadTrees (hw (by decide))
    (hw (by decide))]
  exact sameEnd_bind _ fun _ => sameEnd_bind _ fun _ => sameEnd_bind _ fun _ => sameEnd_bind _ fun _ =>
    sameEnd_bind _ fun _ => .ok <|
      h.update (s.frame_storeOutput _) (s'.frame_storeOutput _) (State.agree_storeOutput h.params _)

end

/-! ## The end of the commands -/

/-- The two outcomes of command `i` are the same in what R41 lists the command as writing: the same refusal, or the
same STATUS, the same fault position, the same written windows and, on completion, the same written registers. -/
def SameOutcome (i : Instr) (o o' : Host.Outcome State Fault Refusal) : Prop :=
  (∀ r, o = .refused r → o' = .refused r) ∧
    ∀ t, o = .next t → ∃ t', o' = .next t' ∧ t'.status = t.status ∧
      (statusFault t.status = true → t'.errseg = t.errseg ∧ t'.errpos = t.errpos) ∧
      (t.status ≠ statusOfFault .config → ∀ w ∈ writesWin i, SameWindow w t t') ∧
      (t.status = statusOfDone → ∀ n ∈ writesReg i, n ≠ 8 → n ≠ 9 → readReg t' n = readReg t n)

/-- Only `ERR_CONFIG` of a command keeps what the command writes (R151). -/
theorem MayRaise.leavesAll {i : Instr} {e : Raise} (h : MayRaise i e) (hne : e.code ≠ .config) :
    e.code.leavesAll = false := by
  obtain ⟨c, seg, pos⟩ := e
  cases c with
  | config => exact absurd rfl hne
  | badcmd => cases i <;> simp [MayRaise] at h
  | lookup | trunc | capacity | badstream => rfl

theorem sameOutcome_conclude {i : Instr} {regs : List Nat} {wins : List Win} {lose : State → State}
    {r r' : Except Stop State} {s s' : State} (h : SameEnd (State.Agree regs wins) r r')
    (hraise : ∀ e, r = .error (.raise e) → MayRaise i e) (hregs : ∀ n ∈ writesReg i, n ∈ 1 :: 8 :: 9 :: regs)
    (hwins : writesWin i ⊆ wins) (hlose : ∀ w ∈ writesWin i, State.SameData (lose s) (lose s') w) :
    SameOutcome i (conclude lose s r) (conclude lose s' r') := by
  cases h with
  | @ok u u' hu =>
    refine ⟨fun _ he => (by cases he), ?_⟩
    rintro t ⟨⟩
    refine ⟨u'.complete, rfl, rfl, fun hf => absurd hf (show ¬ statusFault statusOfDone = true by decide),
      fun _ w hw a ha => ?_, fun _ n hn h8 h9 => ?_⟩
    · rw [State.element_complete, State.element_complete, hu.win w (hwins hw) a ha]
    · by_cases h1 : n = 1
      · rw [h1]; rfl
      · have hnot : n ∉ [1] := by simpa using h1
        rw [u'.frame_complete.readReg hnot, u.frame_complete.readReg hnot]
        exact hu.reg n (by simpa [h1, h8, h9] using hregs n hn)
  | error e =>
    cases e with
    | refuse e => exact ⟨fun _ he => he, fun _ he => by cases he⟩
    | raise e =>
      refine ⟨fun _ he => (by cases he), ?_⟩
      rintro t ⟨⟩
      refine ⟨_, rfl, rfl, fun _ => ⟨rfl, rfl⟩, fun hne w hw => ?_,
        fun hd => absurd hd (statusOfFault_ne_statusOfDone _)⟩
      have hkeep : e.code.leavesAll = false := (hraise e rfl).leavesAll fun hc => hne (congrArg statusOfFault hc)
      rw [hkeep]
      exact fun a ha => (hlose w hw).sameWindow a ha

theorem exec_sameOutcome {i : Instr} {s s' : State} (h : State.Agree (readsReg i) (readsWin i) s s') :
    SameOutcome i (exec i s) (exec i s') := by
  have hr := List.Subset.refl (readsReg i)
  have hw := List.Subset.refl (readsWin i)
  cases i with
  | nop =>
    exact sameOutcome_conclude (lose := id) (s := s) (s' := s') (.ok h) (fun _ he => by cases he) (by decide)
      (by decide) (by simp [writesWin])
  | count =>
    exact sameOutcome_conclude (countPhase_sameEnd h hr hw) (fun _ => countPhase_raise) (by decide) (by decide)
      (by simp [writesWin, State.SameData])
  | build =>
    exact sameOutcome_conclude (buildPhase_sameEnd h hr hw) (fun _ => buildPhase_raise) (by decide) (by decide)
      (by simp [writesWin, State.SameData])
  | gen =>
    exact sameOutcome_conclude (genPhase_sameEnd h hr hw) (fun _ => genPhase_raise) (by decide) (by decide)
      (by simp [writesWin, State.SameData])
  | buildCodes =>
    exact sameOutcome_conclude (buildCodesPhase_sameEnd h) (fun _ => buildCodesPhase_raise) (by decide) (by decide)
      (by simp [writesWin, State.SameData])
  | encode =>
    exact sameOutcome_conclude (encodePhase_sameEnd h hr hw) (fun _ => encodePhase_raise) (by decide) (by decide)
      (by simp [writesWin, State.SameData])
  | decode =>
    exact sameOutcome_conclude (decodePhase_sameEnd h hr hw) (fun _ => decodePhase_raise) (by decide) (by decide)
      (by simp [writesWin, State.SameData])

/-- Settles O10: each command's pseudocode reads no register and no window but those of R41. -/
theorem commandsReadOnlyTheirOperands : Obligations.CommandsReadOnlyTheirOperands :=
  fun _ _ _ hparams hregs hwins => exec_sameOutcome ⟨hparams, hregs, hwins⟩

end Sys2Proof.Machine
end

section
/-! SUPPORT. A completed command issued again (R180): it leaves the registers and windows it reads, so its pseudocode
comes to what it has already stored. -/

namespace Sys2Proof.Machine

section
variable {s u : State}

theorem countPhase_again (h : countPhase s = .ok u) : countPhase u.complete = .ok u.complete := by
  obtain ⟨hchecks, input, tables, hinput, hcount, rfl⟩ := countPhase_eq_ok.1 h
  exact countPhase_eq_ok.2 ⟨hchecks, input, tables, hinput, hcount, rfl⟩

theorem buildPhase_again (h : buildPhase s = .ok u) : buildPhase u.complete = .ok u.complete := by
  obtain ⟨hcap, tables, hload, rfl⟩ := buildPhase_eq_ok.1 h
  exact buildPhase_eq_ok.2 ⟨hcap, tables, hload, rfl⟩

theorem genPhase_again (h : genPhase s = .ok u) : genPhase u.complete = .ok u.complete := by
  obtain ⟨hcap, trees, hload, rfl⟩ := genPhase_eq_ok.1 h
  exact genPhase_eq_ok.2 ⟨hcap, trees, hload, rfl⟩

/-- Each of the three units finds the operands it had and leaves what it left (R114). -/
theorem buildCodesPhase_again (h : buildCodesPhase s = .ok u) : buildCodesPhase u.complete = .ok u.complete := by
  obtain ⟨v, w, hv, hw, hu⟩ := buildCodesPhase_eq_ok.1 h
  obtain ⟨hchecks, input, counts, hinput, hcount, rfl⟩ := countPhase_eq_ok.1 hv
  obtain ⟨hcap, tables, htables, rfl⟩ := buildPhase_eq_ok.1 hw
  obtain ⟨hcap', trees, htrees, rfl⟩ := genPhase_eq_ok.1 hu
  exact buildCodesPhase_eq_ok.2 ⟨_, _, countPhase_eq_ok.2 ⟨hchecks, input, counts, hinput, hcount, rfl⟩,
    buildPhase_eq_ok.2 ⟨hcap, tables, htables, rfl⟩, genPhase_eq_ok.2 ⟨hcap', trees, htrees, rfl⟩⟩

theorem encodePhase_again (h : encodePhase s = .ok u) : encodePhase u.complete = .ok u.complete := by
  obtain ⟨hchecks, input, tables, bits, hinput, hload, hbits, rfl⟩ := encodePhase_eq_ok.1 h
  exact encodePhase_eq_ok.2 ⟨hchecks, input, tables, bits, hinput, hload, hbits, rfl⟩

theorem decodePhase_again (h : decodePhase s = .ok u) : decodePhase u.complete = .ok u.complete := by
  obtain ⟨hchecks, bits, trees, out, hstream, hload, hout, rfl⟩ := decodePhase_eq_ok.1 h
  exact decodePhase_eq_ok.2 ⟨hchecks, bits, trees, out, hstream, hload, hout, rfl⟩

theorem conclude_again {lose : State → State} {phase : State → Except Stop State} {t : State}
    (hagain : ∀ u, phase s = .ok u → phase u.complete = .ok u.complete) (h : conclude lose s (phase s) = .next t)
    (hdone : t.status = statusOfDone) : conclude lose t (phase t) = .next t := by
  obtain ⟨u, hu, rfl⟩ := conclude_done h hdone
  rw [hagain u hu]
  rfl

end

/-- Settles O12: a completed command left its operands, so its pseudocode computes and stores the same again. -/
theorem commandsAreIdempotent : Obligations.CommandsAreIdempotent := by
  intro i s t h hdone
  cases i with
  | nop => cases h; rfl
  | count => exact conclude_again (fun _ => countPhase_again) h hdone
  | build => exact conclude_again (fun _ => buildPhase_again) h hdone
  | gen => exact conclude_again (fun _ => genPhase_again) h hdone
  | buildCodes => exact conclude_again (fun _ => buildCodesPhase_again) h hdone
  | encode => exact conclude_again (fun _ => encodePhase_again) h hdone
  | decode => exact conclude_again (fun _ => decodePhase_again) h hdone

end Sys2Proof.Machine
end

section
/-! SUPPORT. The record layouts bit for bit (R65 to R69): the lanes of UNITS and the positions of CWBITS, the fields
of a packed record, and that packing and reading a pattern are inverse where the record fits. -/

namespace Sys2Proof.Machine

/-! ## UNITS and CWBITS -/

section
variable {c : Params}

/-- The lanes of a symbol end with its last unit. -/
theorem unitsNat_lt (c : Params) (y : Symbol) : unitsNat c y < 2 ^ (y.length * c.unitW) := by
  induction y with
  | nil => simp [unitsNat]
  | cons u us ih =>
    have hu : unitOf c u < 2 ^ c.unitW := Nat.mod_lt _ (Nat.two_pow_pos _)
    rw [unitsNat, List.length_cons, Nat.succ_mul, Nat.add_comm _ c.unitW, pow_add]
    calc unitOf c u + 2 ^ c.unitW * unitsNat c us
        < 2 ^ c.unitW + 2 ^ c.unitW * unitsNat c us := Nat.add_lt_add_right hu _
      _ = 2 ^ c.unitW * (unitsNat c us + 1) := by ring
      _ ≤ 2 ^ c.unitW * 2 ^ (us.length * c.unitW) := Nat.mul_le_mul_left _ ih

/-- Lane `j` of UNITS holds unit `U[j]`, and 0 above the symbol. -/
theorem unitsNat_lane (c : Params) (y : Symbol) (j : Nat) :
    unitsNat c y / 2 ^ (j * c.unitW) % 2 ^ c.unitW = unitOf c (y.getD j 0) := by
  induction y generalizing j with
  | nil => simp [unitsNat, unitOf]
  | cons u us ih =>
    have hu : unitOf c u < 2 ^ c.unitW := Nat.mod_lt _ (Nat.two_pow_pos _)
    rw [unitsNat]
    cases j with
    | zero => simp [unitOf]
    | succ j =>
      rw [Nat.succ_mul, Nat.add_comm _ c.unitW, pow_add, ← Nat.div_div_eq_div_mul,
        Nat.add_mul_div_left _ _ (Nat.two_pow_pos _), Nat.div_eq_of_lt hu, Nat.zero_add, ih]
      simp

theorem unitsOfNat_unitsNat {y : Symbol} (h : ∀ u ∈ y, unitFits c u = true) :
    unitsOfNat c y.length (unitsNat c y) = y := by
  induction y with
  | nil => rfl
  | cons u us ih =>
    have hu : unitOf c u = u := unitOf_of_fits (h u List.mem_cons_self)
    have hlt : u < 2 ^ c.unitW := hu ▸ Nat.mod_lt _ (Nat.two_pow_pos _)
    rw [unitsNat, List.length_cons, unitsOfNat, hu, Nat.add_mul_div_left _ _ (Nat.two_pow_pos _), Nat.div_eq_of_lt hlt,
      Nat.zero_add, ih fun v hv => h v (List.mem_cons_of_mem _ hv), unitOf, Nat.add_mul_mod_self_left,
      Nat.mod_eq_of_lt hlt]

theorem unitsNat_unitsOfNat {n v : Nat} (h : v < 2 ^ (n * c.unitW)) : unitsNat c (unitsOfNat c n v) = v := by
  induction n generalizing v with
  | zero => simp at h; simp [h, unitsOfNat, unitsNat]
  | succ n ih =>
    have hdiv : v / 2 ^ c.unitW < 2 ^ (n * c.unitW) := by
      rw [Nat.div_lt_iff_lt_mul (Nat.two_pow_pos _), ← pow_add]
      rwa [Nat.succ_mul] at h
    rw [unitsOfNat, unitsNat, ih hdiv, unitOf, unitOf, Nat.mod_mod, Nat.mod_add_div]

theorem codewordNat_lt (bs : List Bool) : codewordNat bs < 2 ^ bs.length := by
  induction bs with
  | nil => simp [codewordNat]
  | cons b bs ih =>
    have hb : b.toNat < 2 := b.toNat_lt
    rw [codewordNat, List.length_cons, pow_succ]
    omega

/-- Position `j` of CWBITS holds bit index `j` of the codeword, and 0 above it. -/
theorem codewordNat_position (bs : List Bool) (j : Nat) : codewordNat bs / 2 ^ j % 2 = (bs.getD j false).toNat := by
  induction bs generalizing j with
  | nil => simp [codewordNat]
  | cons b bs ih =>
    have hb : b.toNat < 2 := b.toNat_lt
    rw [codewordNat]
    cases j with
    | zero => simp; omega
    | succ j =>
      rw [Nat.pow_succ', ← Nat.div_div_eq_div_mul, show (b.toNat + 2 * codewordNat bs) / 2 = codewordNat bs by omega,
        ih]
      simp

theorem codewordOfNat_codewordNat (bs : List Bool) : codewordOfNat bs.length (codewordNat bs) = bs := by
  induction bs with
  | nil => rfl
  | cons b bs ih =>
    have hb : b.toNat < 2 := b.toNat_lt
    rw [codewordNat, List.length_cons, codewordOfNat, show (b.toNat + 2 * codewordNat bs) / 2 = codewordNat bs by omega,
      ih, show (b.toNat + 2 * codewordNat bs) % 2 = b.toNat by omega]
    cases b <;> rfl

theorem codewordNat_codewordOfNat {n v : Nat} (h : v < 2 ^ n) : codewordNat (codewordOfNat n v) = v := by
  induction n generalizing v with
  | zero => simp at h; simp [h, codewordOfNat, codewordNat]
  | succ n ih =>
    rw [codewordOfNat, codewordNat, ih (by omega)]
    by_cases hv : v % 2 = 1 <;> simp [hv] <;> omega

end

/-! ## SLEN and UNITS -/

section
variable {c : Params} {y : Symbol}

/-- A symbol that fits is that of its own fields. -/
theorem symbolOfFields_unitsNat (h : symbolFits c y = true) : symbolOfFields c y.length (unitsNat c y) = some y := by
  obtain ⟨hlen, -, hunits⟩ := symbolFits_iff.1 h
  rw [symbolOfFields, if_pos ⟨hlen, unitsNat_lt c y⟩, unitsOfNat_unitsNat hunits]

/-- The fields of a symbol that was read are the fields it was read from. -/
theorem symbolOfFields_eq_some {slen units : Nat} (h : symbolOfFields c slen units = some y) :
    y.length = slen ∧ unitsNat c y = units := by
  unfold symbolOfFields at h
  split at h
  · obtain rfl := Option.some.inj h
    rename_i hfits
    exact ⟨unitsOfNat_length c slen units, unitsNat_unitsOfNat hfits.2⟩
  · cases h

/-- The lanes of a symbol that fits lie within UNITS (R64). -/
theorem unitsNat_lt_symBits (h : symbolFits c y = true) : unitsNat c y < 2 ^ symBits c := by
  obtain ⟨hlen, -, -⟩ := symbolFits_iff.1 h
  exact (unitsNat_lt c y).trans_le (Nat.pow_le_pow_right two_pos (Nat.mul_le_mul_right _ hlen))

end

/-! ## What a location holds -/

section
variable {α : Type} {width : Nat} {pack : α → Nat} {unpack : Nat → Option α}

theorem storedOf_of_unpack {v : Nat} (hv : v < 2 ^ width) {r : α} (h : unpack v = some r) :
    storedOf width unpack v = .record r := by
  rw [storedOf, Nat.mod_eq_of_lt hv, h]

/-- A location reads back bit for bit where every pattern that is a record is the record's layout. -/
theorem toBits_storedOf (h : ∀ v r, unpack v = some r → pack r = v) {v : Nat} (hv : v < 2 ^ width) :
    (storedOf width unpack v).toBits pack = v := by
  rw [storedOf, Nat.mod_eq_of_lt hv]
  cases hu : unpack v with
  | none => rfl
  | some r => exact h v r hu

end

/-! ## Fields of a pattern -/

theorem div_two_pow_add (v k m : Nat) : v / 2 ^ (k + m) = v / 2 ^ k / 2 ^ m := by
  rw [pow_add, Nat.div_div_eq_div_mul]

theorem lt_two_pow_add_iff {v k m : Nat} : v < 2 ^ (k + m) ↔ v / 2 ^ k < 2 ^ m := by
  rw [Nat.div_lt_iff_lt_mul (Nat.two_pow_pos k), pow_add, Nat.mul_comm]

/-- Where bits `k` on hold UNITS, unit `U[j]` stands in the `UNIT_W` bits from `k + UNIT_W * j` (R66). -/
theorem lane_of_units {c : Params} {y : Symbol} {v k : Nat} (hv : v / 2 ^ k % 2 ^ symBits c = unitsNat c y) {j : Nat}
    (hj : j < c.symW) : v / 2 ^ (k + j * c.unitW) % 2 ^ c.unitW = unitOf c (y.getD j 0) := by
  have hbits : symBits c = j * c.unitW + (c.symW - j) * c.unitW := by
    rw [← Nat.add_mul, Nat.add_sub_cancel' hj.le, symBits]
  have hdvd : 2 ^ c.unitW ∣ 2 ^ ((c.symW - j) * c.unitW) :=
    pow_dvd_pow 2 (Nat.le_mul_of_pos_left _ (Nat.sub_pos_of_lt hj))
  rw [div_two_pow_add, ← unitsNat_lane, ← hv, hbits, pow_add, Nat.mod_mul_right_div_self, Nat.mod_mod_of_dvd _ hdvd]

theorem lane_of_unit {c : Params} {y : Symbol} (h : symbolFits c y = true) {v k : Nat}
    (hv : v / 2 ^ k % 2 ^ symBits c = unitsNat c y) {j : Nat} {u : RawUnit} (hu : y[j]? = some u) :
    v / 2 ^ (k + j * c.unitW) % 2 ^ c.unitW = u := by
  obtain ⟨hlen, -, hunits⟩ := symbolFits_iff.1 h
  have hj : j < y.length := (List.getElem?_eq_some_iff.1 hu).1
  rw [lane_of_units hv (hj.trans_le hlen), List.getD_eq_getElem?_getD, hu, Option.getD_some,
    unitOf_of_fits (hunits u (List.mem_of_getElem? hu))]

/-! ## Frequency-table entries (R65) -/

section
variable {c : Params} {e : FtEntry}

theorem FtEntry.fits_iff : e.fits c = true ↔ e.cnt < 2 ^ 32 ∧ symbolFits c e.sym = true := by
  simp [FtEntry.fits]

/-- CNT, SLEN and UNITS one above the other. -/
theorem packFt_of_fits (h : e.fits c = true) :
    packFt c e = e.cnt + 2 ^ 32 * (e.sym.length + 2 ^ 32 * unitsNat c e.sym) := by
  obtain ⟨hcnt, hsym⟩ := FtEntry.fits_iff.1 h
  obtain ⟨-, hlen, -⟩ := symbolFits_iff.1 hsym
  rw [packFt, Nat.mod_eq_of_lt hcnt, Nat.mod_eq_of_lt hlen, Nat.mod_eq_of_lt (unitsNat_lt_symBits hsym)]

theorem packFt_fields (h : e.fits c = true) :
    packFt c e % 2 ^ 32 = e.cnt ∧ packFt c e / 2 ^ 32 % 2 ^ 32 = e.sym.length ∧
      packFt c e / 2 ^ 64 = unitsNat c e.sym := by
  obtain ⟨hcnt, hsym⟩ := FtEntry.fits_iff.1 h
  obtain ⟨-, hlen, -⟩ := symbolFits_iff.1 hsym
  rw [packFt_of_fits h]
  omega

theorem unpackFt_packFt (h : e.fits c = true) : unpackFt c (packFt c e) = some e := by
  obtain ⟨hcnt, hlen, hunits⟩ := packFt_fields h
  rw [unpackFt, hcnt, hlen, hunits, symbolOfFields_unitsNat (FtEntry.fits_iff.1 h).2]
  rfl

theorem packFt_of_unpackFt {v : Nat} (h : unpackFt c v = some e) : packFt c e = v := by
  rw [packFt_of_fits (FtEntry.fits_of_unpackFt h)]
  obtain ⟨y, hy, rfl⟩ := Option.map_eq_some_iff.1 h
  obtain ⟨hlen, hunits⟩ := symbolOfFields_eq_some hy
  show v % 2 ^ 32 + 2 ^ 32 * (y.length + 2 ^ 32 * unitsNat c y) = v
  rw [hlen, hunits]
  omega

theorem ftOfBits_packFt (h : e.fits c = true) : ftOfBits c (packFt c e) = .record e := by
  obtain ⟨-, -, hunits⟩ := packFt_fields h
  have hlt := lt_two_pow_add_iff.2 (hunits ▸ unitsNat_lt_symBits (FtEntry.fits_iff.1 h).2)
  exact storedOf_of_unpack hlt (unpackFt_packFt h)

end

/-- Settles O3, from the fields of a packed entry and the lanes of UNITS. -/
theorem frequencyEntryLayout : Obligations.FrequencyEntryLayout := by
  refine fun c => ⟨fun e he => ?_, fun v e h => ⟨FtEntry.fits_of_unpackFt h, packFt_of_unpackFt h⟩,
    fun v => toBits_storedOf fun _ _ => packFt_of_unpackFt⟩
  obtain ⟨hcnt, hlen, hunits⟩ := packFt_fields he
  have hsym := (FtEntry.fits_iff.1 he).2
  have hfield : packFt c e / 2 ^ 64 % 2 ^ symBits c = unitsNat c e.sym := by
    rw [hunits, Nat.mod_eq_of_lt (unitsNat_lt_symBits hsym)]
  exact ⟨hcnt, hlen, fun _ _ => lane_of_unit hsym hfield, lt_two_pow_add_iff.2 (hunits ▸ unitsNat_lt c e.sym),
    ftOfBits_packFt he⟩

/-! ## Tree nodes (R67) -/

section
variable {c : Params} {y : Symbol} {l r f : Nat}

theorem TreeNode.leaf_fits_iff : (leaf y f).fits c = true ↔ f < 2 ^ 32 ∧ symbolFits c y = true := by
  simp [TreeNode.fits]

theorem TreeNode.internal_fits_iff : (internal l r f).fits c = true ↔ f < 2 ^ 32 ∧ l < 2 ^ 32 ∧ r < 2 ^ 32 := by
  simp [TreeNode.fits, and_assoc]

/-- TAG, FREQ, SLEN and UNITS one above the other. -/
theorem packNode_leaf_of_fits (h : (TreeNode.leaf y f).fits c = true) :
    packNode c (.leaf y f) = 2 * (f + 2 ^ 32 * (y.length + 2 ^ 32 * unitsNat c y)) := by
  obtain ⟨hf, hsym⟩ := TreeNode.leaf_fits_iff.1 h
  obtain ⟨-, hlen, -⟩ := symbolFits_iff.1 hsym
  rw [packNode, Nat.mod_eq_of_lt hf, Nat.mod_eq_of_lt hlen, Nat.mod_eq_of_lt (unitsNat_lt_symBits hsym)]

theorem packNode_leaf_fields (h : (TreeNode.leaf y f).fits c = true) :
    packNode c (.leaf y f) % 2 = 0 ∧ packNode c (.leaf y f) / 2 % 2 ^ 32 = f ∧
      packNode c (.leaf y f) / 2 ^ 33 % 2 ^ 32 = y.length ∧ packNode c (.leaf y f) / 2 ^ 65 = unitsNat c y := by
  obtain ⟨hf, hsym⟩ := TreeNode.leaf_fits_iff.1 h
  obtain ⟨-, hlen, -⟩ := symbolFits_iff.1 hsym
  rw [packNode_leaf_of_fits h]
  omega

/-- TAG, FREQ, LEFT and RIGHT one above the other. -/
theorem packNode_internal_of_fits (h : (TreeNode.internal l r f).fits c = true) :
    packNode c (.internal l r f) = 1 + 2 * (f + 2 ^ 32 * (l + 2 ^ 32 * r)) := by
  obtain ⟨hf, hl, hr⟩ := TreeNode.internal_fits_iff.1 h
  rw [packNode, Nat.mod_eq_of_lt hf, Nat.mod_eq_of_lt hl, Nat.mod_eq_of_lt hr]

theorem packNode_internal_fields (h : (TreeNode.internal l r f).fits c = true) :
    packNode c (.internal l r f) % 2 = 1 ∧ packNode c (.internal l r f) / 2 % 2 ^ 32 = f ∧
      packNode c (.internal l r f) / 2 ^ 33 % 2 ^ 32 = l ∧ packNode c (.internal l r f) / 2 ^ 65 = r := by
  obtain ⟨hf, hl, hr⟩ := TreeNode.internal_fits_iff.1 h
  rw [packNode_internal_of_fits h]
  omega

theorem unpackNode_packNode {n : TreeNode} (h : n.fits c = true) : unpackNode c (packNode c n) = some n := by
  cases n with
  | leaf y f =>
    obtain ⟨htag, hfreq, hlen, hunits⟩ := packNode_leaf_fields h
    rw [unpackNode, htag, hfreq, hlen, hunits, if_pos rfl, symbolOfFields_unitsNat (TreeNode.leaf_fits_iff.1 h).2]
    rfl
  | internal l r f =>
    obtain ⟨htag, hfreq, hleft, hright⟩ := packNode_internal_fields h
    obtain ⟨-, -, hr⟩ := TreeNode.internal_fits_iff.1 h
    rw [unpackNode, htag, hfreq, hleft, hright, if_neg one_ne_zero, if_pos hr]

theorem packNode_of_unpackNode {v : Nat} {n : TreeNode} (h : unpackNode c v = some n) : packNode c n = v := by
  have hfits := TreeNode.fits_of_unpackNode h
  simp only [unpackNode] at h
  split at h
  · obtain ⟨y, hy, rfl⟩ := Option.map_eq_some_iff.1 h
    obtain ⟨hlen, hunits⟩ := symbolOfFields_eq_some hy
    rw [packNode_leaf_of_fits hfits, hlen, hunits]
    omega
  · split at h
    · obtain rfl := Option.some.inj h
      rw [packNode_internal_of_fits hfits]
      omega
    · cases h

theorem packNode_lt {n : TreeNode} (h : n.fits c = true) : packNode c n < 2 ^ nodeWidth c := by
  refine lt_two_pow_add_iff.2 ?_
  cases n with
  | leaf y f =>
    obtain ⟨-, -, -, hunits⟩ := packNode_leaf_fields h
    rw [hunits]
    exact (unitsNat_lt_symBits (TreeNode.leaf_fits_iff.1 h).2).trans_le
      (Nat.pow_le_pow_right two_pos (Nat.le_max_left ..))
  | internal l r f =>
    obtain ⟨-, -, -, hright⟩ := packNode_internal_fields h
    obtain ⟨-, -, hr⟩ := TreeNode.internal_fits_iff.1 h
    rw [hright]
    exact hr.trans_le (Nat.pow_le_pow_right two_pos (Nat.le_max_right ..))

theorem nodeOfBits_packNode {n : TreeNode} (h : n.fits c = true) : nodeOfBits c (packNode c n) = .record n :=
  storedOf_of_unpack (packNode_lt h) (unpackNode_packNode h)

end

/-- Settles O4, from the fields of a packed Leaf and of a packed Internal node. -/
theorem treeNodeLayout : Obligations.TreeNodeLayout := by
  refine fun c => ⟨fun y f h => ?_, fun l r f => packNode_internal_fields, fun n => nodeOfBits_packNode,
    fun v n h => ⟨TreeNode.fits_of_unpackNode h, packNode_of_unpackNode h⟩,
    fun v => toBits_storedOf fun _ _ => packNode_of_unpackNode⟩
  obtain ⟨htag, hfreq, hlen, hunits⟩ := packNode_leaf_fields h
  have hsym := (TreeNode.leaf_fits_iff.1 h).2
  have hfield : packNode c (.leaf y f) / 2 ^ 65 % 2 ^ symBits c = unitsNat c y := by
    rw [hunits, Nat.mod_eq_of_lt (unitsNat_lt_symBits hsym)]
  exact ⟨htag, hfreq, hlen, fun _ _ => lane_of_unit hsym hfield, lt_two_pow_add_iff.2 (hunits ▸ unitsNat_lt c y)⟩

/-! ## Code-table entries (R68, R69) -/

section
variable {c : Params} {e : CtEntry}

/-- CWLEN, SLEN, UNITS and CWBITS one above the other. -/
theorem packCt_of_fits (h : e.fits c = true) :
    packCt c e = e.cw.length + 2 ^ 32 * (e.sym.length + 2 ^ 32 *
      (unitsNat c e.sym + 2 ^ symBits c * codewordNat e.cw)) := by
  obtain ⟨hmax, hcw, hsym⟩ := CtEntry.fits_iff.1 h
  obtain ⟨-, hlen, -⟩ := symbolFits_iff.1 hsym
  have hbits := (codewordNat_lt e.cw).trans_le (Nat.pow_le_pow_right two_pos hmax)
  rw [packCt, Nat.mod_eq_of_lt hcw, Nat.mod_eq_of_lt hlen, Nat.mod_eq_of_lt (unitsNat_lt_symBits hsym),
    Nat.mod_eq_of_lt hbits]

theorem packCt_fields (h : e.fits c = true) :
    packCt c e % 2 ^ 32 = e.cw.length ∧ packCt c e / 2 ^ 32 % 2 ^ 32 = e.sym.length ∧
      packCt c e / 2 ^ 64 % 2 ^ symBits c = unitsNat c e.sym ∧
      packCt c e / 2 ^ 64 / 2 ^ symBits c = codewordNat e.cw := by
  obtain ⟨-, hcw, hsym⟩ := CtEntry.fits_iff.1 h
  obtain ⟨-, hlen, -⟩ := symbolFits_iff.1 hsym
  have hunits := unitsNat_lt_symBits hsym
  have hhigh : packCt c e / 2 ^ 64 = unitsNat c e.sym + 2 ^ symBits c * codewordNat e.cw := by
    rw [packCt_of_fits h]
    omega
  refine ⟨?_, ?_, ?_, ?_⟩
  · rw [packCt_of_fits h]
    omega
  · rw [packCt_of_fits h]
    omega
  · rw [hhigh, Nat.add_mul_mod_self_left, Nat.mod_eq_of_lt hunits]
  · rw [hhigh, Nat.add_mul_div_left _ _ (Nat.two_pow_pos _), Nat.div_eq_of_lt hunits, Nat.zero_add]

theorem unpackCt_packCt (h : e.fits c = true) : unpackCt c (packCt c e) = some e := by
  obtain ⟨hcw, hlen, hunits, hbits⟩ := packCt_fields h
  obtain ⟨hmax, -, hsym⟩ := CtEntry.fits_iff.1 h
  simp only [unpackCt, hcw, hlen, hunits, hbits]
  rw [if_pos ⟨hmax, codewordNat_lt e.cw⟩, symbolOfFields_unitsNat hsym, codewordOfNat_codewordNat]
  rfl

theorem packCt_of_unpackCt {v : Nat} (h : unpackCt c v = some e) : packCt c e = v := by
  have hfits := CtEntry.fits_of_unpackCt h
  simp only [unpackCt] at h
  split at h
  · rename_i hcw
    obtain ⟨y, hy, rfl⟩ := Option.map_eq_some_iff.1 h
    obtain ⟨hlen, hunits⟩ := symbolOfFields_eq_some hy
    rw [packCt_of_fits hfits, hlen, hunits, codewordNat_codewordOfNat hcw.2, codewordOfNat_length, Nat.mod_add_div]
    omega
  · cases h

theorem packCt_lt (h : e.fits c = true) : packCt c e < 2 ^ (64 + symBits c + e.cw.length) := by
  obtain ⟨-, -, -, hbits⟩ := packCt_fields h
  rw [lt_two_pow_add_iff, div_two_pow_add, hbits]
  exact codewordNat_lt e.cw

theorem ctOfBits_packCt (h : e.fits c = true) : ctOfBits c (packCt c e) = .record e := by
  obtain ⟨hmax, -, -⟩ := CtEntry.fits_iff.1 h
  exact storedOf_of_unpack ((packCt_lt h).trans_le (Nat.pow_le_pow_right two_pos (Nat.add_le_add_left hmax _)))
    (unpackCt_packCt h)

/-- Codeword bit `j` stands at bit `64 + SYMBITS + j` (R69). -/
theorem packCt_codeword_bit (h : e.fits c = true) {j : Nat} {b : Bool} (hb : e.cw[j]? = some b) :
    packCt c e / 2 ^ (64 + symBits c + j) % 2 = b.toNat := by
  obtain ⟨-, -, -, hbits⟩ := packCt_fields h
  rw [div_two_pow_add, div_two_pow_add, hbits, codewordNat_position, List.getD_eq_getElem?_getD, hb, Option.getD_some]

/-- A lane above the symbol is 0 (R66). -/
theorem packCt_unused_lane (h : e.fits c = true) {j : Nat} (hj : e.sym.length ≤ j) (hw : j < c.symW) :
    packCt c e / 2 ^ (64 + j * c.unitW) % 2 ^ c.unitW = 0 := by
  obtain ⟨-, -, hunits, -⟩ := packCt_fields h
  rw [lane_of_units hunits hw, List.getD_eq_default _ _ hj]
  exact Nat.zero_mod _

end

/-- Settles O5, from the fields of a packed entry, the lanes of UNITS and the positions of CWBITS. -/
theorem codeEntryLayout : Obligations.CodeEntryLayout := by
  refine fun c => ⟨fun e he => ?_, fun v e h => ⟨CtEntry.fits_of_unpackCt h, packCt_of_unpackCt h⟩,
    fun v => toBits_storedOf fun _ _ => packCt_of_unpackCt⟩
  obtain ⟨hcw, hlen, hunits, -⟩ := packCt_fields he
  obtain ⟨-, -, hsym⟩ := CtEntry.fits_iff.1 he
  exact ⟨hcw, hlen, fun _ _ => lane_of_unit hsym hunits, fun _ => packCt_unused_lane he,
    fun _ _ => packCt_codeword_bit he, packCt_lt he, ctOfBits_packCt he⟩

end Sys2Proof.Machine
end

section
/-! SUPPORT. The byte view of the stream (R48), bit for bit. -/

namespace Sys2Proof.Machine

/-- A number summed up from its bits, the first at the highest position, has each bit at its position. -/
theorem testBit_sum_bits (f : Nat → Bool) {n j : Nat} (hj : j ≤ n) :
    (((List.range (n + 1)).map fun j => (f j).toNat * 2 ^ (n - j)).sum).testBit (n - j) = f j := by
  induction n with
  | zero => obtain rfl := Nat.le_zero.1 hj; cases h : f 0 <;> simp [h]
  | succ n ih =>
    have hshift : (List.range (n + 1)).map (fun j => (f j).toNat * 2 ^ (n + 1 - j)) =
        (List.range (n + 1)).map (fun j => 2 * ((f j).toNat * 2 ^ (n - j))) := by
      refine List.map_congr_left fun k hk => ?_
      rw [Nat.succ_sub (Nat.lt_succ_iff.1 (List.mem_range.1 hk)), Nat.pow_succ]
      ring
    have hb : (f (n + 1)).toNat < 2 := (f (n + 1)).toNat_lt
    rw [List.range_succ, List.map_append, List.sum_append, hshift, List.sum_map_mul_left, List.map_singleton,
      List.sum_singleton, Nat.sub_self, pow_zero, mul_one]
    rcases hj.eq_or_lt with rfl | hlt
    · rw [Nat.sub_self, Nat.testBit_zero, Nat.mul_add_mod, Nat.mod_eq_of_lt hb]
      cases f (n + 1) <;> rfl
    · rw [Nat.succ_sub (Nat.lt_succ_iff.1 hlt), Nat.testBit_succ, Nat.mul_add_div two_pos, Nat.div_eq_of_lt hb,
        add_zero]
      exact ih (Nat.lt_succ_iff.1 hlt)

/-- Bit `8 B + j` of the stream stands at position `7 - j` of byte `B`; behind the end stands 0. -/
theorem byteAt_getLsbD (bits : List Bool) (B : Nat) {j : Nat} (hj : j < 8) :
    (byteAt bits B).getLsbD (7 - j) = (bits[8 * B + j]?).getD false := by
  have hpos : 7 - j < 8 := by omega
  rw [byteAt, BitVec.getLsbD_ofNat, decide_eq_true hpos, Bool.true_and]
  exact testBit_sum_bits (fun j => (bits[8 * B + j]?).getD false) (Nat.lt_succ_iff.1 hj)

theorem byteAt_getLsbD_index (bits : List Bool) (i : Nat) :
    (byteAt bits (i / 8)).getLsbD (7 - i % 8) = (bits[i]?).getD false := by
  rw [byteAt_getLsbD bits (i / 8) (Nat.mod_lt i (by decide)), Nat.div_add_mod]

theorem bytesOfBits_getElem? (bits : List Bool) (B : Nat) :
    (bytesOfBits bits)[B]? = if B < cdiv bits.length 8 then some (byteAt bits B) else none := by
  rw [bytesOfBits, List.getElem?_map]
  split
  · rw [List.getElem?_range ‹_›, Option.map_some]
  · rename_i hB
    rw [List.getElem?_eq_none (by simpa using hB), Option.map_none]

theorem byte_of_index {bits : List Bool} {i : Nat} (hi : i < bits.length) :
    (bytesOfBits bits)[i / 8]? = some (byteAt bits (i / 8)) := by
  rw [bytesOfBits_getElem?, if_pos ((lt_cdiv_iff (by decide)).2 (by omega))]

theorem bitsOfBytes_bytesOfBits (bits : List Bool) : bitsOfBytes (bytesOfBits bits) bits.length = bits := by
  refine List.ext_getElem (by simp [bitsOfBytes]) fun i _ hi => ?_
  simp [bitsOfBytes, byte_of_index hi, byteAt_getLsbD_index, hi]

/-- Settles O6, from the bits of each byte. -/
theorem byteViewOfTheStream : Obligations.ByteViewOfTheStream := by
  refine fun bits => ⟨by simp [bytesOfBits], fun i b hb => ?_, fun i B hi hB => ?_, bitsOfBytes_bytesOfBits bits⟩
  · refine ⟨_, byte_of_index (List.getElem?_eq_some_iff.1 hb).1, ?_⟩
    rw [byteAt_getLsbD_index, hb, Option.getD_some]
  · rw [bytesOfBits_getElem?] at hB
    split at hB
    · obtain rfl := Option.some.inj hB
      rw [byteAt_getLsbD_index, List.getElem?_eq_none hi, Option.getD_none]
    · cases hB

end Sys2Proof.Machine
end

section
/-! SUPPORT. Memory transactions of the host (R45, R49), what the host may not do (R46), and a core with BUSY = 1
(R176). -/

namespace Sys2Proof.Machine

/-! ## Memory reads -/

section
variable {s : State} {a : WinAddr}

@[simp] theorem State.element_script (s : State) (rest : List HostTxn) (a : WinAddr) :
    State.element { s with script := rest } a = s.element a := by
  cases a <;> rfl

theorem readOrDraw_of_map_some {α : Type} {wrap : α → HostRead} {free : Nat → α} {o : Option α} {v : HostRead}
    (h : o.map wrap = some v) : readOrDraw s wrap free o = { s with reads := v :: s.reads } := by
  obtain ⟨x, rfl, rfl⟩ := Option.map_eq_some_iff.1 h
  rfl

theorem readOrDraw_of_map_none {α : Type} {wrap : α → HostRead} {free : Nat → α} {o : Option α} {P : HostRead → Prop}
    (h : o.map wrap = none) (hfree : ∀ n, P (wrap (free n))) :
    ∃ v, P v ∧ readOrDraw s wrap free o = { s with reads := v :: s.reads, draws := s.draws + 1 } := by
  obtain rfl := Option.map_eq_none_iff.1 h
  exact ⟨_, hfree s.draws, rfl⟩

/-- A location with a value reads as that value. -/
theorem readMem_of_element {v : HostRead} (h : s.element a = some v) :
    readMem s a = { s with reads := v :: s.reads } := by
  cases a <;> rw [readMem] <;> exact readOrDraw_of_map_some h

/-- A location without a value reads as some element of its window (U1). -/
theorem readMem_of_no_element (h : s.element a = none) : ∃ v : HostRead, v.IsElementOf s.params a ∧
    readMem s a = { s with reads := v :: s.reads, draws := s.draws + 1 } := by
  cases a <;> rw [readMem] <;> refine readOrDraw_of_map_none h fun n => ⟨by simp [WinAddr.win, HostRead.windows], ?_⟩
  case imem | omem => exact unitFits_unitOf _ _
  case ftN | treeN | ctN => exact decide_eq_true (BitVec.isLt _)
  case ft => exact Stored.fits_storedOf (fun _ _ => FtEntry.fits_of_unpackFt) _
  case tree => exact Stored.fits_storedOf (fun _ _ => TreeNode.fits_of_unpackNode) _
  case ct => exact Stored.fits_storedOf (fun _ _ => CtEntry.fits_of_unpackCt) _
  case bitmem => rfl

end

/-! ## Memory writes -/

section
variable (s : State) (a : WinAddr)

theorem State.element_write_imem (i : Nat) (v : RawUnit) : State.element { s with imem := Window.write s.imem i v } a =
    if a = .imem i then some (.unit v) else s.element a := by
  cases a <;> simp [State.element, Window.read_write, apply_ite (Option.map HostRead.unit)]

theorem State.element_write_ftN (i v : Nat) :
    State.element { s with ftN := Window.write s.ftN i v } a = if a = .ftN i then some (.count v) else s.element a := by
  cases a <;> simp [State.element, Window.read_write, apply_ite (Option.map HostRead.count)]

theorem State.element_write_ft (i e : Nat) (v : Stored FtEntry) :
    State.element { s with ft := Table.write s.ft i e v } a = if a = .ft i e then some (.ft v) else s.element a := by
  cases a <;> simp [State.element, Table.read_write, apply_ite (Option.map HostRead.ft)]

theorem State.element_write_treeN (i v : Nat) : State.element { s with treeN := Window.write s.treeN i v } a =
    if a = .treeN i then some (.count v) else s.element a := by
  cases a <;> simp [State.element, Window.read_write, apply_ite (Option.map HostRead.count)]

theorem State.element_write_tree (i n : Nat) (v : Stored TreeNode) :
    State.element { s with tree := Table.write s.tree i n v } a =
      if a = .tree i n then some (.node v) else s.element a := by
  cases a <;> simp [State.element, Table.read_write, apply_ite (Option.map HostRead.node)]

theorem State.element_write_ctN (i v : Nat) :
    State.element { s with ctN := Window.write s.ctN i v } a = if a = .ctN i then some (.count v) else s.element a := by
  cases a <;> simp [State.element, Window.read_write, apply_ite (Option.map HostRead.count)]

theorem State.element_write_ct (i e : Nat) (v : Stored CtEntry) :
    State.element { s with ct := Table.write s.ct i e v } a = if a = .ct i e then some (.ct v) else s.element a := by
  cases a <;> simp [State.element, Table.read_write, apply_ite (Option.map HostRead.ct)]

theorem State.element_write_bitmem (b : Nat) (v : Bool) :
    State.element { s with bitmem := Window.write s.bitmem b v } a =
      if a = .bitmem b then some (.bit v) else s.element a := by
  cases a <;> simp [State.element, Window.read_write, apply_ite (Option.map HostRead.bit)]

end

/-- Giving a record that fits by its fields or by the bits of its layout is the same (R65 to R69). -/
theorem WinWrite.value_of_fields (c : Params) :
    (∀ i e v, (WinWrite.ft i e v).value c = .ft (ftOfBits c (packFt c v))) ∧
      (∀ i n v, (WinWrite.tree i n v).value c = .node (nodeOfBits c (packNode c v))) ∧
      ∀ i e v, (WinWrite.ct i e v).value c = .ct (ctOfBits c (packCt c v)) :=
  ⟨fun _ _ _ => congrArg HostRead.ft (ite_eq_right_iff.2 fun h => (ftOfBits_packFt h).symm),
    fun _ _ _ => congrArg HostRead.node (ite_eq_right_iff.2 fun h => (nodeOfBits_packNode h).symm),
    fun _ _ _ => congrArg HostRead.ct (ite_eq_right_iff.2 fun h => (ctOfBits_packCt h).symm)⟩

/-- A memory write puts its value at its location and changes no other. -/
theorem writeMem_element (s : State) {w : WinWrite} (hw : w.addr.win ≠ .omem) (a : WinAddr) :
    (writeMem s w).element a = if a = w.addr then some (w.value s.params) else s.element a := by
  obtain ⟨hft, htree, hct⟩ := WinWrite.value_of_fields s.params
  cases w with
  | imem i v => exact s.element_write_imem a i _
  | ftN i v => exact s.element_write_ftN a i _
  | ft i e v => rw [hft]; exact s.element_write_ft a i e _
  | ftBits i e v => exact s.element_write_ft a i e _
  | treeN i v => exact s.element_write_treeN a i _
  | tree i n v => rw [htree]; exact s.element_write_tree a i n _
  | treeBits i n v => exact s.element_write_tree a i n _
  | ctN i v => exact s.element_write_ctN a i _
  | ct i e v => rw [hct]; exact s.element_write_ct a i e _
  | ctBits i e v => exact s.element_write_ct a i e _
  | bitmem b v => exact s.element_write_bitmem a b v
  | omem i v => exact absurd rfl hw

theorem writeMem_frame (s : State) (w : WinWrite) :
    (∀ n, readReg (writeMem s w) n = readReg s n) ∧ (writeMem s w).script = s.script ∧
      (writeMem s w).reads = s.reads ∧ (writeMem s w).params = s.params ∧ (writeMem s w).draws = s.draws := by
  cases w <;> exact ⟨fun _ => rfl, rfl, rfl, rfl, rfl⟩

theorem writeMem_of_omem (s : State) {w : WinWrite} (h : w.addr.win = .omem) : writeMem s w = s := by
  cases w <;> cases h
  rfl

/-- Settles O52: R45 and R49, the value a location holds after a write being the value written. -/
theorem memoryTransactions : Obligations.MemoryTransactions := by
  refine ⟨fun s a rest h hin => ?_, fun s w rest h hin => ?_⟩
  · have hturn : transact { s with script := rest } (.rdmem a) = .quiet (readMem { s with script := rest } a) :=
      if_pos hin
    refine ⟨fun v hv => step_of_issues_quiet h ?_, fun hnone => ?_⟩
    · rw [hturn, readMem_of_element (v := v) (by simpa using hv)]
    · obtain ⟨v, hv, hread⟩ := readMem_of_no_element (s := { s with script := rest }) (a := a) (by simpa using hnone)
      exact ⟨v, hv, step_of_issues_quiet h (hturn.trans (congrArg _ hread))⟩
  · have hstep : step s = .next (writeMem { s with script := rest } w) := step_of_issues_quiet h (if_pos hin)
    refine ⟨fun homem => hstep.trans (by rw [writeMem_of_omem _ homem]), fun hne => ⟨_, hstep, ?_, fun a ha => ?_, ?_⟩⟩
    · rw [writeMem_element _ hne, if_pos rfl]
    · rw [writeMem_element _ hne, if_neg ha, State.element_script]
    · exact writeMem_frame { s with script := rest } w

/-! ## What the host may not do -/

theorem readReg_of_gt (s : State) {n : Nat} (hn : 15 < n) : readReg s n = none := by
  rw [readReg_eq, if_neg (Nat.not_le.2 hn)]

theorem writeReg_of_gt (s : State) {n : Nat} (v : Word) (hn : 15 < n) : writeReg s n v = none := by
  unfold writeReg
  split
  case h_6 => exact if_neg (Nat.not_le.2 hn)
  all_goals omega

/-- Where an idle core would refuse a transaction, so does a busy one. -/
theorem step_refused_of_transact {s : State} {x : HostTxn} {rest : List HostTxn} {r : Refusal}
    (hs : s.script = x :: rest) (hx : transact { s with script := rest } x = .refuse r) :
    ∃ r', step s = .refused r' ∧ (statusBusy s.status = false → r' = r) := by
  rw [step, hostTurn_cons hs, hx]
  by_cases hb : statusBusy s.status && !allowedWhileBusy x
  · rw [if_pos hb]
    exact ⟨_, rfl, fun hidle => by simp [hidle] at hb⟩
  · rw [if_neg hb]
    exact ⟨r, rfl, fun _ => rfl⟩

/-- Settles O53: R46. -/
theorem outsideTheWindowIsRefused : Obligations.OutsideTheWindowIsRefused := by
  refine fun s x rest hs hx => step_refused_of_transact hs ?_
  cases x with
  | rdreg n => rw [transact_rdreg, readReg_of_gt _ hx]; rfl
  | wrreg n v =>
    obtain ⟨n, rfl⟩ : ∃ k, n = k + 1 := ⟨n - 1, by omega⟩
    rw [transact_wrreg, writeReg_of_gt _ v hx]
    rfl
  | rdmem a => exact if_neg (by simp [hx])
  | wrmem w => exact if_neg (by simp [hx])
  | reset => exact hx.elim

/-! ## A busy core -/

theorem allowedWhileBusy_iff {x : HostTxn} : allowedWhileBusy x = true ↔ x = .rdreg 1 ∨ x = .reset := by
  cases x <;> simp [allowedWhileBusy]

/-- Settles O54: R176. -/
theorem busyCoreAdmitsOnlyStatusAndReset : Obligations.BusyCoreAdmitsOnlyStatusAndReset := by
  intro s x rest hs hbusy
  refine ⟨fun hread hreset => ?_, ?_, ?_⟩
  · have hx : allowedWhileBusy x = false := by
      rw [← Bool.not_eq_true, allowedWhileBusy_iff, not_or]
      exact ⟨hread, hreset⟩
    rw [step, hostTurn_cons hs, hbusy, hx]
    rfl
  · rintro rfl
    rw [step, hostTurn_cons hs, hbusy]
    rfl
  · rintro rfl
    rw [step, hostTurn_cons hs, hbusy]
    exact ⟨_, rfl⟩

end Sys2Proof.Machine
end

section
/-! SUPPORT. The command word (R60, R62, R63): which words encode which command, that the reserved words encode none,
and what the core does with them (R156); NOP, the command of the word 0 (R74). -/

namespace Sys2Proof

/-! ## Which words encode which command -/

/-- The law of each command's word (Laws/PerInstr), for all commands at once. -/
theorem wordFields : ∀ i : Instr, Laws.WordFields.Statement i
  | .nop => Laws.WordFields.nop
  | .count => Laws.WordFields.count
  | .build => Laws.WordFields.build
  | .gen => Laws.WordFields.gen
  | .buildCodes => Laws.WordFields.buildCodes
  | .encode => Laws.WordFields.encode
  | .decode => Laws.WordFields.decode

@[simp] theorem zeroField_encode (i : Instr) : zeroField (encode i) = 0 :=
  let ⟨_, hzero, _⟩ := wordFields i
  hzero

@[simp] theorem opField_encode (i : Instr) : opField (encode i) = opOf i :=
  let ⟨_, _, hop, _⟩ := wordFields i
  hop

theorem encode_toNat_le (i : Instr) : (encode i).toNat ≤ 6 :=
  let ⟨_, _, _, hle, hnat⟩ := wordFields i
  hnat.trans_le hle

@[simp] theorem commandOfOp_opOf (i : Instr) : commandOfOp (opOf i) = .ok i := by cases i <;> rfl

/-- The opcode map has one OP value for each command (R62). -/
theorem commandOfOp_eq_ok {op : BitVec 4} {i : Instr} : commandOfOp op = .ok i ↔ op = opOf i := by
  refine ⟨fun h => ?_, fun h => h ▸ commandOfOp_opOf i⟩
  unfold commandOfOp at h
  split at h <;> cases h
  all_goals exact BitVec.eq_of_toNat_eq ‹_›

/-- A word is its two fields (R60). -/
theorem zeroField_append_opField (w : Word) : zeroField w ++ opField w = w :=
  (BitVec.extractLsb'_append_extractLsb'_eq_extractLsb' rfl).trans BitVec.extractLsb'_eq_self

@[simp] theorem decode_encode (i : Instr) : decode (encode i) = .ok i := by simp [decode]

/-- Each command has its own word and no other (R62). -/
theorem decode_eq_ok {w : Word} {i : Instr} : decode w = .ok i ↔ w = encode i := by
  refine ⟨fun h => ?_, fun h => h ▸ decode_encode i⟩
  rw [decode] at h
  split at h
  case isTrue hzero => rw [encode, ← commandOfOp_eq_ok.1 h, ← hzero, zeroField_append_opField]
  case isFalse => cases h

/-! ## Reserved words -/

/-- A word with a reserved OP or a bit of ZERO set is no command's word (R63). -/
theorem decode_ne_ok_of_reserved {w : Word} (hw : 7 ≤ w.toNat % 16 ∨ 16 ≤ w.toNat) (i : Instr) : decode w ≠ .ok i := by
  intro h
  have hle := encode_toNat_le i
  rw [← decode_eq_ok.1 h] at hle
  omega

theorem decode_eq_error_of_reserved {w : Word} (hw : 7 ≤ w.toNat % 16 ∨ 16 ≤ w.toNat) : ∃ r, decode w = .error r := by
  cases h : decode w with
  | ok i => exact absurd h (decode_ne_ok_of_reserved hw i)
  | error r => exact ⟨r, rfl⟩

/-- Settles O1: R62 and R63, the seven words being the seven encodings. -/
theorem commandWordsOfTheOpcodeMap : Obligations.CommandWordsOfTheOpcodeMap :=
  ⟨decode_encode, fun _ => ⟨decode_eq_ok, decode_eq_ok, decode_eq_ok, decode_eq_ok, decode_eq_ok, decode_eq_ok,
    decode_eq_ok, decode_eq_error_of_reserved⟩⟩

/-- Settles O2: the words of the encoding table, evaluated. -/
theorem wordsWrittenOutDecode : Obligations.WordsWrittenOutDecode := by
  unfold Obligations.WordsWrittenOutDecode
  decide

end Sys2Proof

namespace Sys2Proof.Machine

/-! ## What the core does with a reserved word, and NOP -/

/-- A command write that encodes no command enters the fault `ERR_BADCMD` at (0, 0) (R156). -/
theorem writeCmd_of_decode_error {s : State} {w : Word} {r : DecodeReject} (hfault : statusFault s.status = false)
    (hw : decode w = .error r) : writeCmd s w = .quiet (s.takeFault ⟨.badcmd, 0, 0⟩) := by
  simp [writeCmd, hfault, hw]

/-- Settles O47: R63 and R156. -/
theorem reservedWordIsBadCommand : Obligations.ReservedWordIsBadCommand := by
  intro s w rest h hfault hw
  obtain ⟨r, hr⟩ := decode_eq_error_of_reserved hw
  exact ⟨decode_ne_ok_of_reserved hw, step_of_issues_quiet h (writeCmd_of_decode_error hfault hr)⟩

/-- Settles O14: R74, STATUS being the DONE word. -/
theorem nopOnlySetsDone : Obligations.NopOnlySetsDone := ⟨rfl, fun s => conclude_ok id s s⟩

end Sys2Proof.Machine
end

section
/-! SUPPORT. The Segmenter cuts a list into pieces twice (R76, R77): the input into segments, and each segment into
symbols.  What holds of one cut holds of both. -/

namespace Sys2Proof.Machine

/-! ## One cut -/

section
variable {α : Type} {n : Nat} {xs : List α}

/-- The pieces of a list of `n` elements each, the last one shorter where the length is no multiple of `n`. -/
def pieces (n : Nat) (xs : List α) : List (List α) :=
  (List.range (cdiv xs.length n)).map fun i => (xs.drop (i * n)).take n

@[simp] theorem pieces_length : (pieces n xs).length = cdiv xs.length n := by simp [pieces]

/-- The first `k` pieces are the first `k * n` elements. -/
theorem flatten_map_piece (n : Nat) (xs : List α) (k : Nat) :
    ((List.range k).map fun i => (xs.drop (i * n)).take n).flatten = xs.take (k * n) := by
  induction k with
  | zero => simp
  | succ k ih =>
    rw [List.range_succ, List.map_append, List.flatten_append, ih, Nat.succ_mul, List.take_add]
    simp

theorem flatten_pieces (hn : 1 ≤ n) : (pieces n xs).flatten = xs := by
  rw [pieces, flatten_map_piece, List.take_of_length_le (le_cdiv_mul hn)]

/-- Piece `i` begins at `i * n`; every piece but the last has `n` elements, the last 1 .. n. -/
theorem piece_of_getElem? (hn : 1 ≤ n) {i : Nat} {ys : List α} (h : (pieces n xs)[i]? = some ys) :
    ys = (xs.drop (i * n)).take n ∧ (i + 1 < (pieces n xs).length → ys.length = n) ∧
      1 ≤ ys.length ∧ ys.length ≤ n := by
  obtain ⟨hi, rfl⟩ := List.getElem?_eq_some_iff.1 h
  rw [pieces_length, lt_cdiv_iff hn] at hi
  simp only [pieces, List.getElem_map, List.getElem_range, List.length_take, List.length_drop, List.length_map,
    List.length_range, lt_cdiv_iff hn, Nat.succ_mul, true_and]
  omega

end

/-! ## The Segmenter as two cuts -/

theorem symAt_eq_piece (input : List RawUnit) (p q i j : Nat) :
    symAt input p q i j = (((input.drop (i * p)).take p).drop (j * q)).take q := by
  rw [List.drop_take, List.drop_drop, List.take_take, symAt, symStart, List.take_eq_take_iff, List.length_drop,
    symLen, segLen]
  omega

theorem segSymbols_eq_pieces (input : List RawUnit) (p q i : Nat) :
    segSymbols input p q i = pieces q ((input.drop (i * p)).take p) := by
  rw [segSymbols, pieces, symCount, segLen, List.length_take, List.length_drop]
  exact List.map_congr_left fun j _ => symAt_eq_piece input p q i j

theorem segments_eq_pieces (input : List RawUnit) (p q : Nat) :
    segments input p q = (pieces p input).map (pieces q) := by
  rw [segments, pieces, List.map_map]
  exact List.map_congr_left fun i _ => segSymbols_eq_pieces input p q i

/-- Settles O15: the segments are the pieces of SEGLEN units, and `cdiv` is their least number. -/
theorem segmentsCutTheInput : Obligations.SegmentsCutTheInput := by
  intro input p q hp hq
  rw [segments_eq_pieces, List.length_map, pieces_length]
  refine ⟨le_cdiv_mul hp, fun k => (cdiv_le_iff hp).2, fun i ys h => ?_⟩
  rw [List.getElem?_map, Option.map_eq_some_iff] at h
  obtain ⟨seg, hseg, rfl⟩ := h
  rw [flatten_pieces hq, ← pieces_length]
  exact piece_of_getElem? hp hseg

/-- Settles O16: the symbols of a segment are its pieces of CHARLEN units. -/
theorem symbolsCutTheSegment : Obligations.SymbolsCutTheSegment := by
  intro input p q hp hq ys hys j y hy
  rw [segments_eq_pieces] at hys
  obtain ⟨seg, -, rfl⟩ := List.mem_map.1 hys
  rw [flatten_pieces hq]
  exact ⟨pieces_length, piece_of_getElem? hq hy⟩

/-- Settles O17: joining the pieces of both cuts gives the input back. -/
theorem segmentationCoversTheInputOnce : Obligations.SegmentationCoversTheInputOnce := by
  intro input p q hp hq
  have hjoin : ((pieces p input).map (pieces q)).map List.flatten = pieces p input := by
    rw [List.map_map]
    exact List.map_id'' (fun seg => flatten_pieces hq) _
  refine ⟨by rw [segments_eq_pieces, List.flatten_flatten, hjoin, flatten_pieces hp], fun ys hys => ?_⟩
  obtain ⟨hne, hunits⟩ := ne_nil_of_mem_segments hp hq hys
  exact ⟨hne, fun y hy => List.ne_nil_of_length_pos (hunits y hy)⟩

end Sys2Proof.Machine
end

section
/-! SUPPORT. The capacity faults (R158): the checks before any work, and the symbols, codewords and output units that
do not fit while a command works. -/

namespace Sys2Proof.Machine

/-- A command whose pseudocode comes to a raise ends with its fault (R150). -/
theorem faultsWith_of_raise {i : Instr} {s : State} {lose : State → State} {r : Except Stop State} {e : ErrCode}
    {seg pos : Nat} (h : exec i s = conclude lose s r) (hr : r = .error (.raise ⟨e, seg, pos⟩)) (hseg : seg < 2 ^ 32)
    (hpos : pos < 2 ^ 32) :
    FaultsWith i s e seg pos := by
  rw [hr, conclude_raise] at h
  exact ⟨_, h, rfl, by simpa using Nat.mod_eq_of_lt hseg, by simpa using Nat.mod_eq_of_lt hpos,
    (exec_frame h).keepsUnwritten⟩

/-! ## Pseudocode that raises nothing but `ERR_CAPACITY` -/

/-- Where it stops, it stops with `ERR_CAPACITY` at (0, 0). -/
def OnlyCapacity {α : Type} (r : Except Stop α) : Prop := ∀ x, r = .error x → x = .raise ⟨.capacity, 0, 0⟩

section
variable {α β : Type}

theorem OnlyCapacity.ok (a : α) : OnlyCapacity (.ok a) := fun _ h => by cases h

theorem OnlyCapacity.raiseIf (c : Bool) : OnlyCapacity (raiseIf c .capacity) := fun _ h => (raiseIf_eq_error.1 h).2

theorem OnlyCapacity.bind {x : Except Stop α} (hx : OnlyCapacity x) {f : α → Except Stop β}
    (hf : ∀ a, OnlyCapacity (f a)) : OnlyCapacity (x >>= f) := by
  intro e h
  rcases bind_eq_error.1 h with h | ⟨a, -, h⟩
  · exact hx e h
  · exact hf a e h

theorem OnlyCapacity.traverse {f : α → Except Stop β} (hf : ∀ a, OnlyCapacity (f a)) (as : List α) :
    OnlyCapacity (traverse f as) := by
  intro x h
  obtain ⟨a, -, ha⟩ := traverse_eq_error h
  exact hf a x ha

theorem OnlyCapacity.eq_error {r : Except Stop α} (h : OnlyCapacity r) (hne : ∀ a, r ≠ .ok a) :
    r = .error (.raise ⟨.capacity, 0, 0⟩) := by
  cases hr : r with
  | ok a => exact absurd hr (hne a)
  | error x => rw [h x hr]

end

/-! ## The checks -/

section
variable {s : State}

section
variable (hp : 1 ≤ s.seglen.toNat) (hq : 1 ≤ s.charlen.toNat)
include hp hq

theorem lengths_not_zero : (decide (s.seglen.toNat = 0) || decide (s.charlen.toNat = 0)) = false := by
  simp only [Bool.or_eq_false_iff, decide_eq_false_iff_not]
  omega

theorem countChecks_onlyCapacity : OnlyCapacity (countChecks s) := by
  rw [countChecks, lengths_not_zero hp hq]
  exact .bind (.raiseIf _) fun _ => .bind (.raiseIf _) fun _ => .raiseIf _

theorem encodeChecks_onlyCapacity : OnlyCapacity (encodeChecks s) := by
  rw [encodeChecks, lengths_not_zero hp hq]
  exact .bind (.raiseIf _) fun _ => .bind (.raiseIf _) fun _ => .raiseIf _

theorem decodeChecks_onlyCapacity : OnlyCapacity (decodeChecks s) := by
  rw [decodeChecks, lengths_not_zero hp hq]
  exact .bind (.raiseIf _) fun _ => .raiseIf _

end

/-! ## Commands that come to `ERR_CAPACITY` -/

theorem count_faultsWith_capacity (h : countPhase s = .error (.raise ⟨.capacity, 0, 0⟩)) :
    ∀ i ∈ [Instr.count, .buildCodes], FaultsWith i s .capacity 0 0 := by
  have hcount : FaultsWith .count s .capacity 0 0 :=
    faultsWith_of_raise (lose := State.loseCounts) rfl h (by decide) (by decide)
  have hcodes : FaultsWith .buildCodes s .capacity 0 0 :=
    faultsWith_of_raise (lose := State.loseAllTables) rfl (bind_eq_error.2 (.inl h)) (by decide) (by decide)
  simp [hcount, hcodes]

theorem encode_faultsWith_capacity (h : encodePhase s = .error (.raise ⟨.capacity, 0, 0⟩)) :
    FaultsWith .encode s .capacity 0 0 :=
  faultsWith_of_raise (lose := State.loseStream) rfl h (by decide) (by decide)

theorem decode_faultsWith_capacity (h : decodePhase s = .error (.raise ⟨.capacity, 0, 0⟩)) :
    FaultsWith .decode s .capacity 0 0 :=
  faultsWith_of_raise (lose := State.loseOutput) rfl h (by decide) (by decide)

/-- BUILD and GEN check NSEG first (R90, R105). -/
theorem build_gen_faultsWith_capacity (h : s.params.segCap < s.nseg.toNat) :
    ∀ i ∈ [Instr.build, .gen], FaultsWith i s .capacity 0 0 := by
  have hraise : raiseIf (s.params.segCap < s.nseg.toNat) .capacity = .error (.raise ⟨.capacity, 0, 0⟩) :=
    raiseIf_eq_error.2 ⟨decide_eq_true h, rfl⟩
  have hbuild : FaultsWith .build s .capacity 0 0 :=
    faultsWith_of_raise (lose := State.loseTrees) rfl (bind_eq_error.2 (.inl hraise)) (by decide) (by decide)
  have hgen : FaultsWith .gen s .capacity 0 0 :=
    faultsWith_of_raise (lose := State.loseCodes) rfl (bind_eq_error.2 (.inl hraise)) (by decide) (by decide)
  simp [hbuild, hgen]

end

/-- Settles O21: with both lengths at least 1 the checks of a command raise `ERR_CAPACITY` where they do not pass, and
nothing comes before them. -/
theorem capacityChecksBeforeWork : Obligations.CapacityChecksBeforeWork := by
  refine fun s => ⟨build_gen_faultsWith_capacity, fun hp hq => ?_⟩
  have hcount (h : ¬ countChecks s = .ok ()) : ∀ i ∈ [Instr.count, .buildCodes], FaultsWith i s .capacity 0 0 :=
    count_faultsWith_capacity (bind_eq_error.2 (.inl ((countChecks_onlyCapacity hp hq).eq_error fun _ => h)))
  have hencode (h : ¬ encodeChecks s = .ok ()) : FaultsWith .encode s .capacity 0 0 :=
    encode_faultsWith_capacity (bind_eq_error.2 (.inl ((encodeChecks_onlyCapacity hp hq).eq_error fun _ => h)))
  have hdecode (h : ¬ decodeChecks s = .ok ()) : FaultsWith .decode s .capacity 0 0 :=
    decode_faultsWith_capacity (bind_eq_error.2 (.inl ((decodeChecks_onlyCapacity hp hq).eq_error fun _ => h)))
  rw [countChecks_eq_ok] at hcount
  rw [encodeChecks_eq_ok] at hencode
  rw [decodeChecks_eq_ok] at hdecode
  refine ⟨fun h => ?_, fun h => ?_, fun h₀ h => ?_, fun h => ?_, fun h => ?_⟩
  · exact List.forall_mem_append.2 ⟨hcount (by omega), List.forall_mem_singleton.2 (hencode (by omega))⟩
  · exact hcount fun ⟨_, _, _, hsegs, _⟩ => hsegs.not_gt h
  · exact List.forall_mem_append.2 ⟨hcount (by omega), List.forall_mem_singleton.2 (hencode (by omega))⟩
  · exact List.forall_mem_cons.2 ⟨hencode (by omega), List.forall_mem_singleton.2 (hdecode (by omega))⟩
  · exact hdecode (by omega)

end Sys2Proof.Machine
end

section
/-! SUPPORT. The capacity faults met while working (R82, R121, R131): the pseudocode of each command up to the symbol
that does not fit, whatever follows it. -/

namespace Sys2Proof.Machine

/-! ## COUNT -/

theorem countSegment_nil_onlyCapacity (cap : Nat) (ys : List Symbol) : OnlyCapacity (countSegment cap [] ys) := by
  intro x h
  have heq := countSegment_frequencyTable (seen := []) (Nat.zero_le cap) ys
  rw [show frequencyTable [] = ([] : List FtEntry) from rfl, h] at heq
  split at heq <;> cases heq
  rfl

/-- COUNT raises `ERR_CAPACITY` where a segment has more different symbols than `SYMCAP` (R82). -/
theorem countPhase_of_symbols_over {s : State} {input : List RawUnit} (hp : 1 ≤ s.seglen.toNat)
    (hq : 1 ≤ s.charlen.toNat) (hinput : s.input = some input)
    (hover : ∃ ys ∈ segments input s.seglen.toNat s.charlen.toNat, s.params.symCap < (firstOccurrences ys).length) :
    countPhase s = .error (.raise ⟨.capacity, 0, 0⟩) := by
  have honly : OnlyCapacity (countPhase s) := by
    rw [countPhase, loadInput_eq_ok.2 hinput]
    exact (countChecks_onlyCapacity hp hq).bind fun _ =>
      .bind (.ok input) fun _ => .bind (.traverse (countSegment_nil_onlyCapacity _) _) fun _ => .ok _
  refine honly.eq_error fun t ht => ?_
  obtain ⟨ys, hys, hlt⟩ := hover
  obtain ⟨-, input', tables, hinput', htables, -⟩ := countPhase_eq_ok.1 ht
  cases hinput.symm.trans hinput'
  exact ((traverse_countSegment_eq_ok.1 htables).1 ys hys).not_gt hlt

/-! ## ENCODE -/

section
variable {cap : Nat}

/-- Symbols with entries whose codewords pass `BITCAP` end the segment, whatever symbols follow (R121, R153). -/
theorem encodeSymbols_over {T : List CtEntry} {ys : List Symbol} (h : ∀ y ∈ ys, HasEntry T y) (i j : Nat)
    (rest : List Symbol) {bits : List Bool} (hbits : bits.length ≤ cap)
    (hover : cap < (bits ++ ys.flatMap (codewordOf T)).length) :
    encodeSymbols cap (some T) i j (ys ++ rest) bits = .error (.raise ⟨.capacity, 0, 0⟩) := by
  induction ys generalizing j bits with
  | nil =>
    rw [List.flatMap_nil, List.append_nil] at hover
    exact absurd hbits hover.not_ge
  | cons y ys ih =>
    obtain ⟨hy, hys⟩ := List.forall_mem_cons.1 h
    rw [List.flatMap_cons, ← List.append_assoc] at hover
    simp only [List.cons_append, encodeSymbols, Option.bind_some, lookup_of_hasEntry hy]
    split
    · rfl
    · exact ih hys (j + 1) (by rw [List.length_append]; omega) hover

/-- So do symbols of a later segment, the segments before it having entries too. -/
theorem encodeSegments_over {tables : List (List CtEntry)} {T : Nat → List CtEntry} {i : Nat}
    {pre : List (List Symbol)} {ys : List Symbol} (htables : ∀ k ≤ pre.length, tables[i + k]? = some (T (i + k)))
    (hpre : ∀ k < pre.length, ∀ y ∈ pre.getD k [], HasEntry (T (i + k)) y)
    (hys : ∀ y ∈ ys, HasEntry (T (i + pre.length)) y) (rest : List Symbol) (post : List (List Symbol))
    {bits : List Bool} (hbits : bits.length ≤ cap) (hover : cap < (bits ++ streamOf T i (pre ++ [ys])).length) :
    encodeSegments cap tables i (pre ++ (ys ++ rest) :: post) bits = .error (.raise ⟨.capacity, 0, 0⟩) := by
  have htable : tables[i]? = some (T i) := htables 0 (Nat.zero_le _)
  induction pre generalizing i bits with
  | nil =>
    have hys : ∀ y ∈ ys, HasEntry (T i) y := hys
    rw [List.nil_append, streamOf, streamOf, List.append_nil] at hover
    rw [List.nil_append, encodeSegments, htable, encodeSymbols_over hys i 0 rest hbits hover, error_bind]
  | cons zs pre ih =>
    have hshift (k : Nat) : i + 1 + k = i + (k + 1) := by omega
    have hzs : ∀ y ∈ zs, HasEntry (T i) y := hpre 0 (Nat.succ_pos _)
    rw [List.cons_append, streamOf, ← List.append_assoc] at hover
    rw [List.cons_append, encodeSegments, htable]
    rcases Nat.lt_or_ge cap (bits ++ zs.flatMap (codewordOf (T i))).length with hlt | hle
    · have hsymbols := encodeSymbols_over hzs i 0 [] hbits hlt
      rw [List.append_nil] at hsymbols
      rw [hsymbols, error_bind]
    · rw [encodeSymbols_of_hasEntry hzs i 0 hle, ok_bind]
      refine ih (fun k hk => ?_) (fun k hk => ?_) ?_ hle hover (htables 1 (by simp))
      · rw [hshift]; exact htables (k + 1) (Nat.succ_le_succ hk)
      · rw [hshift]; exact hpre (k + 1) (Nat.succ_lt_succ hk)
      · rwa [hshift]

end

/-- ENCODE with its operands there is the loop over the segments (R121). -/
theorem encodePhase_eq_encodeSegments {s : State} {input : List RawUnit} {tables : Nat → List CtEntry}
    (hready : EncodeReady s input tables) {segs : List (List Symbol)}
    (hsegs : segs = segments input s.seglen.toNat s.charlen.toNat) :
    encodePhase s = (encodeSegments s.params.bitCap ((List.range (min s.nseg.toNat segs.length)).map tables) 0 segs []
      >>= fun bits => .ok (s.storeStream bits)) := by
  obtain ⟨hp, hq, hin, hsegcap, hsym, hinput, htables⟩ := hready
  have hlen : segs.length = cdiv s.inlen.toNat s.seglen.toNat := by
    rw [hsegs, segments_length, State.input_length hinput]
    rfl
  have hchecks : encodeChecks s = .ok () := encodeChecks_eq_ok.2 ⟨by omega, by omega, hin, hsegcap, hsym⟩
  rw [← hlen] at htables
  simp only [encodePhase, hchecks, loadInput_eq_ok.2 hinput, ← hsegs, loadCodeTables_of_ready htables, ok_bind,
    pure_eq_ok]

/-- ENCODE raises `ERR_CAPACITY` where the codewords up to a symbol pass `BITCAP`, each symbol up to it having an
entry (R121, R153). -/
theorem encodePhase_of_stream_over {s : State} {input : List RawUnit} {tables : Nat → List CtEntry}
    (hready : EncodeReady s input tables) {segs : List (List Symbol)}
    (hsegs : segs = segments input s.seglen.toNat s.charlen.toNat) {i j : Nat} {ys : List Symbol}
    (hys : segs[i]? = some ys) (hi : i < s.nseg.toNat)
    (hbefore : ∀ i' < i, ∀ z ∈ segs.getD i' [], HasEntry (tables i') z)
    (hentries : ∀ z ∈ ys.take (j + 1), HasEntry (tables i) z)
    (hover : s.params.bitCap < (streamOf tables 0 (segs.take i ++ [ys.take (j + 1)])).length) :
    encodePhase s = .error (.raise ⟨.capacity, 0, 0⟩) := by
  obtain ⟨hlt, hget⟩ := List.getElem?_eq_some_iff.1 hys
  have hcut : segs = segs.take i ++ (ys.take (j + 1) ++ ys.drop (j + 1)) :: segs.drop (i + 1) := by
    rw [List.take_append_drop, ← hget, List.getElem_cons_drop, List.take_append_drop]
  have hlen : (segs.take i).length = i := List.length_take_of_le hlt.le
  have htables : ∀ k ≤ (segs.take i).length,
      ((List.range (min s.nseg.toNat segs.length)).map tables)[0 + k]? = some (tables (0 + k)) := by
    intro k hk
    have hk : 0 + k < min s.nseg.toNat segs.length := by omega
    rw [List.getElem?_map, List.getElem?_range hk, Option.map_some]
  have hsegments : ∀ k < (segs.take i).length, ∀ z ∈ (segs.take i).getD k [], HasEntry (tables (0 + k)) z := by
    intro k hk z hz
    rw [hlen] at hk
    rw [Nat.zero_add]
    exact hbefore k hk z (by simpa [hk] using hz)
  have hencode := encodeSegments_over htables hsegments (by rwa [hlen, Nat.zero_add]) (ys.drop (j + 1))
    (segs.drop (i + 1)) (bits := []) (Nat.zero_le _) hover
  rw [← hcut] at hencode
  rw [encodePhase_eq_encodeSegments hready hsegs, hencode, error_bind]

/-! ## DECODE -/

section
variable {outCap : Nat}

/-- Symbols of the tree whose units pass `OUTCAP` end the segment, whatever bits follow (R131). -/
theorem decodeSegment_over {ns : List TreeNode} {es : List CtEntry} (hes : ∀ e ∈ es, e ∈ genTable ns) (i : Nat)
    (last : Bool) (more cnt : Nat) (rest : List Bool) {out : List RawUnit} (hout : out.length ≤ outCap)
    (hover : outCap < (out ++ es.flatMap CtEntry.sym).length) :
    decodeSegment outCap ns i last (es.length + more) cnt (es.flatMap CtEntry.cw ++ rest) out =
      .error (.raise ⟨.capacity, 0, 0⟩) := by
  induction es generalizing cnt out with
  | nil =>
    rw [List.flatMap_nil, List.append_nil] at hover
    exact absurd hout hover.not_ge
  | cons e es ih =>
    obtain ⟨he, hes⟩ := List.forall_mem_cons.1 hes
    rw [List.flatMap_cons, ← List.append_assoc] at hover
    rw [List.length_cons, Nat.add_right_comm, List.flatMap_cons, List.append_assoc]
    rcases Nat.lt_or_ge outCap (out ++ e.sym).length with hlt | hle
    · have hbits : (e.cw ++ (es.flatMap CtEntry.cw ++ rest)).isEmpty = false := by simp [cw_ne_nil_of_mem_genTable he]
      have hraise : decide (outCap < out.length + List.length e.sym) = true := by
        rw [List.length_append] at hlt
        exact decide_eq_true hlt
      simp [decodeSegment, hbits, decodeSymbol_of_mem_genTable he, hraise]
    · rw [decodeSegment_symbol he i last _ cnt _ hle]
      exact ih hes (cnt + 1) hle hover

/-- So do symbols of full segments and a last one, each of its own tree, whatever trees follow. -/
theorem decodeSegments_over {cap i : Nat} {trees : List (List TreeNode)} {segs : List (List CtEntry)}
    (hcode : List.Forall₂ (fun ns es => ∀ e ∈ es, e ∈ genTable ns) trees segs)
    (hlen : ∀ k < segs.length, (k + 1 < segs.length → (segs.getD k []).length = cap) ∧ (segs.getD k []).length ≤ cap)
    (post : List (List TreeNode)) (rest : List Bool) {out : List RawUnit} (hout : out.length ≤ outCap)
    (hover : outCap < (out ++ unitsOf segs).length) :
    decodeSegments outCap cap i (trees ++ post) (bitsOf segs ++ rest) out = .error (.raise ⟨.capacity, 0, 0⟩) := by
  induction hcode generalizing i out with
  | nil => exact absurd hout (by simpa [unitsOf] using hover)
  | @cons ns es trees segs hes hcode ih =>
    obtain ⟨hfull, hle⟩ := hlen 0 (Nat.succ_pos _)
    rw [List.getD_cons_zero] at hfull hle
    rw [unitsOf_cons, ← List.append_assoc] at hover
    rw [List.cons_append, decodeSegments, bitsOf_cons, List.append_assoc]
    rcases Nat.lt_or_ge outCap (out ++ es.flatMap CtEntry.sym).length with hlt | hfits
    · have hseg := decodeSegment_over hes i (trees ++ post).isEmpty (cap - es.length) 0 (bitsOf segs ++ rest) hout hlt
      rw [Nat.add_sub_cancel' hle] at hseg
      rw [hseg, error_bind]
    · have hnext : segs ≠ [] := by
        rintro rfl
        exact hfits.not_gt (by simpa [unitsOf] using hover)
      have hfull : es.length = cap := hfull (by simpa using List.length_pos_of_ne_nil hnext)
      have hseg := decodeSegment_append hes i (trees ++ post).isEmpty 0 0 (bitsOf segs ++ rest) hfits
      rw [decodeSegment_end (.inl rfl), Nat.add_zero, hfull] at hseg
      rw [hseg, ok_bind]
      exact ih (fun k hk => by simpa using hlen (k + 1) (Nat.succ_lt_succ hk)) hfits hover

end

/-- DECODE with its operands there is the loop over the segments and the check of the bits left (R131, R138). -/
theorem decodePhase_eq_decodeSegments {s : State} {bits : List Bool} {trees : Nat → List TreeNode}
    (hready : DecodeReady s bits trees) : decodePhase s =
      (decodeSegments s.params.outCap (fullCount s) 0 ((List.range s.nseg.toNat).map trees) bits [] >>= fun r =>
        checkTrailing s.nseg.toNat r.1 >>= fun _ => .ok (s.storeOutput r.2)) := by
  obtain ⟨hp, hq, ⟨hsegs, htrees⟩, hbits, hstream⟩ := hready
  have hchecks : decodeChecks s = .ok () := decodeChecks_eq_ok.2 ⟨by omega, by omega, hsegs, hbits⟩
  simp only [decodePhase, hchecks, loadStream_eq_ok.2 hstream, loadTrees_of_ready htrees, ok_bind, List.length_map,
    List.length_range, pure_eq_ok, fullCount]

/-- DECODE raises `ERR_CAPACITY` where the units of the first symbols of the stream pass `OUTCAP` (R131). -/
theorem decodePhase_of_units_over {s : State} {trees : Nat → List TreeNode} {full : List (List CtEntry)}
    {es : List CtEntry} {rest : List Bool} (hready : DecodeReady s (bitsOf (full ++ [es]) ++ rest) trees)
    (hnseg : full.length < s.nseg.toNat) (hcode : FromTrees trees (full ++ [es]))
    (hfull : ∀ i < full.length, (full.getD i []).length = fullCount s) (hlast : es.length ≤ fullCount s)
    (hover : s.params.outCap < (unitsOf (full ++ [es])).length) :
    decodePhase s = .error (.raise ⟨.capacity, 0, 0⟩) := by
  have hlen : ∀ k < (full ++ [es]).length, (k + 1 < (full ++ [es]).length →
      ((full ++ [es]).getD k []).length = fullCount s) ∧ ((full ++ [es]).getD k []).length ≤ fullCount s := by
    intro k hk
    rw [List.length_append, List.length_singleton] at hk ⊢
    rcases Nat.lt_succ_iff_lt_or_eq.1 hk with hlt | rfl
    · rw [List.getD_append _ _ _ _ hlt, hfull k hlt]
      exact ⟨fun _ => rfl, le_rfl⟩
    · exact ⟨fun h => absurd h (Nat.lt_irrefl _), by simpa using hlast⟩
  obtain ⟨more, hmore⟩ : ∃ more, s.nseg.toNat = (full ++ [es]).length + more :=
    Nat.exists_eq_add_of_le (by simpa using hnseg)
  rw [decodePhase_eq_decodeSegments hready, hmore, List.range_add, List.map_append,
    decodeSegments_over (forall₂_of_fromTrees hcode) hlen _ rest (Nat.zero_le _) hover, error_bind]

/-- Settles O22: whatever follows the symbol that does not fit is not worked on. -/
theorem capacityFaultsWhileWorking : Obligations.CapacityFaultsWhileWorking := by
  refine ⟨fun s input hp hq hinput hover => count_faultsWith_capacity (countPhase_of_symbols_over hp hq hinput hover),
    fun s input tables segs i j ys hready hsegs hys _ hi hbefore hentries hover =>
      encode_faultsWith_capacity (encodePhase_of_stream_over hready hsegs hys hi hbefore hentries hover), ?_⟩
  rintro s bits trees full es rest hready hnseg hcode hfull hlast rfl hover
  exact decode_faultsWith_capacity (decodePhase_of_units_over hready hnseg hcode hfull hlast hover)

end Sys2Proof.Machine
end

section
/-! SUPPORT. What makes a command refuse its operands (U1, U4, log 6): after the checks each phase loads its operands,
and an operand without a value or without a well-formed table ends it there. -/

namespace Sys2Proof.Machine

/-- The pseudocode comes to a refusal. -/
def Refuses {α : Type} (r : Except Stop α) : Prop := ∃ x, r = .error (.refuse x)

section
variable {α β : Type} {x : Except Stop α} {f : α → Except Stop β}

theorem refuses_of_ne (hok : ∀ a, x ≠ .ok a) (hraise : ∀ e, x ≠ .error (.raise e)) : Refuses x := by
  rcases x with (e | r) | a
  · exact absurd rfl (hraise e)
  · exact ⟨r, rfl⟩
  · exact absurd rfl (hok a)

theorem Refuses.bind (h : Refuses x) (f : α → Except Stop β) : Refuses (x >>= f) := by
  obtain ⟨r, rfl⟩ := h
  exact ⟨r, rfl⟩

theorem refuses_ok_bind {a : α} (hx : x = .ok a) (h : Refuses (f a)) : Refuses (x >>= f) := by
  subst hx
  exact h

end

theorem refuses_orRefuse_none {α : Type} (r : Refusal) {o : Option α} (h : o = none) : Refuses (orRefuse r o) := by
  subst h
  exact ⟨r, rfl⟩

theorem Refuses.refused_conclude {r : Except Stop State} (h : Refuses r) (lose : State → State) (s : State) :
    ∃ x, conclude lose s r = .refused x := h.imp fun _ => conclude_eq_refused.2

/-- The operands of segments `0 .. k - 1` are refused where one of them has no value or is not well-formed. -/
theorem refuses_traverse_loadTable {α : Type} (w : Win) {get : Nat → Option (List (Stored α))} {ok : List α → Bool}
    {j k : Nat} (hj : j < k) (h : ∀ t, (get j).bind recordsOf = some t → ok t = false) :
    Refuses (traverse (loadTable w get ok) (List.range k)) := by
  refine refuses_of_ne (fun ts hts => ?_) fun e => traverse_loadTable_ne_raise
  obtain ⟨hlen, hload⟩ := traverse_range_eq_ok.1 hts
  obtain ⟨hget, hok⟩ := loadTable_eq_ok.1 (hload j (hlen ▸ hj))
  rw [h _ hget] at hok
  cases hok

section
variable {s : State}

theorem buildPhase_refuses (hcap : s.nseg.toNat ≤ s.params.segCap)
    (h : ∃ j < s.nseg.toNat, ∀ T, s.freqTable j = some T → wfFt s.params T = false) : Refuses (buildPhase s) := by
  obtain ⟨j, hj, hbad⟩ := h
  exact refuses_ok_bind (a := ()) (raiseIf_eq_ok.2 (by simpa using hcap)) ((refuses_traverse_loadTable .ft hj hbad).bind _)

theorem genPhase_refuses (hcap : s.nseg.toNat ≤ s.params.segCap)
    (h : ∃ j < s.nseg.toNat, ∀ ns, s.arena j = some ns → wfTree s.params ns = false) : Refuses (genPhase s) := by
  obtain ⟨j, hj, hbad⟩ := h
  exact refuses_ok_bind (a := ()) (raiseIf_eq_ok.2 (by simpa using hcap)) ((refuses_traverse_loadTable .tree hj hbad).bind _)

theorem countPhase_refuses (hchecks : countChecks s = .ok ()) (h : s.input = none) : Refuses (countPhase s) :=
  refuses_ok_bind hchecks ((refuses_orRefuse_none _ h).bind _)

theorem buildCodesPhase_refuses (hchecks : countChecks s = .ok ()) (h : s.input = none) :
    Refuses (buildCodesPhase s) := (countPhase_refuses hchecks h).bind _

theorem encodePhase_refuses (hchecks : encodeChecks s = .ok ())
    (h : s.input = none ∨ ∃ j < min s.nseg.toNat (cdiv s.inlen.toNat s.seglen.toNat),
      ∀ T, s.codeTable j = some T → wfCt s.params T = false) : Refuses (encodePhase s) := by
  refine refuses_ok_bind hchecks ?_
  cases hinput : s.input with
  | none => exact (refuses_orRefuse_none _ hinput).bind _
  | some input =>
    obtain ⟨j, hj, hbad⟩ := h.resolve_left (by simp [hinput])
    rw [← State.input_length hinput, ← segCount, ← segments_length input _ s.charlen.toNat] at hj
    exact refuses_ok_bind (loadInput_eq_ok.2 hinput) ((refuses_traverse_loadTable .ct hj hbad).bind _)

theorem decodePhase_refuses (hchecks : decodeChecks s = .ok ())
    (h : s.stream = none ∨ ∃ j < s.nseg.toNat, ∀ ns, s.arena j = some ns → wfTree s.params ns = false) :
    Refuses (decodePhase s) := by
  refine refuses_ok_bind hchecks ?_
  cases hstream : s.stream with
  | none => exact (refuses_orRefuse_none _ hstream).bind _
  | some bits =>
    obtain ⟨j, hj, hbad⟩ := h.resolve_left (by simp [hstream])
    exact refuses_ok_bind (loadStream_eq_ok.2 hstream) ((refuses_traverse_loadTable .tree hj hbad).bind _)

end

/-- Settles O45: the operands are loaded after the checks and before any work, so where one has no meaning the
pseudocode comes to a refusal, and so the command. -/
theorem commandsRefuseOperandsWithoutMeaning : Obligations.CommandsRefuseOperandsWithoutMeaning := by
  intro s
  refine ⟨fun hcap h => (buildPhase_refuses hcap h).refused_conclude _ s,
    fun hcap h => (genPhase_refuses hcap h).refused_conclude _ s, fun hchecks h i hi => ?_,
    fun hchecks h => (encodePhase_refuses hchecks h).refused_conclude _ s,
    fun hchecks h => (decodePhase_refuses hchecks h).refused_conclude _ s⟩
  rcases List.mem_pair.1 hi with rfl | rfl
  · exact (countPhase_refuses hchecks h).refused_conclude _ s
  · exact (buildCodesPhase_refuses hchecks h).refused_conclude _ s

end Sys2Proof.Machine
end

section
/-! SUPPORT. The order in which `build_tree` merges (R92, R94): `extract_min` takes the lowest node of the queue, the
queue is the nodes that wait, and a node made later changes nothing about the merges before it. -/

namespace Sys2Proof.Machine

/-! ## The queue order -/

section
variable {ns : List TreeNode} {x y z : Nat}

theorem before_iff : before ns x y = true ↔
    freqAt ns x < freqAt ns y ∨ (freqAt ns x = freqAt ns y ∧ x < y) := by
  simp [before]

theorem not_before_trans (hxy : ¬ before ns x y = true) (hyz : ¬ before ns y z = true) : ¬ before ns x z = true := by
  rw [before_iff] at *
  omega

/-- The queue order is total. -/
theorem before_of_not_before (h : ¬ before ns y x = true) (hne : y ≠ x) : before ns x y = true := by
  rw [before_iff] at *
  omega

theorem not_before_firstOf {pq : List Nat} (hy : y ∈ x :: pq) : ¬ before ns y (firstOf ns x pq) = true := by
  induction pq generalizing x y with
  | nil => simp [List.mem_singleton.1 hy, firstOf, before]
  | cons z pq ih =>
    have hfirst := ih (x := if before ns z x then z else x) List.mem_cons_self
    rw [firstOf]
    rcases List.mem_cons.1 hy with rfl | hy
    · refine not_before_trans ?_ hfirst
      split <;> simp_all [before_iff]; omega
    rcases List.mem_cons.1 hy with rfl | hy
    · refine not_before_trans ?_ hfirst
      split <;> simp_all [before_iff]
    · exact ih (List.mem_cons_of_mem _ hy)

/-- `extract_min` takes the node before all others (R92). -/
theorem before_of_extractMin {pq pq' : List Nat} {a : Nat} (h : extractMin ns pq = some (a, pq')) (hy : y ∈ pq)
    (hne : y ≠ a) : before ns a y = true := by
  cases pq with
  | nil => cases hy
  | cons x pq =>
    cases h
    exact before_of_not_before (not_before_firstOf hy) hne

end

/-! ## Arenas that agree on their first nodes -/

section
variable {ns ms : List TreeNode} {n m x : Nat}

theorem waiting_append (h : n + m ≤ ns.length) : Waiting (ns ++ ms) n m x ↔ Waiting ns n m x := by
  unfold Waiting
  refine and_congr_right fun _ => forall_congr' fun j => forall_congr' fun node => imp_congr_right fun hj => ?_
  rw [List.getElem?_append_left (hj.trans_le h)]

/-- The nodes that wait are the nodes without a parent. -/
theorem waiting_iff_parentCount (h : n + m = ns.length) :
    Waiting ns n m x ↔ x < ns.length ∧ parentCount ns x = 0 := by
  rw [Waiting, h, parentCount, List.countP_eq_zero]
  refine and_congr_right fun _ => ⟨fun hw node hn => ?_, fun hw j node _ hj => ?_⟩
  · obtain ⟨j, hj⟩ := List.getElem?_of_mem hn
    simp [hw j node (List.getElem?_eq_some_iff.1 hj).1 hj]
  · simpa using hw node (List.mem_of_getElem? hj)

/-- The queue is the nodes that wait. -/
theorem Merging.waiting_iff {T : List FtEntry} {pq : List Nat} (h : Merging T ns pq) (hm : n + m = ns.length) :
    Waiting ns n m x ↔ x ∈ pq := by
  rw [waiting_iff_parentCount hm, h.parents]
  have := h.queue x
  by_cases hx : x ∈ pq <;> simp_all

end

/-! ## Merges -/

/-- Before merge `m` the lowest node that waits is `a`, the next lowest `b` (R94). -/
structure LowestTwo (ns : List TreeNode) (n m a b : Nat) : Prop where
  first : Waiting ns n m a
  second : Waiting ns n m b
  lt : before ns a b = true
  rest : ∀ x, Waiting ns n m x → x ≠ a → x ≠ b → before ns b x = true

/-- Merge `m` made its node from the two lowest nodes that waited (R94). -/
def MergedLowest (ns : List TreeNode) (n m : Nat) : Prop :=
  ∃ a b, ns[n + m]? = some (.internal b a (freqAt ns a + freqAt ns b)) ∧ LowestTwo ns n m a b

section
variable {T : List FtEntry} {ns ms : List TreeNode} {n m a b : Nat} {pq : List Nat}

theorem LowestTwo.append (h : LowestTwo ns n m a b) (hm : n + m ≤ ns.length) : LowestTwo (ns ++ ms) n m a b := by
  have hbefore : ∀ x y, Waiting ns n m x → Waiting ns n m y → before (ns ++ ms) x y = before ns x y := by
    intro x y hx hy
    rw [before, before, freqAt_append_of_lt (hx.1.trans_le hm), freqAt_append_of_lt (hy.1.trans_le hm)]
  have hwait : ∀ x, Waiting (ns ++ ms) n m x ↔ Waiting ns n m x := fun x => waiting_append hm
  constructor
  case first => exact (hwait a).2 h.first
  case second => exact (hwait b).2 h.second
  case lt => rw [hbefore a b h.first h.second, h.lt]
  case rest =>
    intro x hx hxa hxb
    have hx := (hwait x).1 hx
    rw [hbefore b x h.second hx, h.rest x hx hxa hxb]

theorem MergedLowest.append (h : MergedLowest ns n m) : MergedLowest (ns ++ ms) n m := by
  obtain ⟨a, b, hnode, hlow⟩ := h
  have hlt := (List.getElem?_eq_some_iff.1 hnode).1
  refine ⟨a, b, ?_, hlow.append hlt.le⟩
  rw [List.getElem?_append_left hlt, hnode, freqAt_append_of_lt (hlow.first.1.trans hlt),
    freqAt_append_of_lt (hlow.second.1.trans hlt)]

/-- The first two nodes taken out of the queue are the two lowest that wait. -/
theorem Merging.lowestTwo (h : Merging T ns pq) (hm : n + m = ns.length) {pq₁ pq₂ : List Nat}
    (ha : extractMin ns pq = some (a, pq₁)) (hb : extractMin ns pq₁ = some (b, pq₂)) : LowestTwo ns n m a b := by
  obtain ⟨ma, rfl⟩ := extractMin_eq_some ha
  obtain ⟨mb, -⟩ := extractMin_eq_some hb
  have hmem : ∀ x, x ∈ pq.erase a ↔ x ≠ a ∧ x ∈ pq := fun x => h.nodup.mem_erase_iff
  have hba := (hmem b).1 mb
  constructor
  case first => exact (h.waiting_iff hm).2 ma
  case second => exact (h.waiting_iff hm).2 hba.2
  case lt => exact before_of_extractMin ha hba.2 hba.1
  case rest =>
    intro x hx hxa hxb
    exact before_of_extractMin hb ((hmem x).2 ⟨hxa, (h.waiting_iff hm).1 hx⟩) hxb

/-- The state of `build_tree` in which all merges so far took the two lowest nodes that waited. -/
structure MergingLowest (T : List FtEntry) (ns : List TreeNode) (pq : List Nat) : Prop where
  merging : Merging T ns pq
  merged : ∀ m, T.length + m < ns.length → MergedLowest ns T.length m

theorem mergingLowest_seedLeaves (ne : T ≠ []) : MergingLowest T (seedLeaves T) (List.range T.length) where
  merging := merging_seedLeaves ne
  merged := fun m hm => by simp at hm

theorem MergingLowest.merge (h : MergingLowest T ns pq) {pq₁ pq₂ : List Nat} (ha : extractMin ns pq = some (a, pq₁))
    (hb : extractMin ns pq₁ = some (b, pq₂)) :
    MergingLowest T (ns ++ [.internal b a (freqAt ns a + freqAt ns b)]) (pq₂ ++ [ns.length]) where
  merging := h.merging.merge ha hb
  merged := by
    intro m hm
    rw [List.length_append, List.length_singleton, Nat.lt_succ_iff_lt_or_eq] at hm
    rcases hm with hm | hm
    · exact (h.merged m hm).append
    · have hlow := h.merging.lowestTwo hm ha hb
      refine ⟨a, b, ?_, hlow.append hm.le⟩
      rw [freqAt_append_of_lt (hm ▸ hlow.first.1), freqAt_append_of_lt (hm ▸ hlow.second.1), hm]
      exact List.getElem?_concat_length

/-- Every merge of `build_tree` takes the two lowest nodes that wait. -/
theorem mergedLowest_buildTree (hm : m + 1 < T.length) : MergedLowest (buildTree T) T.length m := by
  have ne : T ≠ [] := List.ne_nil_of_length_pos (by omega)
  obtain ⟨x, hx⟩ := mergeLoop_induction (P := MergingLowest T) (fun _ _ _ _ _ _ h ha hb => h.merge ha hb)
    (mergingLowest_seedLeaves ne) (by simpa using ne) (List.length_range (n := T.length)).le
  have hlen := buildTree_length ne
  exact hx.merged m (show T.length + m < (buildTree T).length by omega)

end

/-! ## BUILD -/

/-- The nodes from `n` on are Internal (R94). -/
theorem buildTree_getElem?_internal {T : List FtEntry} (ne : T ≠ []) {x : Nat} (hx : T.length ≤ x)
    (hlt : x < (buildTree T).length) : ∃ l r f, (buildTree T)[x]? = some (.internal l r f) := by
  obtain ⟨ms, hns, hms⟩ := (merging_buildTree ne).leaves
  obtain ⟨n, hnode⟩ : ∃ n, (buildTree T)[x]? = some n := ⟨_, List.getElem?_eq_getElem hlt⟩
  have hmem : n ∈ ms := by
    rw [hns, List.getElem?_append_right (by simpa using hx)] at hnode
    exact List.mem_of_getElem? hnode
  cases n with
  | leaf y f => cases hms _ hmem
  | internal l r f => exact ⟨l, r, f, hnode⟩

/-- Settles O24: `build_tree` seeds a Leaf for each entry and adds an Internal node for each merge. -/
theorem treesHaveTheirLeavesFirst : Obligations.TreesHaveTheirLeavesFirst := by
  intro T ne
  have hlen := buildTree_length ne
  refine ⟨by omega, fun _ _ => buildTree_getElem?_of_entry, fun x hx hlt => ?_⟩
  obtain ⟨l, r, f, hnode⟩ := buildTree_getElem?_internal ne hx (by omega)
  exact ⟨l, r, f, hnode, children_lt (merging_buildTree ne).below hnode⟩

/-- Settles O25: every merge took the two lowest of the nodes that waited. -/
theorem mergesTakeTheTwoLowest : Obligations.MergesTakeTheTwoLowest := by
  intro T m hm
  obtain ⟨a, b, hnode, hlow⟩ := mergedLowest_buildTree hm
  have hab := before_iff.1 hlow.lt
  refine ⟨a, b, hnode, by rintro rfl; omega, hlow.first, hlow.second, by omega, fun x hx hxa => ?_,
    fun x hx hxa hxb => before_iff.1 (hlow.rest x hx hxa hxb)⟩
  by_cases hxb : x = b
  · exact hxb ▸ hab
  · have hbx := before_iff.1 (hlow.rest x hx hxa hxb)
    omega

end Sys2Proof.Machine
end

section
/-! SUPPORT. Codeword lengths that meet Kraft's inequality, and what a merge does to them: of any such lengths one can
give the two lowest weights the two greatest lengths, make these equal and take the two as one, and the cost falls by
at least the two weights (general knowledge G1). -/

namespace Sys2Proof.Machine

/-! ## Codes in which no codeword begins another meet Kraft's inequality -/

/-- The Kraft sum of the codeword lengths `l` over the index set `S`. -/
noncomputable def kraftSum (S : Finset Nat) (l : Nat → Nat) : ℝ := ∑ x ∈ S, (1 / 2) ^ l x

theorem uniquelyDecodable_of_prefixFree {α : Type} {S : Set (List α)} (hne : [] ∉ S)
    (hprefix : ∀ v ∈ S, ∀ w ∈ S, v <+: w → v = w) : InformationTheory.UniquelyDecodable S := by
  intro us
  induction us with
  | nil =>
    rintro (_ | ⟨w, ws⟩) - hws h
    · rfl
    · exact absurd (hws w List.mem_cons_self) (by simp_all)
  | cons v us ih =>
    rintro (_ | ⟨w, ws⟩) hus hws h
    · exact absurd (hus v List.mem_cons_self) (by simp_all)
    · rw [List.forall_mem_cons] at hus hws
      have hvw : v = w := by
        rw [List.flatten_cons, List.flatten_cons] at h
        rcases List.prefix_or_prefix_of_prefix (List.prefix_append v _) (h ▸ List.prefix_append w _) with hp | hp
        · exact hprefix v hus.1 w hws.1 hp
        · exact (hprefix w hws.1 v hus.1 hp).symm
      subst hvw
      rw [ih ws hus.2 hws.2 (by simpa using h)]

theorem kraftSum_le_one_of_prefixFree {S : Finset Nat} {cw : Nat → List Bool} (hne : ∀ i ∈ S, cw i ≠ [])
    (hprefix : ∀ i ∈ S, ∀ j ∈ S, cw i <+: cw j → i = j) :
    kraftSum S (fun i => (cw i).length) ≤ 1 := by
  have hdecodable : InformationTheory.UniquelyDecodable (S.image cw : Set (List Bool)) := by
    refine uniquelyDecodable_of_prefixFree (by simpa using hne) ?_
    simp only [Finset.coe_image, Set.forall_mem_image, Finset.mem_coe]
    exact fun i hi j hj h => by rw [hprefix i hi j hj h]
  have hkraft := InformationTheory.kraft_mcmillan_inequality hdecodable
  rw [Finset.sum_image fun i hi j hj h => hprefix i hi j hj (List.prefix_iff_eq_take.2 (by simp [h]))] at hkraft
  simpa [kraftSum] using hkraft

/-! ## Exchanging two lengths -/

section
variable {S : Finset Nat} {w l : Nat → Nat} {x y : Nat}

/-- The total of weight times length. -/
def weightedLength (S : Finset Nat) (w l : Nat → Nat) : Nat := ∑ x ∈ S, w x * l x

theorem kraftSum_swap (hx : x ∈ S) (hy : y ∈ S) : kraftSum S (l ∘ Equiv.swap x y) = kraftSum S l :=
  Equiv.Perm.sum_comp (Equiv.swap x y) S (fun z => (1 / 2 : ℝ) ^ l z) fun z hz => by
    rcases Equiv.swap_apply_ne_self_iff.1 hz with ⟨-, rfl | rfl⟩ <;> assumption

theorem kraftSum_erase (hx : x ∈ S) : kraftSum S l = (1 / 2) ^ l x + kraftSum (S.erase x) l :=
  (Finset.add_sum_erase S _ hx).symm

theorem kraftSum_congr {l' : Nat → Nat} (hl : ∀ x ∈ S, l x = l' x) : kraftSum S l = kraftSum S l' :=
  Finset.sum_congr rfl fun x hx => by rw [hl x hx]

theorem kraftSum_nonneg : 0 ≤ kraftSum S l := Finset.sum_nonneg fun _ _ => by positivity

theorem weightedLength_erase (hx : x ∈ S) : weightedLength S w l = w x * l x + weightedLength (S.erase x) w l :=
  (Finset.add_sum_erase S _ hx).symm

theorem weightedLength_congr {w' l' : Nat → Nat} (hw : ∀ x ∈ S, w x = w' x) (hl : ∀ x ∈ S, l x = l' x) :
    weightedLength S w l = weightedLength S w' l' :=
  Finset.sum_congr rfl fun x hx => by rw [hw x hx, hl x hx]

theorem weightedLength_swap (hx : x ∈ S) (hy : y ∈ S) (hne : x ≠ y) :
    weightedLength S w (l ∘ Equiv.swap x y) + (w x * l x + w y * l y) =
      weightedLength S w l + (w x * l y + w y * l x) := by
  have hy' : y ∈ S.erase x := Finset.mem_erase.2 ⟨hne.symm, hy⟩
  have hrest : weightedLength ((S.erase x).erase y) w (l ∘ Equiv.swap x y) =
      weightedLength ((S.erase x).erase y) w l := by
    refine weightedLength_congr (fun _ _ => rfl) fun z hz => ?_
    simp only [Finset.mem_erase] at hz
    rw [Function.comp_apply, Equiv.swap_apply_of_ne_of_ne hz.2.1 hz.1]
  rw [weightedLength_erase hx, weightedLength_erase hy', weightedLength_erase hx, weightedLength_erase hy', hrest]
  simp only [Function.comp_apply, Equiv.swap_apply_left, Equiv.swap_apply_right]
  omega

theorem weightedLength_swap_le (hx : x ∈ S) (hy : y ∈ S) (hw : w x ≤ w y) (hl : l x ≤ l y) :
    weightedLength S w (l ∘ Equiv.swap x y) ≤ weightedLength S w l := by
  rcases eq_or_ne x y with rfl | hne
  · simp
  · have hswap := weightedLength_swap (w := w) (l := l) hx hy hne
    have := mul_add_mul_le_mul_add_mul hw hl
    omega

theorem weightedLength_swap_lt (hx : x ∈ S) (hy : y ∈ S) (hw : w x < w y) (hl : l x < l y) :
    weightedLength S w (l ∘ Equiv.swap x y) < weightedLength S w l := by
  have hswap := weightedLength_swap (w := w) (l := l) hx hy (by rintro rfl; exact hw.false)
  have := mul_add_mul_lt_mul_add_mul hw hl
  omega

end

/-! ## One index more -/

section
variable {R : Finset Nat} {w w' l : Nat → Nat} {c k : Nat} (hc : c ∉ R)
include hc

theorem kraftSum_insert : kraftSum (insert c R) (Function.update l c k) = (1 / 2) ^ k + kraftSum R l := by
  rw [kraftSum_erase (Finset.mem_insert_self c R), Finset.erase_insert hc, Function.update_self,
    kraftSum_congr fun x hx => Function.update_of_ne (ne_of_mem_of_not_mem hx hc) k l]

theorem weightedLength_insert (hw : ∀ x ∈ R, w' x = w x) :
    weightedLength (insert c R) w' (Function.update l c k) = w' c * k + weightedLength R w l := by
  rw [weightedLength_erase (Finset.mem_insert_self c R), Finset.erase_insert hc, Function.update_self,
    weightedLength_congr hw fun x hx => Function.update_of_ne (ne_of_mem_of_not_mem hx hc) k l]

end

/-! ## Merging the two lowest weights -/

section
variable {S : Finset Nat} {w l : Nat → Nat} {a b : Nat}

/-- Lengths of at most `M` that leave some room leave room for a codeword of length `M`: their Kraft sum is a multiple
of `2 ^ -M`. -/
theorem kraftSum_add_le_one {M : Nat} (hM : ∀ x ∈ S, l x ≤ M) (h : kraftSum S l < 1) :
    kraftSum S l + (1 / 2) ^ M ≤ 1 := by
  have hone : (2 : ℝ) ^ M * (1 / 2) ^ M = 1 := by rw [← mul_pow]; norm_num
  have hscale : kraftSum S l = ((∑ x ∈ S, 2 ^ (M - l x) : Nat) : ℝ) * (1 / 2) ^ M := by
    rw [kraftSum, Nat.cast_sum, Finset.sum_mul]
    refine Finset.sum_congr rfl fun x hx => ?_
    obtain ⟨k, rfl⟩ := Nat.exists_eq_add_of_le' (hM x hx)
    rw [Nat.add_sub_cancel, pow_add, ← mul_assoc, Nat.cast_pow, ← mul_pow]
    norm_num
  rw [hscale] at h ⊢
  have hlt : ∑ x ∈ S, 2 ^ (M - l x) < 2 ^ M := by
    exact_mod_cast lt_of_mul_lt_mul_right (h.trans_eq hone.symm) (by positivity)
  have hle : ((∑ x ∈ S, 2 ^ (M - l x) : Nat) : ℝ) + 1 ≤ 2 ^ M := by exact_mod_cast hlt
  calc _ = (((∑ x ∈ S, 2 ^ (M - l x) : Nat) : ℝ) + 1) * (1 / 2) ^ M := by rw [add_mul, one_mul]
    _ ≤ 2 ^ M * (1 / 2) ^ M := mul_le_mul_of_nonneg_right hle (by positivity)
    _ = 1 := hone

/-- An exchange gives the lowest weight the greatest length. -/
theorem exists_swap_longest (ha : a ∈ S) (hlow : ∀ x ∈ S, w a ≤ w x) (l : Nat → Nat) :
    ∃ p ∈ S, weightedLength S w (l ∘ Equiv.swap a p) ≤ weightedLength S w l ∧
      ∀ x ∈ S, (l ∘ Equiv.swap a p) x ≤ l p := by
  obtain ⟨p, hp, hmax⟩ := Finset.exists_max_image S l ⟨a, ha⟩
  refine ⟨p, hp, weightedLength_swap_le ha hp (hlow p hp) (hmax a ha), fun x hx => hmax _ ?_⟩
  rcases eq_or_ne x a with rfl | hxa
  · rwa [Equiv.swap_apply_left]
  rcases eq_or_ne x p with rfl | hxp
  · rwa [Equiv.swap_apply_right]
  · rwa [Equiv.swap_apply_of_ne_of_ne hxa hxp]

/-- The step of the optimality proof: lengths for the two lowest weights `a` and `b` and the rest give lengths for the
rest and one more, `k`, for the sum of the two weights, at a cost less by this sum. -/
theorem exists_merged_lengths (ha : a ∈ S) (hb : b ∈ S.erase a) (hlowa : ∀ x ∈ S, w a ≤ w x)
    (hlowb : ∀ x ∈ S.erase a, w b ≤ w x) (h : kraftSum S l ≤ 1) :
    ∃ l' k, kraftSum ((S.erase a).erase b) l' + (1 / 2) ^ k ≤ 1 ∧
      weightedLength ((S.erase a).erase b) w l' + (w a + w b) * k + (w a + w b) ≤ weightedLength S w l := by
  obtain ⟨p, hp, hcost₁, hmax₁⟩ := exists_swap_longest ha hlowa l
  rw [← kraftSum_swap ha hp, kraftSum_erase ha] at h
  rw [weightedLength_erase ha] at hcost₁
  have hl₁a : (l ∘ Equiv.swap a p) a = l p := by rw [Function.comp_apply, Equiv.swap_apply_left]
  rw [hl₁a] at h hcost₁
  generalize l ∘ Equiv.swap a p = l₁ at *
  obtain ⟨q, hq, hcost₂, hmax₂⟩ := exists_swap_longest hb hlowb l₁
  have hl₂b : (l₁ ∘ Equiv.swap b q) b = l₁ q := by rw [Function.comp_apply, Equiv.swap_apply_left]
  have hqp := hmax₁ q (Finset.mem_of_mem_erase hq)
  have hroom : kraftSum (S.erase a) (l₁ ∘ Equiv.swap b q) < 1 := by
    rw [kraftSum_swap hb hq]
    exact (lt_add_of_pos_left _ (by positivity)).trans_le h
  have hkraft := kraftSum_add_le_one hmax₂ hroom
  rw [kraftSum_erase hb, hl₂b] at hkraft
  rw [weightedLength_erase hb, hl₂b] at hcost₂
  have hrest := kraftSum_nonneg (S := (S.erase a).erase b) (l := l₁ ∘ Equiv.swap b q)
  cases hM : l₁ q with
  | zero =>
    rw [hM] at hkraft
    norm_num at hkraft
    linarith
  | succ k =>
    rw [hM] at hkraft hcost₂ hqp
    refine ⟨l₁ ∘ Equiv.swap b q, k, ?_, ?_⟩
    · rw [pow_succ] at hkraft
      linarith
    · have := Nat.mul_le_mul_left (w a) hqp
      rw [Nat.mul_succ] at this hcost₂
      rw [Nat.add_mul]
      omega

end

end Sys2Proof.Machine
end

section
/-! SUPPORT. The cost of a built tree, the sum of its merges' frequencies, against any lengths that meet Kraft's
inequality: each merge takes from both alike, so no lengths cost less (R98, general knowledge G1). -/

namespace Sys2Proof.Machine

/-! ## The merges against any lengths -/

/-- The frequency a merge adds to the cost of the tree: that of an Internal node. -/
def TreeNode.mergeFreq : TreeNode → Nat
  | .leaf _ _ => 0
  | .internal _ _ f => f

/-- The cost of a tree: the sum of the frequencies of its Internal nodes. -/
def mergeCost (ns : List TreeNode) : Nat := (ns.map TreeNode.mergeFreq).sum

/-- The state of `build_tree` in which some lengths for the nodes of the queue that meet Kraft's inequality cost, with
the merges so far, at most `C`. -/
structure MergingWithin (T : List FtEntry) (C : Nat) (ns : List TreeNode) (pq : List Nat) : Prop where
  merging : Merging T ns pq
  lengths : ∃ l, kraftSum pq.toFinset l ≤ 1 ∧ weightedLength pq.toFinset (freqAt ns) l + mergeCost ns ≤ C

section
variable {T : List FtEntry} {ns : List TreeNode} {pq : List Nat}

theorem mergeCost_seedLeaves (T : List FtEntry) : mergeCost (seedLeaves T) = 0 := by
  simp [mergeCost, seedLeaves, Function.comp_def, TreeNode.mergeFreq]

theorem mergeCost_append (ns : List TreeNode) (n : TreeNode) : mergeCost (ns ++ [n]) = mergeCost ns + n.mergeFreq := by
  simp [mergeCost]

theorem freqAt_le_of_extractMin {pq' : List Nat} {a x : Nat} (h : extractMin ns pq = some (a, pq')) (hx : x ∈ pq) :
    freqAt ns a ≤ freqAt ns x := by
  rcases eq_or_ne x a with rfl | hne
  · exact le_rfl
  · have := before_iff.1 (before_of_extractMin h hx hne)
    omega

theorem toFinset_erase_of_nodup (h : pq.Nodup) (a : Nat) : (pq.erase a).toFinset = pq.toFinset.erase a := by
  ext x
  simp [h.mem_erase_iff]

/-- A merge keeps the cost: the new node counts what its children count, one bit nearer to the root. -/
theorem MergingWithin.merge {C a b : Nat} (h : MergingWithin T C ns pq) {pq₁ pq₂ : List Nat}
    (ha : extractMin ns pq = some (a, pq₁)) (hb : extractMin ns pq₁ = some (b, pq₂)) :
    MergingWithin T C (ns ++ [.internal b a (freqAt ns a + freqAt ns b)]) (pq₂ ++ [ns.length]) := by
  refine ⟨h.merging.merge ha hb, ?_⟩
  obtain ⟨⟨l, hkraft, hcost⟩, hnodup⟩ := h.lengths, h.merging.nodup
  obtain ⟨ma, rfl⟩ := extractMin_eq_some ha
  obtain ⟨mb, rfl⟩ := extractMin_eq_some hb
  have hset := toFinset_erase_of_nodup hnodup a
  obtain ⟨l', k, hkraft', hcost'⟩ := exists_merged_lengths (w := freqAt ns) (List.mem_toFinset.2 ma)
    (hset ▸ List.mem_toFinset.2 mb) (fun x hx => freqAt_le_of_extractMin ha (List.mem_toFinset.1 hx))
    (fun x hx => freqAt_le_of_extractMin hb (List.mem_toFinset.1 (hset ▸ hx))) hkraft
  have hqueue : ((pq.erase a).erase b ++ [ns.length]).toFinset =
      insert ns.length ((pq.toFinset.erase a).erase b) := by
    rw [← hset, ← toFinset_erase_of_nodup (hnodup.erase a)]
    ext x
    simp
  have hlt : ∀ x ∈ (pq.toFinset.erase a).erase b, x < ns.length := fun x hx =>
    h.merging.queue x (List.mem_toFinset.1 (Finset.mem_of_mem_erase (Finset.mem_of_mem_erase hx)))
  have hnew : ns.length ∉ (pq.toFinset.erase a).erase b := fun hx => (hlt _ hx).false
  refine ⟨Function.update l' ns.length k, ?_, ?_⟩
  · rw [hqueue, kraftSum_insert hnew, add_comm]
    exact hkraft'
  · rw [hqueue, weightedLength_insert (w := freqAt ns) hnew fun x hx => freqAt_append_of_lt (hlt x hx),
      freqAt_append_length, mergeCost_append]
    simp only [TreeNode.freq, TreeNode.mergeFreq]
    omega

theorem mergingWithin_seedLeaves (ne : T ≠ []) {l : Nat → Nat} (h : kraftSum (Finset.range T.length) l ≤ 1) :
    MergingWithin T (weightedLength (Finset.range T.length) (freqAt (seedLeaves T)) l) (seedLeaves T)
      (List.range T.length) where
  merging := merging_seedLeaves ne
  lengths := by
    rw [List.toFinset_range, mergeCost_seedLeaves]
    exact ⟨l, h, le_rfl⟩

/-- A built tree costs no more than any lengths for its leaves that meet Kraft's inequality. -/
theorem mergeCost_buildTree_le (ne : T ≠ []) {l : Nat → Nat} (h : kraftSum (Finset.range T.length) l ≤ 1) :
    mergeCost (buildTree T) ≤ weightedLength (Finset.range T.length) (freqAt (seedLeaves T)) l := by
  obtain ⟨x, -, l', -, hcost⟩ := mergeLoop_induction (P := MergingWithin T _) (fun _ _ _ _ _ _ h ha hb => h.merge ha hb)
    (mergingWithin_seedLeaves ne h) (by simpa using ne) (List.length_range (n := T.length)).le
  exact (Nat.le_add_left _ _).trans hcost

end

end Sys2Proof.Machine
end

section
/-! SUPPORT. The code of a built tree: the codewords below a node are those below its children with one bit more, so
count times codeword length adds up to the cost of the tree. -/

namespace Sys2Proof.Machine

/-! ## The codewords below a node -/

/-- The entry with bits put in front of its codeword. -/
def CtEntry.prepend (path : List Bool) (e : CtEntry) : CtEntry := ⟨e.sym, path ++ e.cw⟩

section
variable {ns : List TreeNode}

/-- What stands before the path to a node stands before every path below it. -/
theorem visit_append (fuel x : Nat) (u v : List Bool) :
    visit ns fuel x (u ++ v) = (visit ns fuel x v).map (CtEntry.prepend u) := by
  induction fuel generalizing x v with
  | zero => rfl
  | succ fuel ih =>
    cases hn : ns[x]? with
    | none => rw [visit_none hn, visit_none hn, List.map_nil]
    | some n =>
      cases n with
      | leaf y f => rw [visit_leaf hn, visit_leaf hn]; rfl
      | internal l r f =>
        rw [visit_internal hn, visit_internal hn, List.append_assoc, List.append_assoc, ih, ih, List.map_append]

/-- The traversal does not depend on how much the bound exceeds the node. -/
theorem visit_congr (h : childrenBelowFrom 0 ns = true) {x fuel fuel' : Nat} (path : List Bool) (hx : x < fuel)
    (hx' : x < fuel') : visit ns fuel x path = visit ns fuel' x path := by
  induction fuel generalizing x fuel' path with
  | zero => omega
  | succ fuel ih =>
    obtain ⟨fuel', rfl⟩ : ∃ k, fuel' = k + 1 := ⟨fuel' - 1, by omega⟩
    cases hn : ns[x]? with
    | none => rw [visit_none hn, visit_none hn]
    | some n =>
      cases n with
      | leaf y f => rw [visit_leaf hn, visit_leaf hn]
      | internal l r f =>
        obtain ⟨hl, hr, -⟩ := children_lt h hn
        rw [visit_internal hn, visit_internal hn, ih _ (by omega) (fuel' := fuel') (by omega),
          ih _ (by omega) (fuel' := fuel') (by omega)]

/-- The symbols below node `x`, each with the path to it from `x`. -/
def codesBelow (ns : List TreeNode) (x : Nat) : List CtEntry := visit ns (x + 1) x []

theorem codesBelow_leaf {x : Nat} {y : Symbol} {f : Nat} (hx : ns[x]? = some (.leaf y f)) :
    codesBelow ns x = [⟨y, []⟩] := visit_leaf hx []

theorem codesBelow_internal (h : childrenBelowFrom 0 ns = true) {x l r f : Nat}
    (hx : ns[x]? = some (.internal l r f)) : codesBelow ns x =
      (codesBelow ns l).map (CtEntry.prepend [false]) ++ (codesBelow ns r).map (CtEntry.prepend [true]) := by
  obtain ⟨hl, hr, -⟩ := children_lt h hx
  rw [codesBelow, visit_internal hx, codesBelow, codesBelow, ← visit_append, ← visit_append,
    visit_congr h _ hl l.lt_succ_self, visit_congr h _ hr r.lt_succ_self, List.nil_append, List.append_nil,
    List.nil_append, List.append_nil]

/-! ## Their weights -/

/-- The total weight of the entries. -/
def totalWeight (g : Symbol → Nat) (es : List CtEntry) : Nat := (es.map fun e => g e.sym).sum

/-- The total of weight times codeword length. -/
def totalLength (g : Symbol → Nat) (es : List CtEntry) : Nat := (es.map fun e => g e.sym * e.cw.length).sum

theorem totalWeight_prepend (g : Symbol → Nat) (path : List Bool) (es : List CtEntry) :
    totalWeight g (es.map (CtEntry.prepend path)) = totalWeight g es := by
  rw [totalWeight, List.map_map]
  rfl

theorem totalLength_prepend (g : Symbol → Nat) (path : List Bool) (es : List CtEntry) :
    totalLength g (es.map (CtEntry.prepend path)) = totalWeight g es * path.length + totalLength g es := by
  induction es with
  | nil => simp [totalWeight, totalLength]
  | cons e es ih =>
    simp only [totalLength, totalWeight, List.map_cons, List.sum_cons, CtEntry.prepend, List.length_append,
      Nat.mul_add, Nat.add_mul] at ih ⊢
    omega

theorem totalWeight_append (g : Symbol → Nat) (es es' : List CtEntry) :
    totalWeight g (es ++ es') = totalWeight g es + totalWeight g es' := by simp [totalWeight]

theorem totalLength_append (g : Symbol → Nat) (es es' : List CtEntry) :
    totalLength g (es ++ es') = totalLength g es + totalLength g es' := by simp [totalLength]

end

/-! ## The code of a built tree -/

/-- The count a table gives a symbol, 0 where it gives none. -/
def countOf (T : List FtEntry) (y : Symbol) : Nat := ((T.find? fun e => e.sym = y).map FtEntry.cnt).getD 0

theorem countOf_sym {T : List FtEntry} (h : (T.map FtEntry.sym).Nodup) {e : FtEntry} (he : e ∈ T) :
    countOf T e.sym = e.cnt := by
  induction T with
  | nil => cases he
  | cons d T ih =>
    obtain ⟨hd, hT⟩ := List.nodup_cons.1 h
    rcases List.mem_cons.1 he with rfl | he
    · simp [countOf]
    · have hne : d.sym ≠ e.sym := fun heq => hd (heq ▸ List.mem_map_of_mem he)
      have := ih hT he
      simpa [countOf, hne] using this

theorem codewordOf_sym {C : List CtEntry} (h : (C.map CtEntry.sym).Nodup) {e : CtEntry} (he : e ∈ C) :
    codewordOf C e.sym = e.cw := by
  induction C with
  | nil => cases he
  | cons d C ih =>
    obtain ⟨hd, hC⟩ := List.nodup_cons.1 h
    rcases List.mem_cons.1 he with rfl | he
    · simp [codewordOf]
    · have hne : d.sym ≠ e.sym := fun heq => hd (heq ▸ List.mem_map_of_mem he)
      have := ih hC he
      simpa [codewordOf, hne] using this

section
variable {c : Params} {T : List FtEntry} (h : wfFt c T = true)
include h

theorem nodup_sym_of_wfFt : (T.map FtEntry.sym).Nodup := by
  obtain ⟨-, -, hdistinct, -⟩ := wfFt_iff.1 h
  exact distinct_iff_nodup.1 hdistinct

theorem genTable_buildTree_perm : ((genTable (buildTree T)).map CtEntry.sym).Perm (T.map FtEntry.sym) := by
  obtain ⟨ne, -⟩ := wfFt_iff.1 h
  exact leafSymbols_buildTree ne ▸ genTable_map_sym_perm (wfTree_buildTree h)

/-- A Leaf of a built tree holds the count of its symbol. -/
theorem freq_of_leaf_buildTree {x : Nat} {y : Symbol} {f : Nat} (hx : (buildTree T)[x]? = some (.leaf y f)) :
    f = countOf T y := by
  obtain ⟨ne, -⟩ := wfFt_iff.1 h
  have hlt : x < T.length := by
    by_contra hge
    obtain ⟨l, r, g, hinternal⟩ := buildTree_getElem?_internal ne (not_lt.1 hge) (List.getElem?_eq_some_iff.1 hx).1
    rw [hx] at hinternal
    cases hinternal
  have hentry := buildTree_getElem?_of_entry (List.getElem?_eq_getElem hlt)
  rw [hx] at hentry
  cases hentry
  exact (countOf_sym (nodup_sym_of_wfFt h) (List.getElem_mem hlt)).symm

/-- A node of a built tree counts the symbols below it. -/
theorem totalWeight_codesBelow {x : Nat} (hx : x < (buildTree T).length) :
    totalWeight (countOf T) (codesBelow (buildTree T) x) = freqAt (buildTree T) x := by
  obtain ⟨ne, -⟩ := wfFt_iff.1 h
  have hbelow := (merging_buildTree ne).below
  induction x using Nat.strong_induction_on with
  | _ x ih =>
    obtain ⟨n, hn⟩ : ∃ n, (buildTree T)[x]? = some n := ⟨_, List.getElem?_eq_getElem hx⟩
    have hfreq : freqAt (buildTree T) x = n.freq := by simp [freqAt, hn]
    cases n with
    | leaf y f => rw [codesBelow_leaf hn, hfreq, TreeNode.freq, freq_of_leaf_buildTree h hn]; simp [totalWeight]
    | internal l r f =>
      obtain ⟨hl, hr, -⟩ := children_lt hbelow hn
      rw [codesBelow_internal hbelow hn, totalWeight_append, totalWeight_prepend, totalWeight_prepend,
        ih l hl (hl.trans hx), ih r hr (hr.trans hx), hfreq, TreeNode.freq]
      exact ((wfFreq_iff.1 (wfFreq_buildTree h)).2 l r f (List.mem_of_getElem? hn)).symm

/-- Count times codeword length adds up, over the symbols, to the cost of the tree. -/
theorem totalLength_root : totalLength (countOf T) (codesBelow (buildTree T) ((buildTree T).length - 1)) =
    mergeCost (buildTree T) := by
  obtain ⟨ne, -⟩ := wfFt_iff.1 h
  have hbelow := (merging_buildTree ne).below
  refine weight_root (wfTree_buildTree h) (w := fun x => totalLength (countOf T) (codesBelow (buildTree T) x))
    fun x n hn => ?_
  cases n with
  | leaf y f => simp [codesBelow_leaf hn, totalLength, TreeNode.childSum, TreeNode.mergeFreq]
  | internal l r f =>
    obtain ⟨hl, hr, -⟩ := children_lt hbelow hn
    have hx := (List.getElem?_eq_some_iff.1 hn).1
    have hf := (wfFreq_iff.1 (wfFreq_buildTree h)).2 l r f (List.mem_of_getElem? hn)
    simp only [codesBelow_internal hbelow hn, totalLength_append, totalLength_prepend,
      totalWeight_codesBelow h (hl.trans hx), totalWeight_codesBelow h (hr.trans hx), TreeNode.childSum,
      TreeNode.mergeFreq, List.length_singleton]
    omega

/-- The code table of a table with two entries or more: what the traversal of the root gives. -/
theorem genTable_buildTree (htwo : 2 ≤ T.length) :
    genTable (buildTree T) = codesBelow (buildTree T) ((buildTree T).length - 1) := by
  obtain ⟨ne, -⟩ := wfFt_iff.1 h
  have hlen := buildTree_length ne
  rcases genTable_root_cases (buildTree T) with ⟨y, f, hroot, -⟩ | ⟨-, hg⟩
  · obtain ⟨l, r, g, hinternal⟩ := buildTree_getElem?_internal ne (x := (buildTree T).length - 1) (by omega) (by omega)
    rw [← List.getLast?_eq_getElem?, hroot] at hinternal
    cases hinternal
  · rw [hg, codesBelow, show (buildTree T).length - 1 + 1 = (buildTree T).length by omega]

/-- Over the table as over its code table. -/
theorem sum_cnt_mul_codeword_length : (T.map fun e => e.cnt * (codewordOf (genTable (buildTree T)) e.sym).length).sum =
    totalLength (countOf T) (genTable (buildTree T)) := by
  have hperm := genTable_buildTree_perm h
  have hnodup := nodup_sym_of_wfFt h
  calc (T.map fun e => e.cnt * (codewordOf (genTable (buildTree T)) e.sym).length).sum
    _ = ((T.map FtEntry.sym).map fun y => countOf T y * (codewordOf (genTable (buildTree T)) y).length).sum := by
      rw [List.map_map]
      exact congrArg List.sum (List.map_congr_left fun e he => by rw [Function.comp_apply, countOf_sym hnodup he])
    _ = (((genTable (buildTree T)).map CtEntry.sym).map fun y =>
        countOf T y * (codewordOf (genTable (buildTree T)) y).length).sum := (hperm.map _).sum_eq.symm
    _ = totalLength (countOf T) (genTable (buildTree T)) := by
      rw [List.map_map, totalLength]
      exact congrArg List.sum (List.map_congr_left fun e he => by
        rw [Function.comp_apply, codewordOf_sym (hperm.nodup_iff.2 hnodup) he])

end

end Sys2Proof.Machine
end

section
/-! SUPPORT. The code BUILD and GEN make of a table: no codeword begins another (R112), no code with this property has a
smaller sum of count times codeword length (R98, PR4), and so no exchange of two codewords makes it smaller (R113). -/

namespace Sys2Proof.Machine

/-- The codewords of the tree of a table, one for each entry. -/
def builtCode (T : List FtEntry) : List (List Bool) := T.map fun e => codewordOf (genTable (buildTree T)) e.sym

/-- The sum of count times codeword length. -/
def codeCost (T : List FtEntry) (code : List (List Bool)) : Nat :=
  (List.zipWith (fun e w => e.cnt * w.length) T code).sum

/-- The codeword of entry `i`, empty where there is none. -/
def codewordAt (code : List (List Bool)) (i : Nat) : List Bool := code.getD i []

theorem codeCost_eq_weightedLength {T : List FtEntry} {code : List (List Bool)} (hlen : code.length = T.length) :
    codeCost T code = weightedLength (Finset.range T.length) (freqAt (seedLeaves T))
      fun i => (codewordAt code i).length := by
  induction T generalizing code with
  | nil => simp [codeCost, weightedLength]
  | cons e T ih =>
    obtain ⟨w, code, rfl⟩ := List.exists_cons_of_length_eq_add_one hlen
    have htail := ih (Nat.succ.inj hlen)
    rw [weightedLength, List.length_cons, Finset.sum_range_succ', codeCost, List.zipWith_cons_cons, List.sum_cons,
      Nat.add_comm]
    exact congrArg (· + e.cnt * w.length) htail

theorem freqAt_seedLeaves {T : List FtEntry} {i : Nat} (hi : i < T.length) : freqAt (seedLeaves T) i = T[i].cnt := by
  simp [freqAt, seedLeaves, hi, TreeNode.freq]

theorem codewordAt_builtCode {T : List FtEntry} {i : Nat} (hi : i < T.length) :
    codewordAt (builtCode T) i = codewordOf (genTable (buildTree T)) T[i].sym := by
  simp [codewordAt, builtCode, hi]

theorem codeCost_builtCode (T : List FtEntry) : codeCost T (builtCode T) =
    (T.map fun e => e.cnt * (codewordOf (genTable (buildTree T)) e.sym).length).sum := by
  rw [codeCost, builtCode, List.zipWith_map_right, List.zipWith_self]

/-! ## No codeword of a built tree begins another -/

theorem sym_eq_of_cw_prefix {ns : List TreeNode} {d e : CtEntry} (hd : d ∈ genTable ns) (he : e ∈ genTable ns)
    (h : d.cw <+: e.cw) : d.sym = e.sym := by
  obtain ⟨rest, hrest⟩ := h
  have hdecode := decodeSymbol_of_mem_genTable he 0 0 []
  rw [List.append_nil, ← hrest, decodeSymbol_of_mem_genTable hd] at hdecode
  exact (Prod.mk.inj (Except.ok.inj hdecode)).1

section
variable {c : Params} {T : List FtEntry} (h : wfFt c T = true)
include h

theorem mem_genTable_of_entry {e : FtEntry} (he : e ∈ T) :
    ⟨e.sym, codewordOf (genTable (buildTree T)) e.sym⟩ ∈ genTable (buildTree T) := by
  have hperm := genTable_buildTree_perm h
  obtain ⟨d, hd, hsym⟩ := List.mem_map.1 (hperm.mem_iff.2 (List.mem_map_of_mem he))
  rw [← hsym, codewordOf_sym (hperm.nodup_iff.2 (nodup_sym_of_wfFt h)) hd]
  exact hd

theorem codewordAt_builtCode_mem {i : Nat} (hi : i < T.length) :
    ⟨T[i].sym, codewordAt (builtCode T) i⟩ ∈ genTable (buildTree T) :=
  codewordAt_builtCode hi ▸ mem_genTable_of_entry h (List.getElem_mem hi)

theorem codewordAt_builtCode_ne_nil {i : Nat} (hi : i < T.length) : codewordAt (builtCode T) i ≠ [] :=
  cw_ne_nil_of_mem_genTable (codewordAt_builtCode_mem h hi)

theorem builtCode_prefixFree {i j : Nat} (hi : i < T.length) (hj : j < T.length)
    (hprefix : codewordAt (builtCode T) i <+: codewordAt (builtCode T) j) : i = j := by
  have hsym := sym_eq_of_cw_prefix (codewordAt_builtCode_mem h hi) (codewordAt_builtCode_mem h hj) hprefix
  have hmap : (T.map FtEntry.sym)[i]? = (T.map FtEntry.sym)[j]? := by simpa [hi, hj] using hsym
  exact (List.getElem?_inj (by simpa using hi) (nodup_sym_of_wfFt h)).1 hmap

/-! ## No such code costs less -/

theorem codeCost_builtCode_le {cw : Nat → List Bool} (hne : ∀ i < T.length, cw i ≠ [])
    (hprefix : ∀ i < T.length, ∀ j < T.length, cw i <+: cw j → i = j) :
    codeCost T (builtCode T) ≤
      weightedLength (Finset.range T.length) (freqAt (seedLeaves T)) fun i => (cw i).length := by
  obtain ⟨ne, -⟩ := wfFt_iff.1 h
  rcases Nat.lt_or_ge T.length 2 with hone | htwo
  · obtain ⟨e, rfl⟩ : ∃ e, T = [e] := List.length_eq_one_iff.1 (by have := List.length_pos_of_ne_nil ne; omega)
    have hgen : genTable (buildTree [e]) = [⟨e.sym, [false]⟩] := rfl
    have hpos : 1 ≤ (cw 0).length := List.length_pos_of_ne_nil (hne 0 (by simp))
    simpa [codeCost, builtCode, hgen, codewordOf, weightedLength, freqAt, seedLeaves, TreeNode.freq]
      using Nat.le_mul_of_pos_right e.cnt hpos
  · rw [codeCost_builtCode, sum_cnt_mul_codeword_length h, genTable_buildTree h htwo, totalLength_root h]
    exact mergeCost_buildTree_le ne (kraftSum_le_one_of_prefixFree (by simpa using hne) (by simpa using hprefix))

end

/-- Settles O27: codewords none of which begins another meet Kraft's inequality, and no lengths that meet it cost less than the merges
of `build_tree`. -/
theorem builtCodesAreOptimal : Obligations.BuiltCodesAreOptimal := by
  intro c T code h hlen hne hprefix
  have hat : ∀ i < T.length, code[i]? = some (codewordAt code i) := fun i hi => by
    simp [codewordAt, hlen ▸ hi]
  rw [← codeCost_builtCode, ← codeCost, codeCost_eq_weightedLength hlen]
  refine codeCost_builtCode_le h (fun i hi => hne _ (List.mem_of_getElem? (hat i hi))) fun i hi j hj hp => ?_
  by_contra hij
  exact hprefix i j _ _ hij (hat i hi) (hat j hj) hp

/-- Settles O28: were the more frequent symbol's codeword longer, exchanging the two codewords would give a code
that costs less. -/
theorem moreFrequentIsNotLonger : Obligations.MoreFrequentIsNotLonger := by
  intro c T h d hd e he hcnt
  obtain ⟨i, hi, rfl⟩ := List.getElem_of_mem hd
  obtain ⟨j, hj, rfl⟩ := List.getElem_of_mem he
  by_contra hlonger
  rw [not_le] at hlonger
  have hswap : ∀ k < T.length, Equiv.swap j i k < T.length := fun k hk => by
    rw [Equiv.swap_apply_def]
    split_ifs <;> assumption
  have hcost := codeCost_eq_weightedLength (T := T) (code := builtCode T) (by simp [builtCode])
  have hmin := codeCost_builtCode_le h (cw := codewordAt (builtCode T) ∘ Equiv.swap j i)
    (fun k hk => codewordAt_builtCode_ne_nil h (hswap k hk))
    fun k hk m hm hp => (Equiv.swap j i).injective (builtCode_prefixFree h (hswap k hk) (hswap m hm) hp)
  have hlt := weightedLength_swap_lt (S := Finset.range T.length) (w := freqAt (seedLeaves T))
    (l := fun i => (codewordAt (builtCode T) i).length) (Finset.mem_range.2 hj) (Finset.mem_range.2 hi)
    (by rwa [freqAt_seedLeaves hi, freqAt_seedLeaves hj]) (by rwa [codewordAt_builtCode hi, codewordAt_builtCode hj])
  exact absurd (hcost ▸ hmin) hlt.not_ge

end Sys2Proof.Machine
end

section
/-! SUPPORT. BUILD_CODES (R114): under the conditions of COUNT its three units complete, each on the operands the unit
before it left, and a fault of COUNT is its fault. -/

namespace Sys2Proof.Machine

/-! ## The operands of the three units -/

/-- The tree of a segment with the given symbols. -/
def segTree (ys : List Symbol) : List TreeNode := buildTree (frequencyTable ys)

/-- The code table of a segment with the given symbols. -/
def segCode (ys : List Symbol) : List CtEntry := genTable (segTree ys)

/-- What COUNT leaves for segments with the given symbols. -/
def State.counted (s : State) (segs : List (List Symbol)) : State := s.storeCounts (segs.map frequencyTable)

/-- What COUNT and BUILD leave. -/
def State.built (s : State) (segs : List (List Symbol)) : State := (s.counted segs).storeTrees (segs.map segTree)

/-- What COUNT, BUILD and GEN leave. -/
def State.coded (s : State) (segs : List (List Symbol)) : State := (s.built segs).storeCodes (segs.map segCode)

section
variable (s : State) (segs : List (List Symbol)) (i : Nat)

@[simp] theorem State.freqTable_counted : (s.counted segs).freqTable i = (segs.map frequencyTable)[i]? :=
  State.freqTable_storeCounts _ i

@[simp] theorem State.arena_built : (s.built segs).arena i = (segs.map segTree)[i]? := State.arena_storeTrees _ i

@[simp] theorem State.arena_coded : (s.coded segs).arena i = (segs.map segTree)[i]? := s.arena_built segs i

@[simp] theorem State.codeTable_coded : (s.coded segs).codeTable i = (segs.map segCode)[i]? :=
  State.codeTable_storeCodes _ i

end

section
variable {s : State} {segs : List (List Symbol)}

/-- BUILD on the frequency tables of the segments. -/
theorem buildPhase_of_segments (hnseg : s.nseg.toNat = segs.length) (hcap : segs.length ≤ s.params.segCap)
    (hget : ∀ i, s.freqTable i = (segs.map frequencyTable)[i]?)
    (hwf : ∀ ys ∈ segs, wfFt s.params (frequencyTable ys) = true) :
    buildPhase s = .ok (s.storeTrees (segs.map segTree)) := by
  refine buildPhase_eq_ok.2 ⟨hnseg ▸ hcap, segs.map frequencyTable, loadFreqTables_eq_ok.2 ⟨?_, fun i hi => ?_⟩, ?_⟩
  · rw [List.length_map, hnseg]
  · rw [hget, List.getElem?_eq_getElem hi, List.getElem_map]
    exact ⟨rfl, hwf _ (List.getElem_mem _)⟩
  · rw [List.map_map]
    rfl

/-- GEN on their trees. -/
theorem genPhase_of_segments (hnseg : s.nseg.toNat = segs.length) (hcap : segs.length ≤ s.params.segCap)
    (hget : ∀ i, s.arena i = (segs.map segTree)[i]?)
    (hwf : ∀ ys ∈ segs, wfFt s.params (frequencyTable ys) = true) :
    genPhase s = .ok (s.storeCodes (segs.map segCode)) := by
  refine genPhase_eq_ok.2 ⟨hnseg ▸ hcap, segs.map segTree, loadTrees_eq_ok.2 ⟨?_, fun i hi => ?_⟩, ?_⟩
  · rw [List.length_map, hnseg]
  · rw [hget, List.getElem?_eq_getElem hi, List.getElem_map]
    exact ⟨rfl, wfTree_buildTree (hwf _ (List.getElem_mem _))⟩
  · rw [List.map_map]
    rfl

end

/-! ## BUILD_CODES -/

section
variable {s : State} {input : List RawUnit} {segs : List (List Symbol)} (h : CountReady s input)
  (hsegs : segs = segments input s.seglen.toNat s.charlen.toNat)
include h hsegs

theorem segments_length_of_ready : segs.length = cdiv s.inlen.toNat s.seglen.toNat := by
  obtain ⟨-, -, -, -, -, hinput, -⟩ := h
  rw [hsegs, segments_length, State.input_length hinput]
  rfl

theorem segments_length_le_of_ready : segs.length ≤ s.params.segCap := by
  rw [segments_length_of_ready h hsegs]
  obtain ⟨-, -, -, hcap, -⟩ := h
  exact hcap

/-- NSEG after COUNT. -/
theorem counted_nseg_of_ready : (s.counted segs).nseg.toNat = segs.length := by
  have hlen := segments_length_of_ready h hsegs
  obtain ⟨hp, -⟩ := h
  have hle : cdiv s.inlen.toNat s.seglen.toNat ≤ s.inlen.toNat := (cdiv_le_iff hp).2 (Nat.le_mul_of_pos_right _ hp)
  have hword := s.inlen.isLt
  rw [State.counted, State.storeCounts_nseg, List.length_map, BitVec.toNat_ofNat, Nat.mod_eq_of_lt (by omega)]

theorem wfFt_of_ready : ∀ ys ∈ segs, wfFt s.params (frequencyTable ys) = true := by
  obtain ⟨hp, hq, hin, hcount, hsym, hinput, hcap⟩ := h
  subst hsegs
  exact fun ys hys => (wfFt_frequencyTable (countChecks_eq_ok.2 ⟨by omega, by omega, hin, hcount, hsym⟩) hinput hys
    (hcap ys hys)).1

theorem countPhase_eq_counted : countPhase s = .ok (s.counted segs) := hsegs ▸ countPhase_of_ready h

/-- BUILD after COUNT, in the midst of BUILD_CODES or as a command of its own. -/
theorem buildPhase_counted : buildPhase (s.counted segs) = .ok (s.built segs) ∧
    buildPhase (s.counted segs).complete = .ok (s.built segs).complete :=
  have hnseg := counted_nseg_of_ready h hsegs
  have hcap := segments_length_le_of_ready h hsegs
  have hwf := wfFt_of_ready h hsegs
  ⟨buildPhase_of_segments hnseg hcap (s.freqTable_counted segs) hwf,
    buildPhase_of_segments (s := (s.counted segs).complete) hnseg hcap (s.freqTable_counted segs) hwf⟩

/-- GEN after COUNT and BUILD, likewise. -/
theorem genPhase_built : genPhase (s.built segs) = .ok (s.coded segs) ∧
    genPhase (s.built segs).complete = .ok (s.coded segs).complete :=
  have hnseg := counted_nseg_of_ready h hsegs
  have hcap := segments_length_le_of_ready h hsegs
  have hwf := wfFt_of_ready h hsegs
  ⟨genPhase_of_segments hnseg hcap (s.arena_built segs) hwf,
    genPhase_of_segments (s := (s.built segs).complete) hnseg hcap (s.arena_built segs) hwf⟩

theorem buildCodesPhase_eq_coded : buildCodesPhase s = .ok (s.coded segs) :=
  buildCodesPhase_eq_ok.2 ⟨_, _, countPhase_eq_counted h hsegs, (buildPhase_counted h hsegs).1,
    (genPhase_built h hsegs).1⟩

end

/-- Settles O35: a STATUS write between the units changes no operand of the next one. -/
theorem buildCodesIsCountBuildGen : Obligations.BuildCodesIsCountBuildGen := by
  intro s input h
  obtain ⟨segs, hsegs⟩ : ∃ segs, segs = segments input s.seglen.toNat s.charlen.toNat := ⟨_, rfl⟩
  have hcount := congrArg (conclude State.loseCounts s) (countPhase_eq_counted h hsegs)
  have hbuild := congrArg (conclude State.loseTrees (s.counted segs).complete) (buildPhase_counted h hsegs).2
  have hgen := congrArg (conclude State.loseCodes (s.built segs).complete) (genPhase_built h hsegs).2
  have hcodes := congrArg (conclude State.loseAllTables s) (buildCodesPhase_eq_coded h hsegs)
  exact ⟨_, _, _, hcount, rfl, hbuild, rfl, hgen, completesWith_of_exec (i := .buildCodes) hcodes rfl⟩

/-- Settles O36: BUILD_CODES begins with the pseudocode of COUNT, and what comes to a raise there comes to it here. -/
theorem buildCodesFaultsAsCount : Obligations.BuildCodesFaultsAsCount := by
  intro s t h hfault
  rcases conclude_eq_next.1 h with ⟨u, -, rfl⟩ | ⟨e, he, rfl⟩
  · exact absurd hfault (show ¬ statusFault statusOfDone = true by decide)
  · have hcodes : buildCodesPhase s = .error (.raise e) := bind_eq_error.2 (.inl he)
    exact ⟨_, congrArg (conclude State.loseAllTables s) hcodes, rfl, rfl, rfl⟩

end Sys2Proof.Machine
end

section
/-! SUPPORT. The round trip (R141): after BUILD_CODES every symbol of a segment has a codeword of the segment's tree, so
ENCODE writes codewords of the trees DECODE reads, as many for each segment as DECODE expects. -/

namespace Sys2Proof.Machine

/-! ## The entries a segment is encoded with -/

/-- The entries of a segment's code table, one for each symbol of the segment in input order. -/
def segEntries (ys : List Symbol) : List CtEntry := ys.map fun y => ⟨y, codewordOf (segCode ys) y⟩

@[simp] theorem segEntries_length (ys : List Symbol) : (segEntries ys).length = ys.length := List.length_map ..

theorem mem_segCode_of_mem_segEntries {c : Params} {ys : List Symbol} (hwf : wfFt c (frequencyTable ys) = true)
    {e : CtEntry} (he : e ∈ segEntries ys) : e ∈ segCode ys := by
  obtain ⟨y, hy, rfl⟩ := List.mem_map.1 he
  exact mem_genTable_of_entry hwf (mem_frequencyTable.2 ⟨hy, rfl⟩ : (⟨y, ys.count y⟩ : FtEntry) ∈ frequencyTable ys)

theorem hasEntry_segCode {c : Params} {ys : List Symbol} (hwf : wfFt c (frequencyTable ys) = true) {y : Symbol}
    (hy : y ∈ ys) : HasEntry (segCode ys) y :=
  ⟨_, mem_segCode_of_mem_segEntries hwf (List.mem_map_of_mem hy), rfl⟩

/-- The stream of the segments is the bits of their entries (R126). -/
theorem streamOf_eq_bitsOf {tables : Nat → List CtEntry} {i : Nat} {segs : List (List Symbol)}
    (htables : ∀ k < segs.length, tables (i + k) = segCode (segs.getD k [])) :
    streamOf tables i segs = bitsOf (segs.map segEntries) := by
  induction segs generalizing i with
  | nil => rfl
  | cons ys segs ih =>
    have htable : tables i = segCode ys := htables 0 (Nat.succ_pos _)
    have hrest := ih (i := i + 1) fun k hk => by
      rw [Nat.add_assoc, Nat.add_comm 1]
      exact htables (k + 1) (Nat.succ_lt_succ hk)
    rw [streamOf, List.map_cons, bitsOf_cons, htable, hrest, segEntries, List.flatMap_map]

/-- The units of the entries are those of the symbols. -/
theorem unitsOf_segEntries (segs : List (List Symbol)) : unitsOf (segs.map segEntries) = segs.flatten.flatten := by
  induction segs with
  | nil => rfl
  | cons ys segs ih =>
    rw [List.map_cons, unitsOf_cons, ih, segEntries, List.flatMap_map, List.flatten_cons, List.flatten_append,
      List.flatMap_id']

/-- A segment has as many symbols as the Decoder takes for it, `cdiv(SEGLEN, CHARLEN)`, and the last one 1 to that
(R133). -/
theorem segment_length {input : List RawUnit} {p q : Nat} (hp : 1 ≤ p) (hq : 1 ≤ q) {i : Nat} {ys : List Symbol}
    (hys : (segments input p q)[i]? = some ys) :
    (i + 1 < (segments input p q).length → ys.length = cdiv p q) ∧ 1 ≤ ys.length ∧ ys.length ≤ cdiv p q := by
  rw [segments_eq_pieces] at hys ⊢
  rw [List.getElem?_map, Option.map_eq_some_iff] at hys
  obtain ⟨seg, hseg, rfl⟩ := hys
  obtain ⟨-, hfull, hone, hle⟩ := piece_of_getElem? hp hseg
  rw [List.length_map, pieces_length (n := q)]
  refine ⟨fun hlt => by rw [hfull hlt], (lt_cdiv_iff hq).2 (by omega), (cdiv_le_iff hq).2 (hle.trans (le_cdiv_mul hq))⟩

/-! ## BUILD_CODES, then ENCODE, then DECODE -/

/-- The operands BUILD_CODES leaves for ENCODE (R120) and for DECODE (R130): the input, and the tree and the code table
of each of its segments. -/
structure State.HasCode (t : State) (input : List RawUnit) (segs : List (List Symbol)) : Prop where
  segments_eq : segs = segments input t.seglen.toNat t.charlen.toNat
  nseg_eq : t.nseg.toNat = segs.length
  encodeReady : EncodeReady t input fun i => segCode (segs.getD i [])
  treesReady : TreesReady t fun i => segTree (segs.getD i [])
  tables_wf : ∀ ys ∈ segs, wfFt t.params (frequencyTable ys) = true

section
variable {s : State} {input : List RawUnit} {segs : List (List Symbol)}

theorem State.HasCode.withScript (h : s.HasCode input segs) (script : List HostTxn) :
    State.HasCode { s with script := script } input segs :=
  ⟨h.segments_eq, h.nseg_eq, h.encodeReady, h.treesReady, h.tables_wf⟩

theorem State.HasCode.input_eq (h : s.HasCode input segs) : s.input = some input := by
  obtain ⟨-, -, -, -, -, hinput, -⟩ := h.encodeReady
  exact hinput

/-- BUILD_CODES leaves them: its tables and trees are well-formed. -/
theorem hasCode_coded (h : CountReady s input) (hsegs : segs = segments input s.seglen.toNat s.charlen.toNat) :
    (s.coded segs).complete.HasCode input segs := by
  have hnseg := counted_nseg_of_ready h hsegs
  have hlen := segments_length_of_ready h hsegs
  have hcap : (s.counted segs).nseg.toNat ≤ s.params.segCap := hnseg ▸ segments_length_le_of_ready h hsegs
  have hwf := wfFt_of_ready h hsegs
  have hwfTree : ∀ i < segs.length, wfTree s.params (segTree (segs.getD i [])) = true := fun i hi =>
    wfTree_buildTree (hwf _ (by simp [hi]))
  obtain ⟨hp, hq, hin, -, hsym, hinput, -⟩ := h
  refine ⟨hsegs, hnseg, ⟨hp, hq, hin, hcap, hsym, hinput, fun i hi => ?_⟩, ⟨hcap, fun i hi => ?_⟩, hwf⟩
  · have hi : i < segs.length := hlen ▸ hi.trans_le (min_le_right ..)
    exact ⟨by simp [hi], wfCt_genTable (hwfTree i hi)⟩
  · have hi : i < segs.length := hnseg ▸ hi
    exact ⟨by simp [hi], hwfTree i hi⟩

theorem buildCodes_hasCode (h : CountReady s input) (hsegs : segs = segments input s.seglen.toNat s.charlen.toNat) :
    ∃ t, CompletesWith .buildCodes s t ∧ t.HasCode input segs :=
  have hexec := congrArg (conclude State.loseAllTables s) (buildCodesPhase_eq_coded h hsegs)
  ⟨_, completesWith_of_exec (i := .buildCodes) hexec rfl, hasCode_coded h hsegs⟩

/-- ENCODE appends the codewords of all symbols, or raises `ERR_CAPACITY` where they pass BITCAP. -/
theorem State.HasCode.encodePhase (h : s.HasCode input segs) : encodePhase s =
    if (bitsOf (segs.map segEntries)).length ≤ s.params.bitCap then .ok (s.storeStream (bitsOf (segs.map segEntries)))
    else .error (.raise ⟨.capacity, 0, 0⟩) := by
  obtain ⟨hsegs, hnseg, hready, -, hwf⟩ := h
  have hentries : ∀ i < segs.length, ∀ y ∈ segs.getD i [], HasEntry (segCode (segs.getD i [])) y :=
    fun i hi y hy => hasEntry_segCode (hwf _ (by simp [hi])) hy
  have hstream : streamOf (fun i => segCode (segs.getD i [])) 0 segs = bitsOf (segs.map segEntries) :=
    streamOf_eq_bitsOf fun k _ => by rw [Nat.zero_add]
  rw [← hstream]
  split
  case isTrue hfits => exact encodePhase_of_ready hready hsegs hnseg.ge hentries hfits
  case isFalse hover =>
    have hover := not_le.1 hover
    rcases List.eq_nil_or_concat' segs with rfl | ⟨pre, ys, rfl⟩
    · exact absurd hover (Nat.not_lt_zero _)
    · have hlast := hentries pre.length (by simp)
      rw [List.getD_eq_getElem?_getD, List.getElem?_concat_length, Option.getD_some] at hlast
      refine encodePhase_of_stream_over hready hsegs (i := pre.length) (j := ys.length) (List.getElem?_concat_length ..)
        (by simp [hnseg]) (fun k hk => hentries k (by simp; omega)) (fun y hy => ?_) ?_
      · simpa using hlast y (List.mem_of_mem_take hy)
      · rwa [List.take_left, List.take_of_length_le (Nat.le_succ _)]

/-- The codewords of all symbols stand in BITMEM and fit it. -/
def State.HasStream (t : State) (segs : List (List Symbol)) : Prop :=
  t.bitlen.toNat ≤ t.params.bitCap ∧ t.stream = some (bitsOf (segs.map segEntries))

theorem State.HasCode.encode (h : s.HasCode input segs) (hparams : s.params.wf = true) : ∃ t,
    exec .encode s = .next t ∧
      (t.status = statusOfFault .capacity ∨ t.status = statusOfDone ∧ t.HasCode input segs ∧ t.HasStream segs) := by
  have hexec := congrArg (conclude State.loseStream s) h.encodePhase
  by_cases hfits : (bitsOf (segs.map segEntries)).length ≤ s.params.bitCap
  · rw [if_pos hfits] at hexec
    obtain ⟨-, -, hBit, -⟩ := Params.wf_iff.1 hparams
    have hbitlen : (s.storeStream (bitsOf (segs.map segEntries))).bitlen.toNat ≤ s.params.bitCap :=
      (Nat.mod_le ..).trans hfits
    exact ⟨_, hexec, .inr ⟨rfl, ⟨h.segments_eq, h.nseg_eq, h.encodeReady, h.treesReady, h.tables_wf⟩, hbitlen,
      State.stream_storeStream (s := s) (hfits.trans_lt hBit)⟩⟩
  · rw [if_neg hfits] at hexec
    exact ⟨_, hexec, .inl rfl⟩

/-- DECODE gives the symbols of all segments, the input. -/
theorem State.HasCode.decode (h : s.HasCode input segs) (hparams : s.params.wf = true) (hstream : s.HasStream segs)
    (hout : s.inlen.toNat ≤ s.params.outCap) : ∃ t, CompletesWith .decode s t ∧
      t.outlen.toNat = s.inlen.toNat ∧ t.output = some input := by
  obtain ⟨hsegs, hnseg, ⟨hp, hq, -, -, -, hinput, -⟩, htrees, hwf⟩ := h
  have hunits : unitsOf (segs.map segEntries) = input := by
    rw [unitsOf_segEntries, hsegs]
    exact (segmentationCoversTheInputOnce input _ _ hp hq).1
  have hcode : FromTrees (fun i => segTree (segs.getD i [])) (segs.map segEntries) := by
    intro i hi e he
    rw [List.length_map] at hi
    have hmem : segs.getD i [] ∈ segs := by simp [hi]
    exact mem_segCode_of_mem_segEntries (hwf _ hmem) (by simpa [hi] using he)
  have hlen : ∀ i < (segs.map segEntries).length,
      (i + 1 < (segs.map segEntries).length → ((segs.map segEntries).getD i []).length = fullCount s) ∧
      1 ≤ ((segs.map segEntries).getD i []).length ∧ ((segs.map segEntries).getD i []).length ≤ fullCount s := by
    intro i hi
    rw [List.length_map] at hi ⊢
    obtain ⟨ys, hys⟩ : ∃ ys, segs[i]? = some ys := ⟨_, List.getElem?_eq_getElem hi⟩
    have hsegment := segment_length hp hq (hsegs ▸ hys)
    rw [← hsegs] at hsegment
    simpa [hys, fullCount] using hsegment
  obtain ⟨t, ht, houtlen, houtput, -⟩ := decodeCompletes s _ _ _ hparams ⟨hp, hq, htrees, hstream⟩
    (by rw [List.length_map, hnseg]) hcode hlen rfl (by rwa [hunits, State.input_length hinput])
  rw [hunits] at houtlen houtput
  exact ⟨t, ht, houtlen.trans (State.input_length hinput), houtput⟩

end

/-- A command leaves the input. -/
theorem exec_input {i : Instr} {s t : State} (h : exec i s = .next t) : t.input = s.input := by
  rw [State.input, State.input, (exec_frame h).imem, (exec_frame h).inlen]

/-- With the core idle and unfaulted the next line of the script, a command's, is the whole step. -/
theorem step_scriptCmd {s : State} {i : Instr} {rest : List HostTxn} (hscript : s.script = scriptCmd i ++ rest)
    (hbusy : statusBusy s.status = false) (hfault : statusFault s.status = false) :
    step s = exec i { s with script := rest } :=
  stepRunsTheDecodedCommand s (encode i) rest i ⟨hscript, hbusy⟩ hfault (decode_encode i)

/-- So it is after a command that completed. -/
theorem step_scriptCmd_of_done {s : State} {i : Instr} {rest : List HostTxn} (hscript : s.script = scriptCmd i ++ rest)
    (hdone : s.status = statusOfDone) : step s = exec i { s with script := rest } :=
  step_scriptCmd hscript (hdone ▸ by decide) (hdone ▸ by decide)

/-- Settles O43: the stream is codewords of the trees in place, so the Decoder gives their symbols, the input's. -/
theorem roundTrip : Obligations.RoundTrip := by
  intro s input rest hparams hready hout hbusy hfault hscript hfits
  have hs := step_scriptCmd (rest := scriptCmd .encode ++ scriptCmd .decode ++ rest) hscript hbusy hfault
  obtain ⟨t, ⟨ht, htdone, -⟩, htcode⟩ := buildCodes_hasCode
    (s := { s with script := scriptCmd .encode ++ scriptCmd .decode ++ rest }) hready rfl
  have htframe := exec_frame ht
  have ht' := step_scriptCmd_of_done (rest := scriptCmd .decode ++ rest) htframe.script htdone
  obtain ⟨u, hu, hend⟩ := (htcode.withScript (scriptCmd .decode ++ rest)).encode (htframe.params ▸ hparams)
  have huframe := exec_frame hu
  obtain ⟨hudone, hucode, hustream⟩ := hend.resolve_left (hfits t u (hs.trans ht) (ht'.trans hu))
  have hu' := step_scriptCmd_of_done (rest := rest) huframe.script hudone
  have huparams : u.params = s.params := huframe.params.trans htframe.params
  have huinlen : u.inlen = s.inlen := huframe.inlen.trans htframe.inlen
  obtain ⟨v, ⟨hv, hvdone, -⟩, houtlen, houtput⟩ := (hucode.withScript rest).decode (huparams ▸ hparams) hustream
    (by rwa [huparams, huinlen])
  exact ⟨t, u, v, hs.trans ht, ht'.trans hu, hu'.trans hv, hvdone,
    BitVec.eq_of_toNat_eq (houtlen.trans (by rw [huinlen])), houtput, (exec_input hv).trans hucode.input_eq⟩

end Sys2Proof.Machine
end

section
/-! SUPPORT. Codewords (R107 to R109, R111, R112): the entries of a table GEN made are the paths from the root to the
leaves, left before right, no longer than the tree has Internal nodes, and none begins another. -/

namespace Sys2Proof.Machine

/-! ## What GEN made -/

/-- GEN made the table from a well-formed tree. -/
theorem genTable_of_generated {s t : State} {i : Nat} {ns : List TreeNode} {T : List CtEntry}
    (h : Generated s t i ns T) : wfTree s.params ns = true ∧ T = genTable ns := by
  obtain ⟨hexec, hdone, hi, hns, hT⟩ := h
  obtain ⟨u, hu, rfl⟩ := conclude_done hexec hdone
  obtain ⟨-, trees, hload, rfl⟩ := genPhase_eq_ok.1 hu
  obtain ⟨hlen, hload⟩ := loadTrees_eq_ok.1 hload
  have hi : i < trees.length := hlen ▸ hi
  obtain ⟨hget, hwf⟩ := hload i hi
  obtain rfl := Option.some.inj (hns.symm.trans hget)
  exact ⟨hwf, by simpa [hi, eq_comm] using hT⟩

section
variable {c : Params} {ns : List TreeNode}

/-- The traversal from an Internal root. -/
theorem genTable_of_internal_root {l r f : Nat} (hroot : ns.getLast? = some (.internal l r f)) :
    genTable ns = codesBelow ns (ns.length - 1) := by
  have hpos := List.length_pos_of_mem (List.mem_of_getLast? hroot)
  rcases genTable_root_cases ns with ⟨y, g, hleaf, -⟩ | ⟨-, hg⟩
  · rw [hroot] at hleaf
    cases hleaf
  · rw [hg, codesBelow, Nat.sub_add_cancel hpos]

theorem genTable_of_leaf_root {y : Symbol} {f : Nat} (hroot : ns.getLast? = some (.leaf y f)) :
    genTable ns = [⟨y, [false]⟩] := by
  rw [genTable, hroot]

/-! ## Paths (R107) -/

theorem follow_leaf {x : Nat} {y : Symbol} {f : Nat} (hx : ns[x]? = some (.leaf y f)) (cw : List Bool) {z : Nat} :
    follow ns x cw = some z ↔ cw = [] ∧ z = x := by
  cases cw <;> simp [follow, hx, eq_comm]

theorem follow_internal {x l r f : Nat} (hx : ns[x]? = some (.internal l r f)) (b : Bool) (cw : List Bool) :
    follow ns x (b :: cw) = follow ns (if b then r else l) cw := by
  rw [follow, hx]

theorem mem_map_prepend {es : List CtEntry} {b : Bool} {y : Symbol} {cw : List Bool} :
    ⟨y, cw⟩ ∈ es.map (CtEntry.prepend [b]) ↔ ∃ u, cw = b :: u ∧ ⟨y, u⟩ ∈ es := by
  constructor
  · intro h
    obtain ⟨⟨z, u⟩, he, heq⟩ := List.mem_map.1 h
    cases heq
    exact ⟨u, rfl, he⟩
  · rintro ⟨u, rfl, he⟩
    exact List.mem_map_of_mem (f := CtEntry.prepend [b]) he

/-- The codewords below a node are the paths from it to a Leaf. -/
theorem mem_codesBelow (h : childrenBelowFrom 0 ns = true) {x : Nat} {n : TreeNode} (hx : ns[x]? = some n)
    {y : Symbol} {cw : List Bool} : ⟨y, cw⟩ ∈ codesBelow ns x ↔
      ∃ z f, follow ns x cw = some z ∧ ns[z]? = some (.leaf y f) := by
  induction x using Nat.strong_induction_on generalizing n cw with
  | _ x ih =>
    cases n with
    | leaf z f =>
      rw [codesBelow_leaf hx]
      simp only [List.mem_singleton, CtEntry.mk.injEq, follow_leaf hx]
      constructor
      · rintro ⟨rfl, rfl⟩
        exact ⟨x, f, ⟨rfl, rfl⟩, hx⟩
      · rintro ⟨_, g, ⟨rfl, rfl⟩, hleaf⟩
        rw [hx] at hleaf
        cases hleaf
        exact ⟨rfl, rfl⟩
    | internal l r f =>
      obtain ⟨hl, hr, -⟩ := children_lt h hx
      have hlt := (List.getElem?_eq_some_iff.1 hx).1
      have hleft (u : List Bool) := ih l hl (cw := u) (List.getElem?_eq_getElem (hl.trans hlt))
      have hright (u : List Bool) := ih r hr (cw := u) (List.getElem?_eq_getElem (hr.trans hlt))
      rw [codesBelow_internal h hx, List.mem_append, mem_map_prepend, mem_map_prepend]
      cases cw with
      | nil => simp [follow, hx]
      | cons b cw => cases b <;> simp [follow_internal hx, hleft, hright]

/-! ## Their order (R109) -/

/-- At the first place where the codewords differ the first has 0 and the second 1. -/
def CtEntry.Before (d e : CtEntry) : Prop := ∃ u v w, d.cw = u ++ false :: v ∧ e.cw = u ++ true :: w

theorem CtEntry.Before.prepend {d e : CtEntry} (h : d.Before e) (path : List Bool) :
    (d.prepend path).Before (e.prepend path) := by
  obtain ⟨u, v, w, hd, he⟩ := h
  exact ⟨path ++ u, v, w, by simp [CtEntry.prepend, hd], by simp [CtEntry.prepend, he]⟩

/-- Paths to the left come before paths to the right. -/
theorem before_of_left_of_right (d e : CtEntry) : (d.prepend [false]).Before (e.prepend [true]) :=
  ⟨[], d.cw, e.cw, rfl, rfl⟩

theorem codesBelow_pairwise (h : childrenBelowFrom 0 ns = true) (x : Nat) :
    (codesBelow ns x).Pairwise CtEntry.Before := by
  induction x using Nat.strong_induction_on with
  | _ x ih =>
    cases hx : ns[x]? with
    | none =>
      rw [codesBelow, visit_none hx]
      exact List.Pairwise.nil
    | some n =>
      cases n with
      | leaf y f =>
        rw [codesBelow_leaf hx]
        exact List.pairwise_singleton ..
      | internal l r f =>
        obtain ⟨hl, hr, -⟩ := children_lt h hx
        have hprepend (m : Nat) (hm : m < x) (b : Bool) :
            ((codesBelow ns m).map (CtEntry.prepend [b])).Pairwise CtEntry.Before :=
          (ih m hm).map _ fun _ _ hbefore => hbefore.prepend [b]
        rw [codesBelow_internal h hx]
        refine List.pairwise_append.2 ⟨hprepend l hl false, hprepend r hr true, fun d hd e he => ?_⟩
        obtain ⟨d, -, rfl⟩ := List.mem_map.1 hd
        obtain ⟨e, -, rfl⟩ := List.mem_map.1 he
        exact before_of_left_of_right d e

end

/-! ## The tables GEN left -/

theorem root_cases {c : Params} {ns : List TreeNode} (h : wfTree c ns = true) :
    (∃ y f, ns.getLast? = some (.leaf y f)) ∨ ∃ l r f, ns.getLast? = some (.internal l r f) := by
  obtain ⟨hodd, -⟩ := wfTree_iff.1 h
  have hne : ns ≠ [] := by
    rintro rfl
    cases hodd
  rw [List.getLast?_eq_some_getLast hne]
  cases ns.getLast hne <;> simp

/-- Settles O30: below an Internal root the codewords are the paths to the leaves. -/
theorem codewordsArePathsFromTheRoot : Obligations.CodewordsArePathsFromTheRoot := by
  intro s t i ns T h
  obtain ⟨hwf, rfl⟩ := genTable_of_generated h
  obtain ⟨-, -, hbelow, -⟩ := wfTree_iff.1 hwf
  refine ⟨fun l r f hroot y cw => ?_, fun y f => genTable_of_leaf_root⟩
  rw [genTable_of_internal_root hroot]
  exact mem_codesBelow hbelow (List.getLast?_eq_getElem? ▸ hroot)

/-- Settles O31: the left subtree's paths come before the right one's, at every node. -/
theorem codeTableStandsInTraversalOrder : Obligations.CodeTableStandsInTraversalOrder := by
  intro s t i ns T h
  obtain ⟨hwf, rfl⟩ := genTable_of_generated h
  obtain ⟨-, -, hbelow, -⟩ := wfTree_iff.1 hwf
  rcases root_cases hwf with ⟨y, f, hroot⟩ | ⟨l, r, f, hroot⟩
  · rw [genTable_of_leaf_root hroot]
    exact List.pairwise_singleton ..
  · rw [genTable_of_internal_root hroot]
    exact codesBelow_pairwise hbelow _

/-- Settles O33: a path goes down through Internal nodes, of which a tree of `N` nodes has `(N - 1) / 2`. -/
theorem codewordLengthsAreBounded : Obligations.CodewordLengthsAreBounded := by
  intro c ns h e he
  obtain ⟨hodd, -, hbelow, -⟩ := wfTree_iff.1 h
  have hpos := List.length_pos_of_ne_nil (cw_ne_nil_of_mem_genTable he)
  have hlen : e.cw.length = 1 ∨ e.cw.length ≤ (ns.length - 1) / 2 := by
    rcases genTable_root_cases ns with ⟨y, f, -, hg⟩ | ⟨-, hg⟩ <;> rw [hg] at he
    · rw [List.mem_singleton.1 he]
      exact .inl rfl
    · have hpath := cw_length_le_of_mem_visit hbelow he
      have hinternals := two_mul_internalCount h
      rw [List.take_of_length_le (by omega), List.length_nil] at hpath
      omega
  exact ⟨hpos, cw_length_le_cwMax h he, by omega, by omega⟩

/-- Settles O34: where one codeword began another, the Decoder would read it as the symbols of both, and each symbol has
one entry. -/
theorem codeTablesArePrefixFree : Obligations.CodeTablesArePrefixFree := by
  intro s t i ns T h j k d e hne hd he hbegins
  obtain ⟨hwf, rfl⟩ := genTable_of_generated h
  obtain ⟨-, -, -, -, -, hdistinct, -⟩ := wfTree_iff.1 hwf
  have hnodup : ((genTable ns).map CtEntry.sym).Nodup :=
    (genTable_map_sym_perm hwf).nodup_iff.2 (distinct_iff_nodup.1 hdistinct)
  have hsym := sym_eq_of_cw_prefix (List.mem_of_getElem? hd) (List.mem_of_getElem? he) hbegins
  have hlt : j < ((genTable ns).map CtEntry.sym).length := by
    rw [List.length_map]
    exact (List.getElem?_eq_some_iff.1 hd).1
  exact hne ((List.getElem?_inj hlt hnodup).1 (by simp [hd, he, hsym]))

end Sys2Proof.Machine
end

section
/-! SUPPORT. GEN and DECODE read no FREQ (R105, R130): with every FREQ set to 0 they come to the same end, and trees
that differ in FREQ alone are the same trees then. -/

namespace Sys2Proof.Machine

/-! ## Windows with other values at the same places -/

section
variable {α β : Type} (f : α → β)

/-- The window with `f` of each value. -/
def Window.mapValues (w : Window α) : Window β := w.map fun kv => (kv.1, f kv.2)

theorem Window.read_mapValues (w : Window α) (i : Nat) :
    Window.read (Window.mapValues f w) i = (Window.read w i).map f := by
  induction w with
  | nil => rfl
  | cons kv w ih =>
    rw [Window.mapValues, List.map_cons, Window.read_cons, Window.read_cons, ← Window.mapValues, ih]
    split <;> rfl

theorem Window.readFrom_mapValues (w : Window α) (i n : Nat) :
    Window.readFrom (Window.mapValues f w) i n = (Window.readFrom w i n).map (List.map f) := by
  induction n generalizing i with
  | zero => rfl
  | succ n ih =>
    rw [Window.readFrom, Window.readFrom, Window.read_mapValues, ih]
    cases Window.read w i with
    | none => rfl
    | some v => simp [Function.comp_def]

/-- The table memory with `f` of each element. -/
def Table.mapValues (t : Table α) : Table β := Window.mapValues (Window.mapValues f) t

theorem Table.seg_mapValues (t : Table α) (i : Nat) :
    Table.seg (Table.mapValues f t) i = Window.mapValues f (Table.seg t i) := by
  rw [Table.seg, Table.mapValues, Window.read_mapValues, Table.seg]
  cases Window.read t i <;> rfl

theorem entries_mapValues (counts : Window Nat) (t : Table α) (i : Nat) :
    entries counts (Table.mapValues f t) i = (entries counts t i).map (List.map f) := by
  rw [entries, entries, Table.seg_mapValues]
  cases Window.read counts i with
  | none => rfl
  | some n => exact Window.readFrom_mapValues f _ 0 n

theorem recordsOf_map (f : α → β) (es : List (Stored α)) :
    recordsOf (es.map (Stored.map f)) = (recordsOf es).map (List.map f) := by
  induction es with
  | nil => rfl
  | cons e es ih =>
    cases e with
    | bits v => rfl
    | record r => simp [recordsOf, Stored.map, ih, Function.comp_def]

/-- Loading a table of records under `f`, where `f` keeps what is required of the table. -/
theorem loadTable_map {f : α → α} {ok : List α → Bool} (hok : ∀ t, ok (t.map f) = ok t) (w : Win)
    {get get' : Nat → Option (List (Stored α))} (hget : ∀ i, get' i = (get i).map (List.map (Stored.map f))) (i : Nat) :
    loadTable w get' ok i = List.map f <$> loadTable w get ok i := by
  rw [loadTable, loadTable, hget]
  cases get i with
  | none => rfl
  | some es =>
    simp only [Option.map_some, orRefuse_some, ok_bind, recordsOf_map]
    cases recordsOf es with
    | none => rfl
    | some t =>
      simp only [Option.map_some, orRefuse_some, ok_bind, hok]
      split <;> rfl

end

theorem traverse_map {α β γ : Type} {f : α → Except Stop β} {f' : α → Except Stop γ} {g : β → γ}
    (h : ∀ a, f' a = g <$> f a) (as : List α) : traverse f' as = List.map g <$> traverse f as := by
  induction as with
  | nil => rfl
  | cons a as ih =>
    rw [traverse, traverse, h, ih]
    cases f a with
    | error e => rfl
    | ok b => cases traverse f as <;> rfl

/-! ## Trees without frequencies -/

/-- The arena with every FREQ 0. -/
def shape (ns : List TreeNode) : List TreeNode := ns.map (TreeNode.setFreq 0)

section
variable (ns : List TreeNode)

@[simp] theorem shape_length : (shape ns).length = ns.length := List.length_map ..

theorem shape_getElem? (x : Nat) : (shape ns)[x]? = ns[x]?.map (TreeNode.setFreq 0) := List.getElem?_map ..

theorem shape_getLast? : (shape ns).getLast? = ns.getLast?.map (TreeNode.setFreq 0) := List.getLast?_map ..

theorem childrenBelowFrom_shape (k : Nat) : childrenBelowFrom k (shape ns) = childrenBelowFrom k ns := by
  induction ns generalizing k with
  | nil => rfl
  | cons n ns ih =>
    rw [shape, List.map_cons, childrenBelowFrom, childrenBelowFrom, ← shape, ih]
    cases n <;> rfl

theorem parentCount_shape (m : Nat) : parentCount (shape ns) m = parentCount ns m := by
  rw [parentCount, shape, List.countP_map, parentCount]
  congr 1
  funext n
  cases n <;> rfl

theorem leafSymbols_shape : leafSymbols (shape ns) = leafSymbols ns := by
  rw [leafSymbols, shape, List.filterMap_map, leafSymbols]
  congr 1
  funext n
  cases n <;> rfl

theorem wfTree_shape (c : Params) : wfTree c (shape ns) = wfTree c ns := by
  simp only [wfTree, shape_length, childrenBelowFrom_shape, parentCount_shape, leafSymbols_shape]

theorem visit_shape (fuel x : Nat) (path : List Bool) : visit (shape ns) fuel x path = visit ns fuel x path := by
  induction fuel generalizing x path with
  | zero => rfl
  | succ fuel ih =>
    have hget := shape_getElem? ns x
    cases hx : ns[x]? with
    | none => rw [visit_none hx, visit_none (hget.trans (by rw [hx]; rfl))]
    | some n =>
      rw [hx] at hget
      cases n with
      | leaf y f => rw [visit_leaf hx, visit_leaf hget]
      | internal l r f => rw [visit_internal hx, visit_internal hget, ih, ih]

theorem genTable_shape : genTable (shape ns) = genTable ns := by
  rw [genTable, shape_getLast?, shape_length, visit_shape, genTable]
  cases ns.getLast? with
  | none => rfl
  | some n => cases n <;> rfl

theorem walk_shape (x : Nat) (bits : List Bool) : walk (shape ns) x bits = walk ns x bits := by
  induction bits generalizing x with
  | nil =>
    rw [walk, walk, shape_getElem?]
    cases ns[x]? with
    | none => rfl
    | some n => cases n <;> rfl
  | cons b bits ih =>
    rw [walk, walk, shape_getElem?]
    cases ns[x]? with
    | none => rfl
    | some n =>
      cases n with
      | leaf y f => rfl
      | internal l r f => exact ih _

theorem decodeSymbol_shape (i cnt : Nat) (bits : List Bool) :
    decodeSymbol (shape ns) i cnt bits = decodeSymbol ns i cnt bits := by
  rw [decodeSymbol, shape_getLast?, shape_length, walk_shape, decodeSymbol]
  cases ns.getLast? with
  | none => rfl
  | some n => cases n <;> rfl

theorem decodeSegment_shape (outCap i : Nat) (last : Bool) (more cnt : Nat) (bits : List Bool) (out : List RawUnit) :
    decodeSegment outCap (shape ns) i last more cnt bits out = decodeSegment outCap ns i last more cnt bits out := by
  induction more generalizing cnt bits out with
  | zero => rfl
  | succ more ih => simp only [decodeSegment, decodeSymbol_shape, ih]

end

theorem decodeSegments_shape (outCap cap i : Nat) (trees : List (List TreeNode)) (bits : List Bool)
    (out : List RawUnit) :
    decodeSegments outCap cap i (trees.map shape) bits out = decodeSegments outCap cap i trees bits out := by
  induction trees generalizing i bits out with
  | nil => rfl
  | cons ns trees ih => simp only [List.map_cons, decodeSegments, decodeSegment_shape, List.isEmpty_map, ih]

/-! ## States without frequencies -/

/-- The state with every FREQ of TREE 0. -/
def State.eraseFreq (s : State) : State := { s with tree := Table.mapValues (Stored.map (TreeNode.setFreq 0)) s.tree }

section
variable (s : State)

theorem loadTrees_eraseFreq (k : Nat) : loadTrees s.eraseFreq k = List.map shape <$> loadTrees s k :=
  traverse_map (loadTable_map (fun ns => wfTree_shape ns s.params) .tree
    (entries_mapValues (Stored.map (TreeNode.setFreq 0)) s.treeN s.tree)) (List.range k)

theorem genPhase_eraseFreq : genPhase s.eraseFreq = State.eraseFreq <$> genPhase s := by
  have hcheck : raiseIf (s.eraseFreq.params.segCap < s.eraseFreq.nseg.toNat) .capacity =
      raiseIf (s.params.segCap < s.nseg.toNat) .capacity := rfl
  have hload : loadTrees s.eraseFreq s.eraseFreq.nseg.toNat = List.map shape <$> loadTrees s s.nseg.toNat :=
    loadTrees_eraseFreq s _
  have hstore (trees : List (List TreeNode)) : s.eraseFreq.storeCodes ((trees.map shape).map genTable) =
      (s.storeCodes (trees.map genTable)).eraseFreq := by
    rw [List.map_map, funext (f := genTable ∘ shape) genTable_shape]
    rfl
  simp only [genPhase, hcheck, hload, hstore, bind_map_left, map_bind, map_pure]

theorem decodePhase_eraseFreq : decodePhase s.eraseFreq = State.eraseFreq <$> decodePhase s := by
  have hchecks : decodeChecks s.eraseFreq = decodeChecks s := rfl
  have hstream : loadStream s.eraseFreq = loadStream s := rfl
  have hload : loadTrees s.eraseFreq s.eraseFreq.nseg.toNat = List.map shape <$> loadTrees s s.nseg.toNat :=
    loadTrees_eraseFreq s _
  have hdecode (trees : List (List TreeNode)) (bits : List Bool) :
      decodeSegments s.eraseFreq.params.outCap (cdiv s.eraseFreq.seglen.toNat s.eraseFreq.charlen.toNat) 0
        (trees.map shape) bits [] =
      decodeSegments s.params.outCap (cdiv s.seglen.toNat s.charlen.toNat) 0 trees bits [] :=
    decodeSegments_shape ..
  have hstore (out : List RawUnit) : s.eraseFreq.storeOutput out = (s.storeOutput out).eraseFreq := rfl
  simp only [decodePhase, hchecks, hstream, hload, hdecode, hstore, List.length_map, bind_map_left, map_bind, map_pure]

end

/-- Where the losses touch no FREQ, a pseudocode's result without frequencies ends the command without frequencies in
the command's own end without frequencies. -/
theorem conclude_eraseFreq {lose : State → State} (hlose : ∀ s, lose s.eraseFreq = (lose s).eraseFreq) {s t : State}
    {r : Except Stop State} : conclude lose s.eraseFreq (State.eraseFreq <$> r) = .next t ↔
      ∃ u, conclude lose s r = .next u ∧ t = u.eraseFreq := by
  rcases r with (e | e) | u
  · have hfault : (if e.code.leavesAll then s.eraseFreq else lose s.eraseFreq).takeFault e =
        ((if e.code.leavesAll then s else lose s).takeFault e).eraseFreq := by
      rw [hlose]
      split <;> rfl
    constructor
    · rintro ⟨⟩
      exact ⟨_, rfl, hfault⟩
    · rintro ⟨_, ⟨⟩, rfl⟩
      exact congrArg _ hfault
  · simp
  · constructor
    · rintro ⟨⟩
      exact ⟨_, rfl, rfl⟩
    · rintro ⟨_, ⟨⟩, rfl⟩
      rfl

theorem exec_eraseFreq {i : Instr} (hi : i ∈ [Instr.gen, .decode]) {s t : State} :
    exec i s.eraseFreq = .next t ↔ ∃ u, exec i s = .next u ∧ t = u.eraseFreq := by
  rcases List.mem_pair.1 hi with rfl | rfl
  · have h := conclude_eraseFreq (lose := State.loseCodes) (s := s) (t := t) (r := genPhase s) fun _ => rfl
    rwa [← genPhase_eraseFreq] at h
  · have h := conclude_eraseFreq (lose := State.loseOutput) (s := s) (t := t) (r := decodePhase s) fun _ => rfl
    rwa [← decodePhase_eraseFreq] at h

theorem eq_of_eraseFreq_eq {t u : State} (h : t.eraseFreq = u.eraseFreq) : u = { t with tree := u.tree } :=
  calc u = { u.eraseFreq with tree := u.tree } := rfl
    _ = { t.eraseFreq with tree := u.tree } := by rw [h]
    _ = { t with tree := u.tree } := rfl

/-! ## Trees with other frequencies -/

/-- The trees with FREQ `g i n` at node `n` of segment `i`. -/
def relabelFreq (g : Nat → Nat → Nat) (t : Table (Stored TreeNode)) : Table (Stored TreeNode) :=
  t.map fun kw => (kw.1, kw.2.map fun nv => (nv.1, nv.2.map (TreeNode.setFreq (g kw.1 nv.1))))

theorem Stored.map_setFreq_map_setFreq (f f' : Nat) (e : Stored TreeNode) :
    (e.map (TreeNode.setFreq f)).map (TreeNode.setFreq f') = e.map (TreeNode.setFreq f') := by
  cases e with
  | bits v => rfl
  | record n => cases n <;> rfl

theorem eraseFreq_relabelFreq (s : State) (g : Nat → Nat → Nat) :
    State.eraseFreq { s with tree := relabelFreq g s.tree } = s.eraseFreq := by
  simp only [State.eraseFreq, relabelFreq, Table.mapValues, Window.mapValues, List.map_map, Function.comp_def,
    Stored.map_setFreq_map_setFreq]

theorem exec_relabelFreq {i : Instr} (hi : i ∈ [Instr.gen, .decode]) (g : Nat → Nat → Nat) {s t : State}
    (h : exec i s = .next t) : exec i { s with tree := relabelFreq g s.tree } =
      .next { t with tree := relabelFreq g s.tree } := by
  have herase := (exec_eraseFreq hi).2 ⟨t, h, rfl⟩
  rw [← eraseFreq_relabelFreq s g] at herase
  obtain ⟨u, hu, htu⟩ := (exec_eraseFreq hi).1 herase
  have htree : u.tree = relabelFreq g s.tree :=
    (exec_frame hu).tree.resolve_left (by rcases List.mem_pair.1 hi with rfl | rfl <;> decide)
  rw [hu, ← htree, ← eq_of_eraseFreq_eq htu]

/-- Settles O13: both commands give the same on the trees without frequencies, and leave TREE as it is. -/
theorem genAndDecodeIgnoreFrequencies : Obligations.GenAndDecodeIgnoreFrequencies := by
  rintro s g _ rfl
  exact ⟨fun _ => exec_relabelFreq (by simp) g, fun _ => exec_relabelFreq (by simp) g⟩

end Sys2Proof.Machine
end

section
/-! SUPPORT. The look-up fault of ENCODE (R123, R124): the Encoder works on a list in two parts one after the other, so
it comes to a symbol without an entry with the codewords of all symbols before it. -/

namespace Sys2Proof.Machine

/-! ## The Encoder on a list in two parts -/

section
variable {cap : Nat}

theorem encodeSymbols_append (table : Option (List CtEntry)) (i j : Nat) (ys zs : List Symbol) (bits : List Bool) :
    encodeSymbols cap table i j (ys ++ zs) bits =
      encodeSymbols cap table i j ys bits >>= encodeSymbols cap table i (j + ys.length) zs := by
  induction ys generalizing j bits with
  | nil => rfl
  | cons y ys ih =>
    rw [List.cons_append, encodeSymbols, encodeSymbols, List.length_cons, Nat.add_comm ys.length, ← Nat.add_assoc]
    cases table.bind (lookup y) with
    | none => rfl
    | some cw =>
      dsimp only
      split
      · rfl
      · exact ih (j + 1) (bits ++ cw)

theorem encodeSegments_append (tables : List (List CtEntry)) (i : Nat) (pre post : List (List Symbol))
    (bits : List Bool) :
    encodeSegments cap tables i (pre ++ post) bits =
      encodeSegments cap tables i pre bits >>= encodeSegments cap tables (i + pre.length) post := by
  induction pre generalizing i bits with
  | nil => rfl
  | cons ys pre ih =>
    rw [List.cons_append, encodeSegments, encodeSegments, bind_assoc, List.length_cons, Nat.add_comm pre.length,
      ← Nat.add_assoc]
    exact bind_congr fun bits' => ih (i + 1) bits'

theorem streamOf_append (tables : Nat → List CtEntry) (i : Nat) (pre post : List (List Symbol)) :
    streamOf tables i (pre ++ post) = streamOf tables i pre ++ streamOf tables (i + pre.length) post := by
  induction pre generalizing i with
  | nil => rfl
  | cons ys pre ih =>
    rw [List.cons_append, streamOf, streamOf, ih, List.append_assoc, List.length_cons, Nat.add_comm pre.length,
      ← Nat.add_assoc]

/-! ## A symbol without an entry -/

theorem lookup_of_not_hasEntry {T : List CtEntry} {y : Symbol} (h : ¬ HasEntry T y) : lookup y T = none := by
  rw [lookup_eq_find?, Option.map_eq_none_iff, List.find?_eq_none]
  exact fun e he hy => h ⟨e, he, of_decide_eq_true hy⟩

/-- The first symbol that the segment's table, if it has one, gives no codeword raises `ERR_LOOKUP` (R123). -/
theorem encodeSymbols_no_entry {table : Option (List CtEntry)} {y : Symbol} (h : table.bind (lookup y) = none)
    (i j : Nat) (rest : List Symbol) (bits : List Bool) :
    encodeSymbols cap table i j (y :: rest) bits = .error (.raise ⟨.lookup, i, j⟩) := by
  rw [encodeSymbols, h]

end

/-- ENCODE raises `ERR_LOOKUP` at the first symbol without an entry, in the first segment without a table or in one with
a table, whatever follows it (R123, R124). -/
theorem encodePhase_of_no_entry {s : State} {input : List RawUnit} {tables : Nat → List CtEntry}
    (hready : EncodeReady s input tables) {pre post : List (List Symbol)} {zs rest : List Symbol} {y : Symbol}
    (hsegs : pre ++ (zs ++ y :: rest) :: post = segments input s.seglen.toNat s.charlen.toNat)
    (hy : (s.nseg.toNat ≤ pre.length ∧ zs = []) ∨ (pre.length < s.nseg.toNat ∧ ¬ HasEntry (tables pre.length) y))
    (hnseg : pre.length ≤ s.nseg.toNat) (hpre : ∀ k < pre.length, ∀ z ∈ pre.getD k [], HasEntry (tables k) z)
    (hzs : ∀ z ∈ zs, HasEntry (tables pre.length) z)
    (hcap : (streamOf tables 0 (pre ++ [zs])).length ≤ s.params.bitCap) :
    encodePhase s = .error (.raise ⟨.lookup, pre.length, zs.length⟩) := by
  rw [streamOf_append, streamOf, streamOf, List.append_nil, Nat.zero_add] at hcap
  rw [encodePhase_eq_encodeSegments hready hsegs]
  generalize hloaded : (List.range (min s.nseg.toNat (pre ++ (zs ++ y :: rest) :: post).length)).map tables = loaded
  have htable {k : Nat} (hk : k < s.nseg.toNat) (hle : k ≤ pre.length) : loaded[k]? = some (tables k) := by
    have hmin : k < min s.nseg.toNat (pre ++ (zs ++ y :: rest) :: post).length := by simp; omega
    rw [← hloaded, List.getElem?_map, List.getElem?_range hmin, Option.map_some]
  have hsegments : encodeSegments s.params.bitCap loaded 0 pre [] = .ok (streamOf tables 0 pre) :=
    encodeSegments_of_hasEntry (fun k hk => by simpa using htable (hk.trans_le hnseg) hk.le) (by simpa using hpre)
      ((List.length_append ▸ hcap).trans' (Nat.le_add_right ..))
  obtain ⟨bits, hbits, hnone⟩ : ∃ bits, encodeSymbols s.params.bitCap loaded[pre.length]? pre.length 0 zs
      (streamOf tables 0 pre) = .ok bits ∧ loaded[pre.length]?.bind (lookup y) = none := by
    rcases hy with ⟨hout, rfl⟩ | ⟨hlt, hnone⟩
    · have hnotable : loaded[pre.length]? = none := by
        rw [← hloaded, List.getElem?_eq_none (by simp; omega)]
      exact ⟨_, rfl, by rw [hnotable, Option.bind_none]⟩
    · rw [htable hlt le_rfl, Option.bind_some]
      exact ⟨_, encodeSymbols_of_hasEntry hzs _ 0 hcap, lookup_of_not_hasEntry hnone⟩
  rw [encodeSegments_append, hsegments, ok_bind, encodeSegments, encodeSymbols_append, Nat.zero_add, hbits, ok_bind,
    encodeSymbols_no_entry hnone, error_bind, error_bind, Nat.zero_add]

/-! ## ENCODE -/

/-- There are no more segments than units of input. -/
theorem segments_length_le {input : List RawUnit} {p q : Nat} (hp : 1 ≤ p) :
    (segments input p q).length ≤ input.length := by
  rw [segments_length]
  exact (cdiv_le_iff hp).2 (Nat.le_mul_of_pos_right _ hp)

theorem exists_split_of_getElem? {α : Type} {xs : List α} {i : Nat} {x : α} (h : xs[i]? = some x) :
    ∃ pre post, xs = pre ++ x :: post ∧ pre.length = i := by
  obtain ⟨hi, rfl⟩ := List.getElem?_eq_some_iff.1 h
  exact ⟨xs.take i, xs.drop (i + 1), by simp, List.length_take_of_le hi.le⟩

/-- Settles O38: the symbols before have codewords that fit, and the segment and symbol indices fit ERRSEG and ERRPOS
because no segment and no symbol is empty. -/
theorem encodeLookupFault : Obligations.EncodeLookupFault := by
  intro s input tables segs i j ys y hready hsegs hys hyj hy hbefore hentries hcap
  have ⟨hp, hq, _, _, _, hinput, _⟩ := hready
  have hinlen : input.length < 2 ^ 32 := State.input_length hinput ▸ s.inlen.isLt
  have hsegcount : segs.length ≤ input.length := hsegs ▸ segments_length_le hp
  have hsymcount : ys.length ≤ input.length := length_le_of_mem_segments hq (hsegs ▸ List.mem_of_getElem? hys)
  have hi : i < segs.length := (List.getElem?_eq_some_iff.1 hys).1
  have hj : j < ys.length := (List.getElem?_eq_some_iff.1 hyj).1
  refine faultsWith_of_raise (lose := State.loseStream) rfl ?_ (by omega) (by omega)
  obtain ⟨pre, post, rfl, rfl⟩ := exists_split_of_getElem? hys
  obtain ⟨zs, rest, rfl, rfl⟩ := exists_split_of_getElem? hyj
  rw [List.take_left] at hentries hcap
  rw [List.take_left] at hcap
  rw [List.length_eq_zero_iff] at hy
  exact encodePhase_of_no_entry hready hsegs hy (le_of_forall_lt fun k hk => (hbefore k hk).1)
    (fun k hk z hz => (hbefore k hk).2 z (by rwa [List.getD_append _ _ _ _ hk])) hentries hcap

end Sys2Proof.Machine
end

section
/-! SUPPORT. The stream faults of DECODE (R136 to R138): full segments are decoded one after the other, so the Decoder
comes to a symbol it cannot read, or to the bits left over, with the units of all symbols before it. -/

namespace Sys2Proof.Machine

/-! ## A symbol the Decoder cannot read -/

section
variable {ns : List TreeNode}

/-- A walk that comes to a Leaf leaves alone the bits it has not read. -/
theorem walk_append {x : Nat} {bits rest : List Bool} {y : Symbol} (h : walk ns x bits = some (y, rest))
    (more : List Bool) : walk ns x (bits ++ more) = some (y, rest ++ more) := by
  induction bits generalizing x with
  | nil =>
    rw [walk] at h
    split at h
    · cases h
      exact walk_of_leaf ‹_› more
    · cases h
    · cases h
  | cons b bits ih =>
    rw [walk] at h
    split at h
    · cases h
      exact walk_of_leaf ‹_› (b :: bits ++ more)
    · rw [List.cons_append, walk_of_internal ‹_›]
      exact ih h
    · cases h

/-- A walk whose bits end inside a codeword comes to no Leaf (R137). -/
theorem walk_of_codeword_cut {fuel x : Nat} {e : CtEntry} (he : e ∈ visit ns fuel x []) {u : List Bool}
    (hu : u <+: e.cw) (hne : u ≠ e.cw) : walk ns x u = none := by
  obtain ⟨path, hcw, hwalk⟩ := walk_of_mem_visit he
  rw [List.nil_append] at hcw
  rw [hcw] at hu hne
  obtain ⟨cut, rfl⟩ := hu
  refine Option.eq_none_iff_forall_ne_some.2 fun ⟨y, rest⟩ h => hne ?_
  have hwhole : some (y, rest ++ cut) = some (e.sym, []) := by
    rw [← walk_append h, ← hwalk [], List.append_nil]
  have hcut : cut = [] := (List.append_eq_nil_iff.1 (Prod.mk.inj (Option.some.inj hwhole)).2).2
  rw [hcut, List.append_nil]

/-- The Decoder raises `ERR_TRUNC` where the bits end before or inside a codeword (R137). -/
theorem decodeSymbol_of_codeword_cut {e : CtEntry} (he : e ∈ genTable ns) {u : List Bool} (hu : u <+: e.cw)
    (hne : u ≠ e.cw) (i cnt : Nat) : decodeSymbol ns i cnt u = .error (.raise ⟨.trunc, i, cnt⟩) := by
  rcases genTable_root_cases ns with ⟨y, f, hroot, hg⟩ | ⟨hroot, hg⟩ <;> rw [hg] at he <;> unfold decodeSymbol
  · rw [List.mem_singleton.1 he] at hu hne
    have hnil : u = [] := by
      rcases List.prefix_cons_iff.1 hu with h | ⟨t, rfl, ht⟩
      · exact h
      · exact absurd (congrArg (false :: ·) (List.prefix_nil.1 ht)) hne
    rw [hroot, hnil]
  · split
    · exact absurd ‹_› (hroot _ _)
    · rw [walk_of_codeword_cut he hu hne]

/-- A well-formed tree of one node is a Leaf: an Internal node has its children below it (R25). -/
theorem getLast?_of_single_node {c : Params} (h : wfTree c ns = true) (hlen : ns.length = 1) :
    ∃ y f, ns.getLast? = some (.leaf y f) := by
  refine (root_cases h).resolve_right fun ⟨l, r, f, hroot⟩ => ?_
  obtain ⟨-, -, hbelow, -⟩ := wfTree_iff.1 h
  rw [List.getLast?_eq_getElem?, hlen] at hroot
  exact Nat.not_lt_zero l (children_lt hbelow hroot).1

/-- A single-leaf segment has no codeword that begins with `1` (R136). -/
theorem decodeSymbol_of_leaf_root_true {y : Symbol} {f : Nat} (hroot : ns.getLast? = some (.leaf y f)) (i cnt : Nat)
    (rest : List Bool) : decodeSymbol ns i cnt (true :: rest) = .error (.raise ⟨.badstream, i, cnt⟩) := by
  rw [decodeSymbol, hroot]

end

/-! ## The loops up to that symbol -/

section
variable {outCap : Nat}

/-- A segment that is not at its end stops where its next symbol does. -/
theorem decodeSegment_stop {ns : List TreeNode} {i cnt : Nat} {last : Bool} {bits : List Bool} {x : Stop}
    (hend : last = true → bits = [] → cnt = 0) (hsym : decodeSymbol ns i cnt bits = .error x) (more : Nat)
    (out : List RawUnit) : decodeSegment outCap ns i last (more + 1) cnt bits out = .error x := by
  have hgoes : ¬ (last && bits.isEmpty && decide (1 ≤ cnt)) = true := by
    simp only [Bool.and_eq_true, List.isEmpty_iff, decide_eq_true_eq, not_and]
    rintro ⟨hlast, hbits⟩
    rw [hend hlast hbits]
    exact Nat.not_succ_le_zero 0
  rw [decodeSegment, if_neg hgoes, hsym, error_bind]

/-- Full segments, each of its own tree, are decoded before the segments that follow, whatever bits follow. -/
theorem decodeSegments_full {cap i : Nat} {trees : List (List TreeNode)} {segs : List (List CtEntry)}
    (hcode : List.Forall₂ (fun ns es => ∀ e ∈ es, e ∈ genTable ns) trees segs)
    (hfull : ∀ es ∈ segs, es.length = cap) (post : List (List TreeNode)) (rest : List Bool) {out : List RawUnit}
    (hcap : (out ++ unitsOf segs).length ≤ outCap) :
    decodeSegments outCap cap i (trees ++ post) (bitsOf segs ++ rest) out =
      decodeSegments outCap cap (i + segs.length) post rest (out ++ unitsOf segs) := by
  induction hcode generalizing i out with
  | nil => simp [bitsOf, unitsOf]
  | @cons ns es trees segs hes hcode ih =>
    obtain ⟨hlen, hfull⟩ := List.forall_mem_cons.1 hfull
    rw [unitsOf_cons, ← List.append_assoc] at hcap ⊢
    have hfits : (out ++ es.flatMap CtEntry.sym).length ≤ outCap := by
      rw [List.length_append] at hcap
      omega
    have hseg := decodeSegment_append hes i (trees ++ post).isEmpty 0 0 (bitsOf segs ++ rest) hfits
    rw [decodeSegment_end (.inl rfl), Nat.add_zero, hlen] at hseg
    rw [List.cons_append, decodeSegments, bitsOf_cons, List.append_assoc, hseg, ok_bind, List.length_cons,
      Nat.add_comm segs.length, ← Nat.add_assoc]
    exact ih hfull hcap

end

theorem bitsOf_concat (full : List (List CtEntry)) (es : List CtEntry) :
    bitsOf (full ++ [es]) = bitsOf full ++ es.flatMap CtEntry.cw := by
  simp [bitsOf]

theorem unitsOf_concat (full : List (List CtEntry)) (es : List CtEntry) :
    unitsOf (full ++ [es]) = unitsOf full ++ es.flatMap CtEntry.sym := by
  simp [unitsOf]

theorem fromTrees_concat {trees : Nat → List TreeNode} {full : List (List CtEntry)} {es : List CtEntry}
    (h : FromTrees trees (full ++ [es])) : FromTrees trees full ∧ ∀ e ∈ es, e ∈ genTable (trees full.length) := by
  refine ⟨fun i hi e he => ?_, fun e he => h full.length (by simp) e (by simpa using he)⟩
  exact h i (by rw [List.length_append]; omega) e (by rwa [List.getD_append _ _ _ _ hi])

theorem forall_mem_of_forall_getD {α : Type} {p : List α → Prop} {xss : List (List α)}
    (h : ∀ i < xss.length, p (xss.getD i [])) : ∀ xs ∈ xss, p xs := by
  refine List.forall_mem_iff_forall_getElem.2 fun i hi => ?_
  simpa [hi] using h i hi

theorem fullCount_lt {s : State} (hq : 1 ≤ s.charlen.toNat) : fullCount s < 2 ^ 32 :=
  ((cdiv_le_iff hq).2 (Nat.le_mul_of_pos_right _ hq)).trans_lt s.seglen.isLt

/-! ## DECODE -/

section
variable {s : State} {trees : Nat → List TreeNode} {rest : List Bool}

/-- DECODE on a stream that begins with full segments comes to the segments after them (R131, R133). -/
theorem decodePhase_of_full_segments {full : List (List CtEntry)}
    (hready : DecodeReady s (bitsOf full ++ rest) trees) (hcode : FromTrees trees full)
    (hfull : ∀ i < full.length, (full.getD i []).length = fullCount s)
    (hcap : (unitsOf full).length ≤ s.params.outCap) {more : Nat} (hmore : s.nseg.toNat = full.length + more) :
    decodePhase s = (decodeSegments s.params.outCap (fullCount s) full.length
      ((List.range more).map fun k => trees (full.length + k)) rest (unitsOf full) >>= fun r =>
        checkTrailing s.nseg.toNat r.1 >>= fun _ => .ok (s.storeOutput r.2)) := by
  have hsegments := decodeSegments_full (i := 0) (forall₂_of_fromTrees hcode) (forall_mem_of_forall_getD hfull)
    ((List.range more).map fun k => trees (full.length + k)) rest (out := []) hcap
  rw [List.nil_append, Nat.zero_add] at hsegments
  rw [decodePhase_eq_decodeSegments hready, ← hsegments, hmore, List.range_add, List.map_append, List.map_map]
  rfl

/-- DECODE ends with the fault of the first symbol it cannot read, at its segment and the number of symbols emitted for
it, where the segment is not at its end (R133). -/
theorem decode_faultsWith_of_symbol {full : List (List CtEntry)} {es : List CtEntry} {c : ErrCode}
    (hready : DecodeReady s (bitsOf (full ++ [es]) ++ rest) trees) (hnseg : full.length < s.nseg.toNat)
    (hcode : FromTrees trees (full ++ [es])) (hfull : ∀ i < full.length, (full.getD i []).length = fullCount s)
    (hlt : es.length < fullCount s) (hcap : (unitsOf (full ++ [es])).length ≤ s.params.outCap)
    (hend : full.length + 1 = s.nseg.toNat → rest = [] → es = [])
    (hsym : decodeSymbol (trees full.length) full.length es.length rest =
      .error (.raise ⟨c, full.length, es.length⟩)) : FaultsWith .decode s c full.length es.length := by
  have ⟨_, hq, _⟩ := hready
  obtain ⟨hcode, hes⟩ := fromTrees_concat hcode
  rw [unitsOf_concat] at hcap
  rw [bitsOf_concat, List.append_assoc] at hready
  have hfits : (unitsOf full).length ≤ s.params.outCap := by
    rw [List.length_append] at hcap
    omega
  obtain ⟨more, hmore⟩ : ∃ more, s.nseg.toNat = full.length + (more + 1) := Nat.exists_eq_add_of_lt hnseg
  obtain ⟨due, hdue⟩ : ∃ due, fullCount s = es.length + (due + 1) := Nat.exists_eq_add_of_lt hlt
  have hphase := decodePhase_of_full_segments hready hcode hfull hfits hmore
  rw [List.range_succ_eq_map, List.map_cons, decodeSegments, Nat.add_zero, hdue,
    decodeSegment_append hes _ _ _ _ _ hcap, Nat.zero_add, decodeSegment_stop ?_ hsym, error_bind, error_bind] at hphase
  · exact faultsWith_of_raise (lose := State.loseOutput) rfl hphase (hnseg.trans s.nseg.isLt)
      (hlt.trans (fullCount_lt hq))
  · intro hlast hrest
    have hone : more = 0 := by simpa using hlast
    rw [hend (by omega) hrest, List.length_nil]

end

/-- Settles O40: the walk of a symbol whose codeword is cut ends at an Internal node, or a single leaf finds no bit. -/
theorem decodeTruncationFault : Obligations.DecodeTruncationFault := by
  rintro s _ trees full es e u hready hnseg hcode hfull hlt he hu hne hend rfl hcap
  exact decode_faultsWith_of_symbol hready hnseg hcode hfull hlt hcap hend (decodeSymbol_of_codeword_cut he hu hne _ _)

/-- Settles O41: the tree of one node is a Leaf, whose only codeword is `0`. -/
theorem decodeSingleLeafBitFault : Obligations.DecodeSingleLeafBitFault := by
  rintro s _ trees full es rest hready hnseg hcode hfull hlt hone rfl hcap
  have ⟨_, _, ⟨_, htrees⟩, _⟩ := hready
  obtain ⟨y, f, hroot⟩ := getLast?_of_single_node (htrees _ hnseg).2 hone
  exact decode_faultsWith_of_symbol hready hnseg hcode hfull hlt hcap (fun _ h => absurd h (List.cons_ne_nil _ _))
    (decodeSymbol_of_leaf_root_true hroot _ _ rest)

/-- Settles O42: after the full segments no segment is left to take the bits. -/
theorem decodeTrailingBitsFault : Obligations.DecodeTrailingBitsFault := by
  rintro s _ trees segs rest hready hnseg hcode hfull hrest rfl hcap
  have htrailing : checkTrailing s.nseg.toNat rest = .error (.raise ⟨.badstream, s.nseg.toNat, 0⟩) :=
    if_neg (mt List.isEmpty_iff.1 hrest)
  have hphase := decodePhase_of_full_segments hready hcode hfull hcap (more := 0) hnseg.symm
  rw [List.range_zero, List.map_nil, decodeSegments, ok_bind, htrailing, error_bind] at hphase
  exact faultsWith_of_raise (lose := State.loseOutput) rfl hphase s.nseg.isLt (by decide)

end Sys2Proof.Machine
end

section
/-! SUPPORT. When a command is refused (U1, U4, R155, R171): its checks and its work refuse nothing, so the operands it
loads decide, and BUILD and GEN in the midst of BUILD_CODES find the well-formed tables the unit before them left. -/

namespace Sys2Proof.Machine

section
variable {α β : Type}

/-- A bind is refused in its first part or in its second. -/
theorem refuses_bind {x : Except Stop α} {f : α → Except Stop β} :
    Refuses (x >>= f) ↔ Refuses x ∨ ∃ a, x = .ok a ∧ Refuses (f a) := by
  rcases x with e | a
  · simp [Refuses]
  · simp [Refuses]

@[simp] theorem not_refuses_ok (a : α) : ¬ Refuses (.ok a) := by rintro ⟨_, ⟨⟩⟩

@[simp] theorem not_refuses_raise (e : Raise) : ¬ Refuses (.error (.raise e) : Except Stop α) := by rintro ⟨_, ⟨⟩⟩

@[simp] theorem not_refuses_raiseIf (c : Bool) (e : ErrCode) : ¬ Refuses (raiseIf c e) := by
  rintro ⟨r, h⟩
  cases (raiseIf_eq_error.1 h).2

theorem OnlyCapacity.not_refuses {r : Except Stop α} (h : OnlyCapacity r) : ¬ Refuses r := by
  rintro ⟨x, hx⟩
  cases h _ hx

theorem refuses_traverse {f : α → Except Stop β} {as : List α} (h : Refuses (traverse f as)) :
    ∃ a ∈ as, Refuses (f a) := by
  obtain ⟨x, hx⟩ := h
  obtain ⟨a, ha, hfa⟩ := traverse_eq_error hx
  exact ⟨a, ha, x, hfa⟩

theorem eq_none_of_refuses_orRefuse {r : Refusal} {o : Option α} (h : Refuses (orRefuse r o)) : o = none := by
  obtain ⟨x, hx⟩ := h
  exact (orRefuse_eq_error.1 hx).1

/-- Where loading segments `0 .. k - 1` is refused, one of them has no value or is not well-formed. -/
theorem exists_of_refuses_traverse_loadTable {w : Win} {get : Nat → Option (List (Stored α))} {ok : List α → Bool}
    {k : Nat} (h : Refuses (traverse (loadTable w get ok) (List.range k))) :
    ∃ j < k, ∀ t, (get j).bind recordsOf = some t → ok t = false := by
  obtain ⟨j, hj, x, hx⟩ := refuses_traverse h
  refine ⟨j, List.mem_range.1 hj, fun t ht => Bool.eq_false_iff.2 fun hok => ?_⟩
  cases hx.symm.trans (loadTable_eq_ok.2 ⟨ht, hok⟩)

end

/-! ## The work of ENCODE and DECODE -/

theorem not_refuses_encodeSymbols {cap : Nat} {T : Option (List CtEntry)} {i j : Nat} {ys : List Symbol}
    {bits : List Bool} : ¬ Refuses (encodeSymbols cap T i j ys bits) := by
  induction ys generalizing j bits with
  | nil => exact not_refuses_ok _
  | cons y ys ih =>
    rw [encodeSymbols]
    split
    · exact not_refuses_raise _
    · split
      · exact not_refuses_raise _
      · exact ih

theorem not_refuses_encodeSegments {cap : Nat} {tables : List (List CtEntry)} {i : Nat} {segs : List (List Symbol)}
    {bits : List Bool} : ¬ Refuses (encodeSegments cap tables i segs bits) := by
  induction segs generalizing i bits with
  | nil => exact not_refuses_ok _
  | cons ys segs ih => simp [encodeSegments, refuses_bind, not_refuses_encodeSymbols, ih]

theorem not_refuses_decodeSymbol {ns : List TreeNode} {i cnt : Nat} {bits : List Bool} :
    ¬ Refuses (decodeSymbol ns i cnt bits) := by
  unfold decodeSymbol
  split
  · split
    · exact not_refuses_raise _
    · exact not_refuses_raise _
    · exact not_refuses_ok _
  · split
    · exact not_refuses_raise _
    · exact not_refuses_ok _

theorem not_refuses_decodeSegment {cap : Nat} {ns : List TreeNode} {i : Nat} {last : Bool} {more cnt : Nat}
    {bits : List Bool} {out : List RawUnit} : ¬ Refuses (decodeSegment cap ns i last more cnt bits out) := by
  induction more generalizing cnt bits out with
  | zero => exact not_refuses_ok _
  | succ more ih =>
    rw [decodeSegment]
    split
    · exact not_refuses_ok _
    · simp [refuses_bind, not_refuses_decodeSymbol, ih]

theorem not_refuses_decodeSegments {cap k i : Nat} {trees : List (List TreeNode)} {bits : List Bool}
    {out : List RawUnit} : ¬ Refuses (decodeSegments cap k i trees bits out) := by
  induction trees generalizing i bits out with
  | nil => exact not_refuses_ok _
  | cons ns trees ih => simp [decodeSegments, refuses_bind, not_refuses_decodeSegment, ih]

theorem not_refuses_checkTrailing {k : Nat} {bits : List Bool} : ¬ Refuses (checkTrailing k bits) := by
  unfold checkTrailing
  split
  · exact not_refuses_ok _
  · exact not_refuses_raise _

/-! ## The pseudocode of the commands -/

section
variable {s : State}

theorem not_refuses_countChecks : ¬ Refuses (countChecks s) := by simp [countChecks, refuses_bind]

theorem not_refuses_encodeChecks : ¬ Refuses (encodeChecks s) := by simp [encodeChecks, refuses_bind]

theorem not_refuses_decodeChecks : ¬ Refuses (decodeChecks s) := by simp [decodeChecks, refuses_bind]

theorem input_eq_none_of_countPhase_refuses (h : Refuses (countPhase s)) : s.input = none := by
  rcases refuses_bind.1 h with h | ⟨_, -, h⟩
  · exact absurd h not_refuses_countChecks
  rcases refuses_bind.1 h with h | ⟨input, -, h⟩
  · exact eq_none_of_refuses_orRefuse h
  rcases refuses_bind.1 h with h | ⟨tables, -, h⟩
  · obtain ⟨ys, -, h⟩ := refuses_traverse h
    exact absurd h (countSegment_nil_onlyCapacity _ ys).not_refuses
  · exact absurd h (not_refuses_ok _)

theorem exists_of_buildPhase_refuses (h : Refuses (buildPhase s)) :
    ∃ j < s.nseg.toNat, ∀ T, s.freqTable j = some T → wfFt s.params T = false := by
  rcases refuses_bind.1 h with h | ⟨_, -, h⟩
  · exact absurd h (not_refuses_raiseIf _ _)
  rcases refuses_bind.1 h with h | ⟨tables, -, h⟩
  · exact exists_of_refuses_traverse_loadTable h
  · exact absurd h (not_refuses_ok _)

theorem exists_of_genPhase_refuses (h : Refuses (genPhase s)) :
    ∃ j < s.nseg.toNat, ∀ ns, s.arena j = some ns → wfTree s.params ns = false := by
  rcases refuses_bind.1 h with h | ⟨_, -, h⟩
  · exact absurd h (not_refuses_raiseIf _ _)
  rcases refuses_bind.1 h with h | ⟨trees, -, h⟩
  · exact exists_of_refuses_traverse_loadTable h
  · exact absurd h (not_refuses_ok _)

/-- Where the pseudocode of COUNT comes to its end, the conditions of COUNT hold. -/
theorem countReady_of_countPhase_eq_ok {u : State} (h : countPhase s = .ok u) : ∃ input, CountReady s input := by
  obtain ⟨hchecks, input, tables, hinput, htables, -⟩ := countPhase_eq_ok.1 h
  obtain ⟨hp, hq, hin, hsegs, hsym⟩ := countChecks_eq_ok.1 hchecks
  exact ⟨input, Nat.one_le_iff_ne_zero.2 hp, Nat.one_le_iff_ne_zero.2 hq, hin, hsegs, hsym, hinput,
    (traverse_countSegment_eq_ok.1 htables).1⟩

/-- Under the conditions of COUNT all three units complete (R114), so only COUNT can be refused. -/
theorem input_eq_none_of_buildCodesPhase_refuses (h : Refuses (buildCodesPhase s)) : s.input = none := by
  have hphase := h
  rcases refuses_bind.1 h with h | ⟨u, hu, -⟩
  · exact input_eq_none_of_countPhase_refuses h
  · obtain ⟨input, hready⟩ := countReady_of_countPhase_eq_ok hu
    rw [buildCodesPhase_eq_coded hready rfl] at hphase
    exact absurd hphase (not_refuses_ok _)

theorem operands_of_encodePhase_refuses (h : Refuses (encodePhase s)) :
    s.input = none ∨ ∃ j < min s.nseg.toNat (cdiv s.inlen.toNat s.seglen.toNat),
      ∀ T, s.codeTable j = some T → wfCt s.params T = false := by
  rcases refuses_bind.1 h with h | ⟨_, -, h⟩
  · exact absurd h not_refuses_encodeChecks
  rcases refuses_bind.1 h with h | ⟨input, hinput, h⟩
  · exact .inl (eq_none_of_refuses_orRefuse h)
  rcases refuses_bind.1 h with h | ⟨tables, -, h⟩
  · obtain ⟨j, hj, hbad⟩ := exists_of_refuses_traverse_loadTable h
    rw [segments_length, State.input_length (loadInput_eq_ok.1 hinput)] at hj
    exact .inr ⟨j, hj, hbad⟩
  rcases refuses_bind.1 h with h | ⟨bits, -, h⟩
  · exact absurd h not_refuses_encodeSegments
  · exact absurd h (not_refuses_ok _)

theorem operands_of_decodePhase_refuses (h : Refuses (decodePhase s)) :
    s.stream = none ∨ ∃ j < s.nseg.toNat, ∀ ns, s.arena j = some ns → wfTree s.params ns = false := by
  rcases refuses_bind.1 h with h | ⟨_, -, h⟩
  · exact absurd h not_refuses_decodeChecks
  rcases refuses_bind.1 h with h | ⟨bits, -, h⟩
  · exact .inl (eq_none_of_refuses_orRefuse h)
  rcases refuses_bind.1 h with h | ⟨trees, -, h⟩
  · exact .inr (exists_of_refuses_traverse_loadTable h)
  rcases refuses_bind.1 h with h | ⟨_, -, h⟩
  · exact absurd h not_refuses_decodeSegments
  rcases refuses_bind.1 h with h | ⟨_, -, h⟩
  · exact absurd h not_refuses_checkTrailing
  · exact absurd h (not_refuses_ok _)

end

/-- Settles O44: a command is refused where its pseudocode is, and that only where it loads an operand. -/
theorem commandsRefuseOnlyWithoutMeaning : Obligations.CommandsRefuseOnlyWithoutMeaning := by
  intro i s r h
  have hphase {lose : State → State} {x : Except Stop State} (hx : conclude lose s x = .refused r) : Refuses x :=
    ⟨r, conclude_eq_refused.1 hx⟩
  cases i with
  | nop => cases h
  | count => exact input_eq_none_of_countPhase_refuses (hphase h)
  | build => exact exists_of_buildPhase_refuses (hphase h)
  | gen => exact exists_of_genPhase_refuses (hphase h)
  | buildCodes => exact input_eq_none_of_buildCodesPhase_refuses (hphase h)
  | encode => exact operands_of_encodePhase_refuses (hphase h)
  | decode => exact operands_of_decodePhase_refuses (hphase h)

end Sys2Proof.Machine
end

section
/-! SUPPORT. What a fault leaves: no value in the windows the command writes (R151), and all but STATUS, ERRSEG and
ERRPOS where it is `ERR_CONFIG` (R157); and that no step but the reset event leaves a faulted core (R152). -/

namespace Sys2Proof.Machine

/-! ## Outputs after a fault -/

theorem State.element_reset (a : WinAddr) : State.reset.element a = none := by cases a <;> rfl

/-- A window that is as after reset holds no value. -/
theorem State.SameData.element_eq_none {t : State} {w : Win} (h : State.SameData .reset t w) {a : WinAddr}
    (ha : a.win = w) : t.element a = none := (h.sameWindow a ha).trans (State.element_reset a)

/-- What a fault of a command loses (R151). -/
def lossesOf : Instr → State → State
  | .nop => id
  | .count => State.loseCounts
  | .build => State.loseTrees
  | .gen => State.loseCodes
  | .buildCodes => State.loseAllTables
  | .encode => State.loseStream
  | .decode => State.loseOutput

/-- The losses of a command are the windows R41 lists it as writing. -/
theorem lossesOf_sameData_reset (i : Instr) (s : State) :
    ∀ w ∈ writesWin i, State.SameData .reset (lossesOf i s) w := by
  cases i <;> simp [writesWin, lossesOf, State.SameData, State.reset]

/-- A command is the end of a pseudocode with its losses and its raises. -/
theorem exec_eq_conclude (i : Instr) (s : State) :
    ∃ r, exec i s = conclude (lossesOf i) s r ∧ ∀ e, r = .error (.raise e) → MayRaise i e := by
  cases i with
  | nop => exact ⟨.ok s, rfl, fun _ h => by cases h⟩
  | count => exact ⟨_, rfl, fun _ => countPhase_raise⟩
  | build => exact ⟨_, rfl, fun _ => buildPhase_raise⟩
  | gen => exact ⟨_, rfl, fun _ => genPhase_raise⟩
  | buildCodes => exact ⟨_, rfl, fun _ => buildCodesPhase_raise⟩
  | encode => exact ⟨_, rfl, fun _ => encodePhase_raise⟩
  | decode => exact ⟨_, rfl, fun _ => decodePhase_raise⟩

/-- Settles O11: a fault that is not `ERR_CONFIG` keeps none of the windows a command writes. -/
theorem faultLeavesOutputsWithoutValue : Obligations.FaultLeavesOutputsWithoutValue := by
  intro i s t h hfault hne a ha
  obtain ⟨r, hexec, hraise⟩ := exec_eq_conclude i s
  rcases conclude_eq_next.1 (hexec.symm.trans h) with ⟨u, -, rfl⟩ | ⟨e, he, rfl⟩
  · exact absurd hfault (show ¬ statusFault statusOfDone = true by decide)
  · have hkeep : e.code.leavesAll = false := (hraise e he).leavesAll fun hc => hne (congrArg statusOfFault hc)
    rw [hkeep, (State.frame_takeFault _ e).element List.not_mem_nil]
    exact (lossesOf_sameData_reset i s _ ha).element_eq_none rfl

/-! ## ERR_CONFIG -/

section
variable {s t : State}

section
variable (h : s.seglen = 0 ∨ s.charlen = 0)
include h

theorem raiseIf_zero_length : raiseIf (s.seglen.toNat = 0 || s.charlen.toNat = 0) .config =
    .error (.raise ⟨.config, 0, 0⟩) :=
  raiseIf_eq_error.2 ⟨by rcases h with h | h <;> simp [h], rfl⟩

theorem countPhase_of_zero_length : countPhase s = .error (.raise ⟨.config, 0, 0⟩) := by
  rw [countPhase, countChecks, raiseIf_zero_length h]
  rfl

theorem encodePhase_of_zero_length : encodePhase s = .error (.raise ⟨.config, 0, 0⟩) := by
  rw [encodePhase, encodeChecks, raiseIf_zero_length h]
  rfl

theorem decodePhase_of_zero_length : decodePhase s = .error (.raise ⟨.config, 0, 0⟩) := by
  rw [decodePhase, decodeChecks, raiseIf_zero_length h]
  rfl

end

/-- `ERR_CONFIG` leaves all but STATUS, ERRSEG and ERRPOS (R151). -/
theorem conclude_config {lose : State → State} {r : Except Stop State}
    (h : r = .error (.raise ⟨.config, 0, 0⟩)) :
    conclude lose s r = .next { s with status := 0x00000034, errseg := 0, errpos := 0 } := by
  subst h
  rfl

/-! ## SEGLEN and CHARLEN of BUILD and GEN -/

/-- The state with other lengths in SEGLEN and CHARLEN. -/
def State.withLengths (p q : Word) (s : State) : State := { s with seglen := p, charlen := q }

theorem buildPhase_withLengths (p q : Word) :
    buildPhase (s.withLengths p q) = State.withLengths p q <$> buildPhase s := by
  simp only [buildPhase, map_bind, map_pure]
  rfl

theorem genPhase_withLengths (p q : Word) : genPhase (s.withLengths p q) = State.withLengths p q <$> genPhase s := by
  simp only [genPhase, map_bind, map_pure]
  rfl

/-- The end of a command leaves SEGLEN and CHARLEN where its losses do. -/
theorem conclude_withLengths {lose : State → State} {p q : Word}
    (hlose : lose (s.withLengths p q) = (lose s).withLengths p q) {r : Except Stop State}
    (h : conclude lose s r = .next t) :
    conclude lose (s.withLengths p q) (State.withLengths p q <$> r) = .next (t.withLengths p q) := by
  rcases conclude_eq_next.1 h with ⟨u, rfl, rfl⟩ | ⟨e, rfl, rfl⟩
  · rfl
  · refine conclude_eq_next.2 (.inr ⟨e, rfl, ?_⟩)
    rw [hlose]
    split <;> rfl

theorem exec_withLengths {i : Instr} (hi : i ∈ [Instr.build, .gen]) (p q : Word) (h : exec i s = .next t) :
    exec i (s.withLengths p q) = .next (t.withLengths p q) := by
  rcases List.mem_pair.1 hi with rfl | rfl
  · have hend := conclude_withLengths (lose := State.loseTrees) (p := p) (q := q) rfl h
    rwa [← buildPhase_withLengths] at hend
  · have hend := conclude_withLengths (lose := State.loseCodes) (p := p) (q := q) rfl h
    rwa [← genPhase_withLengths] at hend

/-- BUILD and GEN end with DONE or `ERR_CAPACITY` (R146). -/
theorem status_ne_config_of_exec {i : Instr} (hi : i ∈ [Instr.build, .gen]) (h : exec i s = .next t) :
    t.status ≠ statusOfFault .config := by
  rcases exec_doneOrFault h with ⟨hdone, -⟩ | ⟨e, hraise, hfault, -⟩
  · exact hdone ▸ (statusOfFault_ne_statusOfDone _).symm
  · have he : e = ⟨.capacity, 0, 0⟩ := by rcases List.mem_pair.1 hi with rfl | rfl <;> exact hraise
    rw [hfault, he]
    decide

end

/-- Settles O20: the lengths are checked first, by the commands that cut the input or count the symbols of a segment. -/
theorem zeroLengthsAreConfigFaults : Obligations.ZeroLengthsAreConfigFaults := by
  refine ⟨fun s h i hi => ?_, fun s t i hi h => ⟨status_ne_config_of_exec hi h, fun p q => exec_withLengths hi p q h⟩⟩
  cases i with
  | count => exact conclude_config (countPhase_of_zero_length h)
  | buildCodes => exact conclude_config (bind_eq_error.2 (.inl (countPhase_of_zero_length h)))
  | encode => exact conclude_config (encodePhase_of_zero_length h)
  | decode => exact conclude_config (decodePhase_of_zero_length h)
  | nop | build | gen => simp at hi

/-! ## A faulted core -/

/-- The two states are the same in STATUS, ERRSEG and ERRPOS. -/
def State.SameFault (s t : State) : Prop := t.status = s.status ∧ t.errseg = s.errseg ∧ t.errpos = s.errpos

theorem transact_sameFault {s t : State} {x : HostTxn} (hfault : statusFault s.status = true) (hx : x ≠ .reset)
    (h : transact s x = .quiet t) : State.SameFault s t := by
  rcases transact_eq_quiet h with ⟨r, d, rfl⟩ | ⟨n, v, -, hw⟩ | ⟨w, -, -, rfl⟩ | ⟨w, -, hw⟩ | ⟨hreset, -⟩
  · exact ⟨rfl, rfl, rfl⟩
  · rcases writeReg_cases hw with rfl | rfl | rfl | rfl | rfl | rfl <;> exact ⟨rfl, rfl, rfl⟩
  · cases w <;> exact ⟨rfl, rfl, rfl⟩
  · rw [writeCmd, if_pos hfault] at hw
    cases hw
    exact ⟨rfl, rfl, rfl⟩
  · exact absurd hreset hx

/-- Settles O49: a faulted core accepts no command, and no other transaction but the reset event writes STATUS, ERRSEG
or ERRPOS. -/
theorem onlyResetClearsAFault : Obligations.OnlyResetClearsAFault := by
  intro s t h hfault hreset
  rcases step_cases h with ⟨-, rfl⟩ | ⟨x, rest, hscript, -, hx | ⟨-, -, -, hidle, -⟩⟩
  · exact ⟨rfl, rfl, rfl⟩
  · have hne : x ≠ .reset := fun e => hreset (by rw [hscript, e, List.head?_cons])
    exact transact_sameFault (s := { s with script := rest }) hfault hne hx
  · rw [hfault] at hidle
    cases hidle

end Sys2Proof.Machine
end

section
/-! SUPPORT. The reset event (R170), which completes in every state, and the commands straight after it (R175). -/

namespace Sys2Proof.Machine

/-! ## The reset event -/

section
variable (s : State)

theorem readReg_resetEvent {n : Nat} (hn : n ≤ 15) : readReg s.resetEvent n = some 0 := by
  have hregs : s.resetEvent.regs = List.replicate 10 0 := rfl
  rw [readReg_of_le hn, hregs, List.getD_eq_getElem?_getD, List.getElem?_getD_replicate_default_eq]

theorem State.element_resetEvent (a : WinAddr) : s.resetEvent.element a = none := by cases a <;> rfl

end

/-- The reset event is allowed whatever BUSY is (R176), and is the whole step. -/
theorem step_of_reset {s : State} {rest : List HostTxn} (h : s.script = .reset :: rest) :
    step s = .next (State.resetEvent { s with script := rest }) := by
  have hallowed : allowedWhileBusy .reset = true := rfl
  rw [step_eq_next, hostTurn_cons h, hallowed]
  exact .inl (if_neg (by simp))

/-- Settles O50: R170. -/
theorem resetEventClearsAll : Obligations.ResetEventClearsAll := fun _ _ h =>
  ⟨_, step_of_reset h, fun _ hn => readReg_resetEvent _ hn, State.element_resetEvent _, rfl, rfl, rfl⟩

/-! ## Commands straight after reset -/

section
variable {s : State}

/-- With NSEG = 0 BUILD loads no table, so it leaves no tree. -/
theorem exec_build_of_nseg_eq_zero (h : s.nseg = 0) : exec .build s = .next (s.storeTrees []).complete :=
  conclude_eq_next.2 (.inl ⟨_, buildPhase_eq_ok.2 ⟨by simp [h], [], loadFreqTables_eq_ok.2 (by simp [h]), rfl⟩, rfl⟩)

/-- With NSEG = 0 GEN loads no tree, so it leaves no code table. -/
theorem exec_gen_of_nseg_eq_zero (h : s.nseg = 0) : exec .gen s = .next (s.storeCodes []).complete :=
  conclude_eq_next.2 (.inl ⟨_, genPhase_eq_ok.2 ⟨by simp [h], [], loadTrees_eq_ok.2 (by simp [h]), rfl⟩, rfl⟩)

end

/-- Settles O55: NSEG is 0, so BUILD and GEN have no segment, and SEGLEN is 0, which the other commands check first. -/
theorem commandsStraightAfterReset : Obligations.CommandsStraightAfterReset := by
  rintro c s rfl
  refine ⟨fun i hi => ?_, zeroLengthsAreConfigFaults.1 _ (.inl rfl)⟩
  simp only [List.mem_cons, List.not_mem_nil, or_false] at hi
  rcases hi with rfl | rfl | rfl
  · exact nopOnlySetsDone.2 _
  · exact exec_build_of_nseg_eq_zero rfl
  · exact exec_gen_of_nseg_eq_zero rfl

end Sys2Proof.Machine
end

section
/-! SUPPORT. The canonical form of the nine windows (log 10): every command stores non-empty tables, so no step lists
an empty segment. -/

namespace Sys2Proof.Machine

/-- A tree has a root (R25). -/
theorem ne_nil_of_wfTree {c : Params} {ns : List TreeNode} (h : wfTree c ns = true) : ns ≠ [] := by
  obtain ⟨hodd, -⟩ := wfTree_iff.1 h
  rintro rfl
  cases hodd

section
variable {s t : State} (h : Memory.wf s = true)
include h

/-! ## The commands -/

theorem Memory.wf_countPhase (hp : countPhase s = .ok t) : Memory.wf t = true := by
  obtain ⟨hchecks, input, tables, hin, htr, rfl⟩ := countPhase_eq_ok.1 hp
  obtain ⟨hcap, rfl⟩ := traverse_countSegment_eq_ok.1 htr
  refine Memory.wf_storeCounts h fun T hT => ?_
  obtain ⟨ys, hys, rfl⟩ := List.mem_map.1 hT
  obtain ⟨hwf, -⟩ := wfFt_frequencyTable hchecks hin hys (hcap ys hys)
  exact (wfFt_iff.1 hwf).1

theorem Memory.wf_buildPhase (hp : buildPhase s = .ok t) : Memory.wf t = true := by
  obtain ⟨-, tables, hload, rfl⟩ := buildPhase_eq_ok.1 hp
  obtain ⟨-, hload⟩ := loadFreqTables_eq_ok.1 hload
  refine Memory.wf_storeTrees h fun ns hns => ?_
  obtain ⟨T, hT, rfl⟩ := List.mem_map.1 hns
  obtain ⟨i, hi, rfl⟩ := List.getElem_of_mem hT
  exact ne_nil_of_wfTree (wfTree_buildTree (hload i hi).2)

theorem Memory.wf_genPhase (hp : genPhase s = .ok t) : Memory.wf t = true := by
  obtain ⟨-, trees, hload, rfl⟩ := genPhase_eq_ok.1 hp
  obtain ⟨-, hload⟩ := loadTrees_eq_ok.1 hload
  refine Memory.wf_storeCodes h fun T hT => ?_
  obtain ⟨ns, hns, rfl⟩ := List.mem_map.1 hT
  obtain ⟨i, hi, rfl⟩ := List.getElem_of_mem hns
  exact (wfCt_iff.1 (wfCt_genTable (hload i hi).2)).1

theorem Memory.wf_buildCodesPhase (hp : buildCodesPhase s = .ok t) : Memory.wf t = true := by
  obtain ⟨u, v, hu, hv, ht⟩ := buildCodesPhase_eq_ok.1 hp
  exact Memory.wf_genPhase (Memory.wf_buildPhase (Memory.wf_countPhase h hu) hv) ht

theorem Memory.wf_encodePhase (hp : encodePhase s = .ok t) : Memory.wf t = true := by
  obtain ⟨-, _, _, bits, -, -, -, rfl⟩ := encodePhase_eq_ok.1 hp
  exact Memory.wf_storeStream bits h

theorem Memory.wf_decodePhase (hp : decodePhase s = .ok t) : Memory.wf t = true := by
  obtain ⟨-, _, _, out, -, -, -, rfl⟩ := decodePhase_eq_ok.1 hp
  exact Memory.wf_storeOutput out h

/-- A command keeps the canonical form where its pseudocode and its losses (R151) do. -/
theorem Memory.wf_conclude {lose : State → State} {r : Except Stop State} (hlose : Memory.wf (lose s) = true)
    (hr : ∀ u, r = .ok u → Memory.wf u = true) (hc : conclude lose s r = .next t) : Memory.wf t = true := by
  rcases conclude_eq_next.1 hc with ⟨u, hu, rfl⟩ | ⟨e, -, rfl⟩
  · exact Memory.wf_complete (hr u hu)
  · split
    · exact Memory.wf_takeFault e h
    · exact Memory.wf_takeFault e hlose

theorem Memory.wf_exec {i : Instr} (he : exec i s = .next t) : Memory.wf t = true := by
  cases i with
  | nop => cases he; exact Memory.wf_complete h
  | count => exact Memory.wf_conclude h (Memory.wf_loseCounts h) (fun _ => Memory.wf_countPhase h) he
  | build => exact Memory.wf_conclude h (Memory.wf_loseTrees h) (fun _ => Memory.wf_buildPhase h) he
  | gen => exact Memory.wf_conclude h (Memory.wf_loseCodes h) (fun _ => Memory.wf_genPhase h) he
  | buildCodes => exact Memory.wf_conclude h (Memory.wf_loseAllTables h) (fun _ => Memory.wf_buildCodesPhase h) he
  | encode => exact Memory.wf_conclude h (Memory.wf_loseStream h) (fun _ => Memory.wf_encodePhase h) he
  | decode => exact Memory.wf_conclude h (Memory.wf_loseOutput h) (fun _ => Memory.wf_decodePhase h) he

/-! ## One step -/

/-- A register write touches no window. -/
theorem Memory.wf_writeReg {n : Nat} {v : Word} (hw : writeReg s n v = some t) : Memory.wf t = true := by
  rcases writeReg_cases hw with rfl | rfl | rfl | rfl | rfl | rfl <;> exact h

theorem Memory.wf_writeCmd {w : Word} (hw : writeCmd s w = .quiet t) : Memory.wf t = true := by
  rcases writeCmd_cases s w with ⟨-, e⟩ | ⟨-, i, -, e⟩ | ⟨-, x, -, e⟩ <;> rw [e] at hw <;> cases hw
  · exact h
  · exact Memory.wf_takeFault _ h

theorem Memory.wf_transact {x : HostTxn} (hx : transact s x = .quiet t) : Memory.wf t = true := by
  rcases transact_eq_quiet hx with ⟨r, d, rfl⟩ | ⟨n, v, -, hw⟩ | ⟨w, -, -, rfl⟩ | ⟨w, -, hw⟩ | ⟨-, rfl⟩
  · exact h
  · exact Memory.wf_writeReg h hw
  · exact Memory.wf_writeMem w h
  · exact Memory.wf_writeCmd h hw
  · exact Memory.wf_resetEvent s

theorem Memory.wf_step (hs : step s = .next t) : Memory.wf t = true := by
  rcases step_cases hs with ⟨-, rfl⟩ | ⟨x, rest, -, -, hx⟩
  · exact h
  · have hrest : Memory.wf { s with script := rest } = true := h
    rcases hx with hx | ⟨w, i, -, -, -, he⟩
    · exact Memory.wf_transact hrest hx
    · exact Memory.wf_exec hrest he

end

/-- Settles O57: the form is kept by every transaction, and by every command since no table it stores is empty. -/
theorem stepsKeepMemoryCanonical : Obligations.StepsKeepMemoryCanonical := fun _ _ => Memory.wf_step

end Sys2Proof.Machine
end
